-- ==== Sys2Proof/Word.lean ====
section
/-!
DEFINITION. The word types of the SFRE: bytes, 32-bit words, and bit strings in position order
(spec/00_scope.md R10, R11; spec/20_memory.md R60).
-/

namespace Sys2Proof

/-- One byte: an element of DATA_IN, DATA_OUT, a wire message or CBUF. -/
abbrev Byte := BitVec 8

/-- A 32-bit value: W0, W1, R0, R1, POS, CB_LEN, a generation, a MIC. -/
abbrev Word := BitVec 32

/-- A bit string; its head is position 0, the first bit (R10). -/
abbrev Bits := List Bool

end Sys2Proof
end

