-- ==== Sys2Proof/Config.lean ====
section
/-!
DEFINITION. What an SFRE instance is configured with: the parameters of spec/00_scope.md R8 and the
RuleContext of spec/10_state.md R40 to R44, and the free values of the model (`opaque`, no body).
The fields are data: which values are legal is checked by the operations of Machine/Rules.lean.
-/

namespace Sys2Proof

/-- `MAX_RIDW`, the largest rule-ID width (R8, decided). -/
def maxRidW : Nat := 32
/-- `MAX_DTAG_W`, the largest DTAG width (R8, decided). -/
def maxDtagW : Nat := 8
/-- `MAX_W_W`, the largest window-index width (R8, decided). -/
def maxWW : Nat := 8
/-- `MAX_FCN_W`, the largest FCN width (R8, decided). -/
def maxFcnW : Nat := 8
/-- `MICW`, the width of the MIC in bits (R8, decided). -/
def micW : Nat := 32

/-- A direction of transfer; the codes are UP = 1 and DOWN = 2 (R8, R87). -/
inductive Direction where
  | up
  | down
deriving DecidableEq, Repr

/-- `MIC_FN` (R8): the default CRC-32 of R98, or some other total function, named by a number and
left uninterpreted (`Config.openMic`). DESIGN CHOICE, log 4. -/
inductive MicFn where
  | crc32
  | open (n : Nat)
deriving DecidableEq, Repr

/-- The OPEN parameters of R8. `N_FD` is the length of the descriptor table. -/
structure Params where
  /-- `MTU`, device MTU in bytes. -/
  mtu : Nat
  /-- `TX_DIR`, the direction this instance sends in. -/
  txDir : Direction
  /-- `N_RX`, number of RX connection slots. -/
  nRx : Nat
  /-- `RX_MAX_SLOTS`, tile positions per RX connection. -/
  rxMaxSlots : Nat
  /-- `RX_TILE_BITS`, largest tile one position holds, in bits. -/
  rxTileBits : Nat
  /-- `TX_MAX_BYTES`, largest message TX_OUTPUT accepts. -/
  txMaxBytes : Nat
  /-- `MAX_IN_BYTES`, largest DATA_IN a command accepts. -/
  maxInBytes : Nat
  /-- `CBUF_BYTES`, capacity of the codec BitBuffer. -/
  cbufBytes : Nat
  /-- `MAX_FIELD_BITS`, width of FV. -/
  maxFieldBits : Nat
  /-- `MIC_FN`. -/
  micFn : MicFn
  /-- `RETX_DELAY`, opaque to the engine (log 8). -/
  retxDelay : Nat
  /-- `INACT_DELAY`, opaque to the engine (log 8). -/
  inactDelay : Nat
  /-- `MAX_ACK_REQ`, timer-driven resends before TX gives up. -/
  maxAckReq : Nat
deriving DecidableEq, Repr

/-- A rule's identity: `rule_id` and its width `ridw`; the whole of UNCOMP (R43). -/
structure RuleId where
  ruleId : Nat
  ridw : Nat
deriving DecidableEq, Repr

/-- A compression rule (R42); `fields` is read by the host only. DESIGN CHOICE (log 19): an entry at or
beyond N_FD is legal. -/
structure CompRule where
  rid : RuleId
  fields : List Nat
deriving DecidableEq, Repr

/-- A fragmentation rule (R41): `mode` 0 NO_ACK, 1 ACK_ALWAYS, 2 ACK_ON_ERROR; `dir` 1 UP, 2 DOWN,
3 BI; `n`, `ws`, `m`, `t` are N, WS, M and T. -/
structure FragRule where
  rid : RuleId
  mode : BitVec 2
  dir : BitVec 2
  n : Nat
  ws : Nat
  m : Nat
  t : Nat
deriving DecidableEq, Repr

/-- A field descriptor (R44): `mo` 0 IGNORE, 1 EQUAL, 2 MSB, 3 MATCHMAP; `cda` 0 NOT-SENT,
1 VALUE-SENT, 2 MAPPING-SENT, 3 LSB, 4 COMPUTE-LENGTH, 5 COMPUTE-CHECKSUM. -/
structure FieldDesc where
  fid : BitVec 16
  fl : Nat
  fp : Byte
  di : BitVec 2
  mo : BitVec 2
  x : Nat
  cda : BitVec 3
  tv : List Nat
deriving DecidableEq, Repr

/-- The RuleContext `CTX = (UNCOMP, COMP, FRAG, FD)` (R40). -/
structure Ctx where
  uncomp : Option RuleId
  comp : List CompRule
  frag : List FragRule
  fd : List FieldDesc
deriving DecidableEq, Repr

/-- An instance's parameters and RuleContext: fixed for its life (R8, R9). -/
structure Config where
  par : Params
  ctx : Ctx
deriving DecidableEq, Repr

/-- Free value (log 4): the MIC function of a configuration whose `MIC_FN` is not the default. -/
opaque Config.openMic : Nat → List Byte → Word

/-- Free value (log 6): what TX_K holds when the number of tiles does not fit its 32 bits; the
argument is the model's counter `State.freeCount`. -/
opaque Config.freeTxK : Nat → Word

/-- Free value (log 6): what TX_WL holds when the last window's index does not fit its 8 bits; the
argument is the model's counter `State.freeCount`. -/
opaque Config.freeTxWl : Nat → Byte

/-- The parameter values the vectors of spec/95_test_vectors.md section 1 use, with MTU 6 and
TX_DIR UP; the delays are opaque, here 0. DESIGN CHOICE, log 1. -/
def Params.vectors : Params where
  mtu := 6
  txDir := .up
  nRx := 2
  rxMaxSlots := 64
  rxTileBits := 2048
  txMaxBytes := 1024
  maxInBytes := 1024
  cbufBytes := 256
  maxFieldBits := 128
  micFn := .crc32
  retxDelay := 0
  inactDelay := 0
  maxAckReq := 3

/-- The context `CTX_C` of spec/95_test_vectors.md: the descriptors `FD_EX`, UNCOMP, COMP and FRAG
of R120. DESIGN CHOICE as the context of `State.reset`, log 1. `FD_EX` gives no `fid` and no `fp`;
DESIGN CHOICE, log 20: `fid` is the descriptor's index and `fp` is 1. -/
def Ctx.vectors : Ctx where
  uncomp := some ⟨0x00, 8⟩
  comp := [⟨⟨0x01, 8⟩, [0, 1, 2, 3, 4]⟩, ⟨⟨0x02, 8⟩, [0, 1, 2, 3, 4]⟩]
  frag := [{ rid := ⟨0x5, 4⟩, mode := 0, dir := 3, n := 1, ws := 1, m := 0, t := 0 }]
  fd :=
    [{ fid := 0, fl := 4, fp := 1, di := 3, mo := 1, x := 0, cda := 0, tv := [6] },
     { fid := 1, fl := 8, fp := 1, di := 3, mo := 0, x := 0, cda := 1, tv := [0] },
     { fid := 2, fl := 16, fp := 1, di := 1, mo := 2, x := 12, cda := 3, tv := [0x1630] },
     { fid := 3, fl := 8, fp := 1, di := 3, mo := 3, x := 3, cda := 2, tv := [0x11, 0x06, 0x3A] },
     { fid := 4, fl := 16, fp := 1, di := 3, mo := 0, x := 0, cda := 4, tv := [0] }]

/-- The configuration of `State.reset` (log 1). -/
def Config.vectors : Config := ⟨Params.vectors, Ctx.vectors⟩

end Sys2Proof
end

