-- ==== Sys2Proof/Syntax.lean ====
section
/-!
DEFINITION. The commands of the SFRE as the host presents them (spec/30_encoding.md R80) and as the
engine understands them: one constructor of `Instr` per row of spec/opcode_table.json (R85).
-/

namespace Sys2Proof

/-- A command on the command port: the triple `(W0, W1, DATA_IN)` of R80. -/
structure Command where
  w0 : Word
  w1 : Word
  data : List Byte
deriving DecidableEq, Repr

/-- A decoded command. `a` and `b` are the operands A and B, `imm` is W1, `data` is DATA_IN; a
constructor carries exactly the inputs R85 says the command uses. -/
inductive Instr where
  | nop
  | txOutput (a : Byte) (data : List Byte)
  | txAckInput (data : List Byte)
  | txTimerFire (imm : Word)
  | txAbort
  | txQuery
  | rxFragInput (data : List Byte)
  | rxTimerFire (a : Byte) (imm : Word)
  | rxAbort (a : Byte)
  | rxQuery (a : Byte)
  | cbLoad (data : List Byte)
  | cbClear
  | cbSeek (imm : Word)
  | cbWrite (a : Byte) (imm : Word)
  | cbRead (a : Byte)
  | cbUnload
  | cbAppend (data : List Byte)
  | cbTail
  | fvLoad (data : List Byte)
  | fvStore (a : Byte)
  | fdMatch (a b : Byte)
  | fdEncode (a b : Byte)
  | fdDecode (a b : Byte)
  | ridWrite (a b : Byte)
  | ridLookup (b : Byte)
deriving DecidableEq, Repr

/-- DATA_IN of a command; empty for one that takes none (R82, R85). -/
def Instr.dataIn : Instr → List Byte
  | .txOutput _ d | .txAckInput d | .rxFragInput d | .cbLoad d | .cbAppend d | .fvLoad d => d
  | .nop | .txTimerFire _ | .txAbort | .txQuery | .rxTimerFire _ _ | .rxAbort _ | .rxQuery _
  | .cbClear | .cbSeek _ | .cbWrite _ _ | .cbRead _ | .cbUnload | .cbTail | .fvStore _
  | .fdMatch _ _ | .fdEncode _ _ | .fdDecode _ _ | .ridWrite _ _ | .ridLookup _ => []

/-- IMM of a command; 0 for one that does not use it (R81, R85). -/
def Instr.immediate : Instr → Word
  | .txTimerFire g | .rxTimerFire _ g | .cbSeek g | .cbWrite _ g => g
  | .nop | .txOutput _ _ | .txAckInput _ | .txAbort | .txQuery | .rxFragInput _ | .rxAbort _
  | .rxQuery _ | .cbLoad _ | .cbClear | .cbRead _ | .cbUnload | .cbAppend _ | .cbTail | .fvLoad _
  | .fvStore _ | .fdMatch _ _ | .fdEncode _ _ | .fdDecode _ _ | .ridWrite _ _ | .ridLookup _ => 0

/-- Whether a command uses IMM (R85; I1 of spec/93_implementation_defined.md). -/
def Instr.usesImm : Instr → Bool
  | .txTimerFire _ | .rxTimerFire _ _ | .cbSeek _ | .cbWrite _ _ => true
  | .nop | .txOutput _ _ | .txAckInput _ | .txAbort | .txQuery | .rxFragInput _ | .rxAbort _
  | .rxQuery _ | .cbLoad _ | .cbClear | .cbRead _ | .cbUnload | .cbAppend _ | .cbTail | .fvLoad _
  | .fvStore _ | .fdMatch _ _ | .fdEncode _ _ | .fdDecode _ _ | .ridWrite _ _ | .ridLookup _ => false

/-- Operand A of a command; 0 for one that does not use it (R85, R96). -/
def Instr.operandA : Instr → Byte
  | .txOutput a _ | .rxTimerFire a _ | .rxAbort a | .rxQuery a | .cbWrite a _ | .cbRead a
  | .fvStore a | .fdMatch a _ | .fdEncode a _ | .fdDecode a _ | .ridWrite a _ => a
  | .nop | .txAckInput _ | .txTimerFire _ | .txAbort | .txQuery | .rxFragInput _ | .cbLoad _
  | .cbClear | .cbSeek _ | .cbUnload | .cbAppend _ | .cbTail | .fvLoad _ | .ridLookup _ => 0

/-- Operand B of a command; 0 for one that does not use it (R85, R96). -/
def Instr.operandB : Instr → Byte
  | .fdMatch _ b | .fdEncode _ b | .fdDecode _ b | .ridWrite _ b | .ridLookup b => b
  | .nop | .txOutput _ _ | .txAckInput _ | .txTimerFire _ | .txAbort | .txQuery | .rxFragInput _
  | .rxTimerFire _ _ | .rxAbort _ | .rxQuery _ | .cbLoad _ | .cbClear | .cbSeek _ | .cbWrite _ _
  | .cbRead _ | .cbUnload | .cbAppend _ | .cbTail | .fvLoad _ | .fvStore _ => 0

end Sys2Proof
end

