-- ==== Sys2Proof/WellFormed.lean ====
section
/-!
DEFINITION. What the spec requires of a command's operands. `wellFormed` is what the dispatch checks
let through (spec/30_encoding.md R82, R86); `operandsLegal` is the table of operand value sets R87,
which each command's own rule checks after dispatch.
-/

namespace Sys2Proof

/-- DATA_IN holds at most `MAX_IN_BYTES` bytes (R80, R82). Every other operand of `Instr` is of its
field's width by type. -/
def wellFormed (maxIn : Nat) (i : Instr) : Bool := decide (i.dataIn.length ≤ maxIn)

/-- The operand value sets of R87: widths, directions, rule kinds, kind masks and slot numbers. -/
def operandsLegal (p : Params) : Instr → Bool
  | .cbWrite a _ | .cbRead a => decide (a.toNat ≤ 32)
  | .fdMatch _ b | .fdEncode _ b | .fdDecode _ b => b == 1 || b == 2
  | .ridWrite _ b => decide (b.toNat ≤ 2)
  | .ridLookup b => decide (1 ≤ b.toNat ∧ b.toNat ≤ 7)
  | .rxTimerFire a _ | .rxAbort a | .rxQuery a => decide (a.toNat < p.nRx)
  | .nop | .txOutput _ _ | .txAckInput _ | .txTimerFire _ | .txAbort | .txQuery | .rxFragInput _
  | .cbLoad _ | .cbClear | .cbSeek _ | .cbUnload | .cbAppend _ | .cbTail | .fvLoad _
  | .fvStore _ => true

end Sys2Proof
end

