-- ==== Sys2Proof/Decode.lean ====
section
/-!
DEFINITION. Decoding a command word (spec/30_encoding.md R80, R81, R85, R86) and encoding a command.
Decoding is total: it answers the command, or the name of the dispatch check that failed first.
-/

namespace Sys2Proof

/-- The dispatch checks of R86, each by name. -/
inductive DecodeError where
  /-- Step 1: `W0[31:24] ≠ 0`. -/
  | reservedByte
  /-- Step 1: the opcode is not in R85. -/
  | unknownOpcode
  /-- Step 2: the command does not use A, and A ≠ 0. -/
  | unusedA
  /-- Step 2: the command does not use B, and B ≠ 0. -/
  | unusedB
  /-- Step 3: the command takes no DATA_IN, and DATA_IN is not empty. -/
  | dataRefused
  /-- Step 4: DATA_IN is longer than `MAX_IN_BYTES`. -/
  | dataTooLong
deriving DecidableEq, Repr

/-- One row of the opcode map R85: the opcode, the inputs the command uses, and the command made
from A, B, IMM and DATA_IN. -/
structure OpRow where
  opc : Byte
  usesA : Bool
  usesB : Bool
  takesData : Bool
  make : Byte → Byte → Word → List Byte → Instr

/-- The opcode map R85, in the order of its rows. -/
def opTable : List OpRow :=
  [⟨0x00, false, false, false, fun _ _ _ _ => .nop⟩,
   ⟨0x01, true, false, true, fun a _ _ d => .txOutput a d⟩,
   ⟨0x02, false, false, true, fun _ _ _ d => .txAckInput d⟩,
   ⟨0x03, false, false, false, fun _ _ g _ => .txTimerFire g⟩,
   ⟨0x04, false, false, false, fun _ _ _ _ => .txAbort⟩,
   ⟨0x05, false, false, false, fun _ _ _ _ => .txQuery⟩,
   ⟨0x08, false, false, true, fun _ _ _ d => .rxFragInput d⟩,
   ⟨0x09, true, false, false, fun a _ g _ => .rxTimerFire a g⟩,
   ⟨0x0A, true, false, false, fun a _ _ _ => .rxAbort a⟩,
   ⟨0x0B, true, false, false, fun a _ _ _ => .rxQuery a⟩,
   ⟨0x10, false, false, true, fun _ _ _ d => .cbLoad d⟩,
   ⟨0x11, false, false, false, fun _ _ _ _ => .cbClear⟩,
   ⟨0x12, false, false, false, fun _ _ p _ => .cbSeek p⟩,
   ⟨0x13, true, false, false, fun a _ v _ => .cbWrite a v⟩,
   ⟨0x14, true, false, false, fun a _ _ _ => .cbRead a⟩,
   ⟨0x15, false, false, false, fun _ _ _ _ => .cbUnload⟩,
   ⟨0x16, false, false, true, fun _ _ _ d => .cbAppend d⟩,
   ⟨0x17, false, false, false, fun _ _ _ _ => .cbTail⟩,
   ⟨0x20, false, false, true, fun _ _ _ d => .fvLoad d⟩,
   ⟨0x21, true, false, false, fun a _ _ _ => .fvStore a⟩,
   ⟨0x22, true, true, false, fun a b _ _ => .fdMatch a b⟩,
   ⟨0x23, true, true, false, fun a b _ _ => .fdEncode a b⟩,
   ⟨0x24, true, true, false, fun a b _ _ => .fdDecode a b⟩,
   ⟨0x25, true, true, false, fun a b _ _ => .ridWrite a b⟩,
   ⟨0x26, false, true, false, fun _ b _ _ => .ridLookup b⟩]

/-- `W0[7:0]`, the opcode (R80). -/
def fieldOpc (w0 : Word) : Byte := w0.extractLsb' 0 8
/-- `W0[15:8]`, operand A (R80). -/
def fieldA (w0 : Word) : Byte := w0.extractLsb' 8 8
/-- `W0[23:16]`, operand B (R80). -/
def fieldB (w0 : Word) : Byte := w0.extractLsb' 16 8
/-- `W0[31:24]`, the reserved byte (R80). -/
def fieldRsv (w0 : Word) : Byte := w0.extractLsb' 24 8

/-- The checks of R86 from step 2 on, for a command whose row is known. -/
def decodeRow (maxIn : Nat) (r : OpRow) (c : Command) : Except DecodeError Instr :=
  if r.usesA = false ∧ fieldA c.w0 ≠ 0 then .error .unusedA
  else if r.usesB = false ∧ fieldB c.w0 ≠ 0 then .error .unusedB
  else if r.takesData = false ∧ c.data ≠ [] then .error .dataRefused
  else if maxIn < c.data.length then .error .dataTooLong
  else .ok (r.make (fieldA c.w0) (fieldB c.w0) c.w1 c.data)

/-- Dispatch (R86): the command a triple stands for, or the first check it fails. `maxIn` is
`MAX_IN_BYTES`. -/
def decode (maxIn : Nat) (c : Command) : Except DecodeError Instr :=
  if fieldRsv c.w0 ≠ 0 then .error .reservedByte
  else match opTable.find? (fun r => r.opc == fieldOpc c.w0) with
    | none => .error .unknownOpcode
    | some r => decodeRow maxIn r c

/-- The opcode of a command (R85). -/
def opcodeOf : Instr → Byte
  | .nop => 0x00
  | .txOutput _ _ => 0x01
  | .txAckInput _ => 0x02
  | .txTimerFire _ => 0x03
  | .txAbort => 0x04
  | .txQuery => 0x05
  | .rxFragInput _ => 0x08
  | .rxTimerFire _ _ => 0x09
  | .rxAbort _ => 0x0A
  | .rxQuery _ => 0x0B
  | .cbLoad _ => 0x10
  | .cbClear => 0x11
  | .cbSeek _ => 0x12
  | .cbWrite _ _ => 0x13
  | .cbRead _ => 0x14
  | .cbUnload => 0x15
  | .cbAppend _ => 0x16
  | .cbTail => 0x17
  | .fvLoad _ => 0x20
  | .fvStore _ => 0x21
  | .fdMatch _ _ => 0x22
  | .fdEncode _ _ => 0x23
  | .fdDecode _ _ => 0x24
  | .ridWrite _ _ => 0x25
  | .ridLookup _ => 0x26

/-- `W0` from its fields (R80): RSV = 0, then B, A and the opcode. -/
def packW0 (opc a b : Byte) : Word := (0x00#8 ++ b ++ a ++ opc : BitVec (8 + 8 + 8 + 8))

/-- The triple of a command (R80, R85, R96): an operand it does not use is 0, DATA_IN it does not
take is empty, and W1 is 0 where IMM is ignored. -/
def encode (i : Instr) : Command where
  w0 := packW0 (opcodeOf i) i.operandA i.operandB
  w1 := i.immediate
  data := i.dataIn

/-- The triple whose words are the bits `w` of a table row of `nbits` bits, numbered as
spec/opcode_table.json numbers them: W0 is bits 31..0, W1 is bits 63..32 (0 for the table's rows of
32 bits), and DATA_IN is empty. DESIGN CHOICE, log 11. -/
def tableCommand (nbits w : Nat) : Command where
  w0 := BitVec.ofNat 32 (w % 2 ^ nbits)
  w1 := BitVec.ofNat 32 (w % 2 ^ nbits / 2 ^ 32)
  data := []

/-- What the decoder reads from a table row's bits. DATA_IN is empty, so `MAX_IN_BYTES` does not
matter. -/
def decodeTableWord (nbits w : Nat) : Option Instr :=
  match decode 0 (tableCommand nbits w) with
  | .ok i => some i
  | .error _ => none

end Sys2Proof
end

