-- ==== Sys2Proof/Machine/State.lean ====
section
/-!
DEFINITION. The state of the SFRE (spec/10_state.md R20 to R39), as plain data, what a command
answers (spec/30_encoding.md R83, R84, R94), the reasons a step can stop, and the state after reset
(spec/70_reset_and_hazards.md R310).
-/

namespace Sys2Proof.Machine

/-- TX_STATE (R28): INIT, WAIT, END, ABORTED. -/
inductive TxPhase where
  | init
  | wait
  | ended
  | aborted
deriving DecidableEq, Repr

/-- RX_STATE (R37): FREE, RECV, DONE; the fourth code is never held (I14). -/
inductive RxPhase where
  | free
  | recv
  | done
deriving DecidableEq, Repr

/-- A connection named by a timer event (R94): TX, or RX slot `i`. -/
inductive Conn where
  | tx
  | rx (i : Nat)
deriving DecidableEq, Repr

/-- The port events, exactly the three of R94 (R95). -/
inductive Event where
  /-- A message for the SendPort. -/
  | send (bytes : List Byte)
  /-- A request to the TimerPort to fire `conn` after `delay`, tagged with generation `gen`. -/
  | sched (conn : Conn) (delay : Nat) (gen : Word)
  /-- A request to cancel `conn`'s pending timer. -/
  | cancel (conn : Conn)
deriving DecidableEq, Repr

/-- The status codes of R84 by name; `Status.code` gives the number. -/
inductive Status where
  | ok
  | noFragmentation
  | success
  | ongoing
  | completed
  | stayAlive
  | ackHandled
  | ignored
  | micIncorrect
  | abandoned
  | txMicFailed
  | txTimeout
  | rxResourceFail
  | resent
  | errReserved
  | errContract
  | errLookup
  | errResource
  | errBusy
  | errConfig
  | errRange
  | errTooLarge
  | errNoMatch
deriving DecidableEq, Repr

/-- A command's result `(STATUS, R0, R1, DATA_OUT, EVENTS)` (R83). -/
structure CmdResult where
  status : Status
  r0 : Word
  r1 : Word
  dataOut : List Byte
  events : List Event
deriving DecidableEq, Repr

/-- What reaches the engine from outside, one at a time: a command (R80) or the reset input, which
can occur only between two commands (R310). -/
inductive PortInput where
  | command (c : Command)
  | reset
deriving DecidableEq, Repr

/-- The codec datapath (R24 to R27). -/
structure Codec where
  /-- CBUF (R24): bytes by byte address, strictly rising addresses, no zero byte listed; position
  `p` is bit `7 - p mod 8` of byte `p div 8`. -/
  cbuf : List Host.Cell
  /-- CB_LEN (R25). -/
  cbLen : Word
  /-- POS (R26). -/
  pos : Word
  /-- FV (R27), below `2 ^ MAX_FIELD_BITS` by an invariant. -/
  fv : Nat
deriving DecidableEq, Repr

/-- The TX connection registers (R28 to R36). TX_LEN is the length of `msg` (`txLen`). -/
structure TxConn where
  /-- TX_STATE (R28); the TX lock is held exactly when it is WAIT (R29). -/
  state : TxPhase
  /-- TX_RULE (R30). -/
  rule : Byte
  /-- TX_DTAG (R31). -/
  dtag : Byte
  /-- TX_MSG (R33). -/
  msg : List Byte
  /-- TX_K (R34). -/
  k : Word
  /-- TX_WL (R34). -/
  wl : Byte
  /-- TX_WIN (R34). -/
  win : Byte
  /-- TX_ATTEMPTS (R35). -/
  attempts : Byte
  /-- TX_MIC_ROUNDS (R35), one bit. -/
  micRounds : Bool
  /-- TX_ARMED (R36), one bit. -/
  armed : Bool
  /-- TX_GEN (R36). -/
  gen : Word
deriving DecidableEq, Repr

/-- One RX connection slot (R37). -/
structure RxSlot where
  /-- RX_STATE. -/
  state : RxPhase
  /-- RX_RULE. -/
  rule : Byte
  /-- RX_DTAG. -/
  dtag : Byte
  /-- RX_RCVD, by position; an unlisted position reads 0. -/
  rcvd : List (Nat × Bool)
  /-- RX_TILE, by position; an unlisted position reads empty. -/
  tile : List (Nat × Bits)
  /-- RX_ALL1, one bit. -/
  all1 : Bool
  /-- RX_WL. -/
  wl : Byte
  /-- RX_MIC. -/
  mic : Word
  /-- RX_NAPPEND, 17 bits. -/
  nAppend : BitVec 17
  /-- RX_MIC_ROUNDS, one bit. -/
  micRounds : Bool
  /-- RX_ARMED, one bit. -/
  armed : Bool
  /-- RX_GEN. -/
  gen : Word
deriving DecidableEq, Repr

/-- The whole state. `cod`, `tx`, `dtagNext` and `rx` are the four parts of R20. `cfg`, `port`,
`result` and `freeCount` are the model's own (log 1, 2, 3, 6). -/
structure State where
  /-- Parameters and RuleContext (R8, R9, R40): read-only, written by no command (log 1). -/
  cfg : Config
  /-- The codec datapath. -/
  cod : Codec
  /-- The TX connection. -/
  tx : TxConn
  /-- DTAG_NEXT (R32). -/
  dtagNext : Byte
  /-- The `N_RX` RX slots, slot 0 first (R37). -/
  rx : List RxSlot
  /-- Inputs still to be delivered, the next one first (log 2). -/
  port : List PortInput
  /-- The outputs of the last command; no command reads them (R83, log 3). -/
  result : Option CmdResult
  /-- How many free values have been drawn (log 6). -/
  freeCount : Nat
deriving DecidableEq, Repr

/-- Why the machine stops with a fault. -/
inductive Fault where
  /-- Raised by TX_ACK_INPUT and TX_TIMER_FIRE when TX_STATE is WAIT and FRAG has no rule at
  TX_RULE. The spec describes no such state and no run reaches one (log 7). Safe. -/
  | txRuleMissing
deriving DecidableEq, Repr

/-- Why the machine refuses to go on. -/
inductive Refusal where
  /-- Raised by `exec` for a command with no meaning yet; no arm does so now. Safe. -/
  | notModelled (mnemonic : String)
  /-- Raised by `step` when the RuleContext breaks CTX_OK (R45: "A model refuses it"; I6) or a
  field of it is wider than its register (log 5). Safe. -/
  | contextNotOk
  /-- Raised by `step` when a parameter is outside the constraint of R8 (log 5). Safe. -/
  | paramsOutOfRange
deriving DecidableEq, Repr

/-- A command's answer: the next state, a fault or a refusal. -/
abbrev Answer := Host.Outcome State Fault Refusal

/-- The codec datapath after reset (R24 to R27). -/
def Codec.reset : Codec where
  cbuf := []
  cbLen := 0
  pos := 0
  fv := 0

/-- The TX connection after reset (R28 to R36). -/
def TxConn.reset : TxConn where
  state := .init
  rule := 0
  dtag := 0
  msg := []
  k := 0
  wl := 0
  win := 0
  attempts := 0
  micRounds := false
  armed := false
  gen := 0

/-- An RX slot after reset (R37). -/
def RxSlot.reset : RxSlot where
  state := .free
  rule := 0
  dtag := 0
  rcvd := []
  tile := []
  all1 := false
  wl := 0
  mic := 0
  nAppend := 0
  micRounds := false
  armed := false
  gen := 0

/-- The state after reset of an instance with configuration `cfg` (R310), with nothing on the
command port and no result yet. -/
def State.resetWith (cfg : Config) : State where
  cfg := cfg
  cod := Codec.reset
  tx := TxConn.reset
  dtagNext := 0
  rx := List.replicate cfg.par.nRx RxSlot.reset
  port := []
  result := none
  freeCount := 0

/-- The state right after reset, for the configuration the vectors use (log 1). -/
def State.reset : State := State.resetWith Config.vectors

end Sys2Proof.Machine
end

