-- ==== Sys2Proof/Machine/Flags.lean ====
section
/-!
DEFINITION. The SFRE has no flag register (spec/10_state.md R23): a command's outcome is its STATUS.
Here are the status codes (spec/30_encoding.md R84), the codes of the state registers that results
show, and the two ways a command ends: with a result, or with an error that changes nothing
(spec/60_exceptions.md R280, R281).
-/

namespace Sys2Proof.Machine

/-- The number of a status (R84). -/
def Status.code : Status → Byte
  | .ok => 0x00
  | .noFragmentation => 0x01
  | .success => 0x02
  | .ongoing => 0x03
  | .completed => 0x04
  | .stayAlive => 0x05
  | .ackHandled => 0x06
  | .ignored => 0x07
  | .micIncorrect => 0x08
  | .abandoned => 0x09
  | .txMicFailed => 0x0A
  | .txTimeout => 0x0B
  | .rxResourceFail => 0x0C
  | .resent => 0x0D
  | .errReserved => 0x80
  | .errContract => 0x81
  | .errLookup => 0x82
  | .errResource => 0x83
  | .errBusy => 0x84
  | .errConfig => 0x85
  | .errRange => 0x86
  | .errTooLarge => 0x87
  | .errNoMatch => 0x88

/-- An error is a status of 0x80 or above (R280). -/
abbrev Status.isError (st : Status) : Prop := 0x80 ≤ st.code.toNat

/-- TX_STATE's code (R28). -/
def TxPhase.code : TxPhase → Word
  | .init => 0
  | .wait => 1
  | .ended => 2
  | .aborted => 3

/-- RX_STATE's code (R37). -/
def RxPhase.code : RxPhase → Word
  | .free => 0
  | .recv => 1
  | .done => 2

/-- A result with only a status: R0 = R1 = 0, no DATA_OUT, no events (R83). -/
def CmdResult.plain (st : Status) : CmdResult where
  status := st
  r0 := 0
  r1 := 0
  dataOut := []
  events := []

/-- The state with a command's outputs on the result port (R83, log 3). -/
def withResult (s : State) (r : CmdResult) : State := { s with result := some r }

/-- `return S(r0, r1, data)` (R12): the command ends in state `s` with result `r`. -/
def reply (s : State) (r : CmdResult) : Answer := .next (withResult s r)

/-- `raise ERR_X` (R12, R281), the one shared operation of every error: `s` is the state before the
command, and nothing of it changes. The SFRE has no other exception (R286). -/
def raise (s : State) (st : Status) : Answer := reply s (CmdResult.plain st)

/-- The status of a failed dispatch check (R86). -/
def decodeStatus : DecodeError → Status
  | .reservedByte => .errReserved
  | .unknownOpcode => .errReserved
  | .unusedA => .errReserved
  | .unusedB => .errReserved
  | .dataRefused => .errContract
  | .dataTooLong => .errResource

end Sys2Proof.Machine
end

