-- ==== Sys2Proof/Machine/Operands.lean ====
section
/-!
DEFINITION. Bit strings and values (spec/00_scope.md R10 to R12, spec/20_memory.md R60, R61): how
values become bits, bits become bytes, and back; index widths; the default MIC (spec/30_encoding.md
R98).
-/

namespace Sys2Proof.Machine

/-- `bits(v, n)` (R11): the bit string of length `n` that holds `v mod 2^n`, most significant bit
first. -/
def bitsOf : Nat → Nat → Bits
  | 0, _ => []
  | n + 1, v => v.testBit n :: bitsOf n v

/-- `val(s)` (R11): the unsigned value of a bit string, first bit most significant; 0 if empty. -/
def valOf : Bits → Nat
  | [] => 0
  | b :: s => b.toNat * 2 ^ s.length + valOf s

/-- `ceil(a/b)` for `b ≥ 1` (R11). -/
def ceilDiv (a b : Nat) : Nat := (a + b - 1) / b

/-- `clog2(n)` for `n ≥ 1` (R11): the least `b` with `2^b ≥ n`. -/
def clog2 (n : Nat) : Nat := if n ≤ 1 then 0 else Nat.log2 (n - 1) + 1

/-- The byte of the first 8 bits of `s`, the first bit most significant, missing bits 0 (R12,
R60). -/
def byteOf (s : Bits) : Byte :=
  BitVec.ofNat 8 (valOf (s.take 8 ++ List.replicate (8 - s.length) false))

/-- The first `k` bytes of `s`, padded with zero bits at its end. -/
def packBytes : Nat → Bits → List Byte
  | 0, _ => []
  | k + 1, s => byteOf s :: packBytes k (s.drop 8)

/-- `pack(s)` (R12): `s` padded with zero bits to whole bytes, read as bytes, each MSB first. -/
def pack (s : Bits) : List Byte := packBytes (ceilDiv s.length 8) s

/-- `unpack(d)` (R12): the bit string of a byte string, each byte MSB first. -/
def unpack (d : List Byte) : Bits := d.flatMap (fun b => bitsOf 8 b.toNat)

/-- The value of the `n` bits of `s` from position `p` (R10). -/
def valAt (s : Bits) (p n : Nat) : Nat := valOf ((s.drop p).take n)

/-- `zeros(n)`. -/
def zeros (n : Nat) : Bits := List.replicate n false

/-- One step of the reflected CRC-32 register: shift right, fold in 0xEDB88320 on a carry (R98). -/
def crcShift : Nat → Word → Word
  | 0, c => c
  | n + 1, c => crcShift n (if c.getLsbD 0 then (c >>> 1) ^^^ 0xEDB88320#32 else c >>> 1)

/-- The CRC-32 register after a byte string (R98). -/
def crcBytes : List Byte → Word → Word
  | [], c => c
  | b :: d, c => crcBytes d (crcShift 8 (c ^^^ b.setWidth 32))

/-- The default MIC function, CRC-32 (R98): initial register and final XOR 0xFFFFFFFF. -/
def crc32 (d : List Byte) : Word := crcBytes d 0xFFFFFFFF#32 ^^^ 0xFFFFFFFF#32

/-- `MIC_FN` of a configuration (R8, R98; log 4). -/
def micOf (f : MicFn) (d : List Byte) : Word :=
  match f with
  | .crc32 => crc32 d
  | .open n => Config.openMic n d

end Sys2Proof.Machine
end

