-- ==== Sys2Proof/Machine/Rules.lean ====
section
/-!
DEFINITION. The constraints on parameters, rules and descriptors (spec/00_scope.md R8;
spec/10_state.md R41, R44, R45, R47; spec/60_exceptions.md R284) and what a rule or descriptor says.
-/

namespace Sys2Proof.Machine

/-- The constraints of R8 on the parameters. -/
abbrev paramsOk (p : Params) : Prop :=
  (1 ≤ p.mtu ∧ p.mtu ≤ 65535) ∧ (1 ≤ p.nRx ∧ p.nRx ≤ 256) ∧
  (1 ≤ p.rxMaxSlots ∧ p.rxMaxSlots ≤ 65536) ∧ 1 ≤ p.rxTileBits ∧ 1 ≤ p.txMaxBytes ∧
  1 ≤ p.maxInBytes ∧ (1 ≤ p.cbufBytes ∧ p.cbufBytes ≤ 2 ^ 28) ∧
  (p.maxFieldBits % 8 = 0 ∧ 8 ≤ p.maxFieldBits ∧ p.maxFieldBits ≤ 2040) ∧ p.maxAckReq ≤ 255

/-- Every rule's identity, UNCOMP first, then COMP, then FRAG, in declaration order. -/
def ruleIds (c : Ctx) : List RuleId :=
  c.uncomp.toList ++ c.comp.map (·.rid) ++ c.frag.map (·.rid)

/-- How many target values a descriptor has (R44): `x` under MATCHMAP, else one. -/
def targetCount (f : FieldDesc) : Nat := if f.mo = 3 then f.x else 1

/-- CTX_OK (R45): (a) each rule ID fits its width, (b) no two rules share (rule ID, width),
(c) each descriptor has the right number of target values and none has stray bits (I6), (e) each
rule-ID width is at most `MAX_RIDW`. (d) is about declared layers, which the layout of R40 to R44
does not hold (log 5). -/
abbrev ctxInvariants (c : Ctx) : Prop :=
  (∀ r ∈ ruleIds c, r.ruleId < 2 ^ r.ridw ∧ r.ridw ≤ maxRidW) ∧ (ruleIds c).Nodup ∧
  (∀ f ∈ c.fd, f.tv.length = targetCount f ∧ ∀ v ∈ f.tv, v < 2 ^ f.fl)

/-- The sizes of R41, R42 and R44: each list holds at most 256 entries and each number fits its
register. DESIGN CHOICE (log 19): a compression rule's `fields` are not bounded by N_FD, since R45 lists
no check of them and no command reads them. -/
abbrev ctxSizes (c : Ctx) : Prop :=
  c.comp.length ≤ 256 ∧ c.frag.length ≤ 256 ∧ c.fd.length ≤ 256 ∧
  (∀ r ∈ c.frag, r.n < 2 ^ 4 ∧ r.ws < 2 ^ 8 ∧ r.m < 2 ^ 4 ∧ r.t < 2 ^ 4) ∧
  (∀ f ∈ c.fd, f.fl < 2 ^ 16 ∧ f.x < 2 ^ 16)

/-- The premise a model refuses to run without (R45, I6). -/
abbrev ctxOk (c : Ctx) : Prop := ctxInvariants c ∧ ctxSizes c

/-- The constraints of R41, checked at use (R284). -/
abbrev fragRuleOk (r : FragRule) : Prop :=
  r.rid.ridw ≤ maxRidW ∧ r.rid.ruleId < 2 ^ r.rid.ridw ∧ r.mode ≠ 3 ∧ r.dir ≠ 0 ∧
  (1 ≤ r.n ∧ r.n ≤ maxFcnW) ∧ (1 ≤ r.ws ∧ r.ws ≤ 2 ^ r.n - 1) ∧ r.m ≤ maxWW ∧ r.t ≤ maxDtagW ∧
  (r.mode ≠ 0 → 1 ≤ r.m)

/-- The constraints of R44, checked at use (R284). -/
abbrev fieldDescOk (p : Params) (f : FieldDesc) : Prop :=
  (1 ≤ f.fl ∧ f.fl ≤ p.maxFieldBits) ∧ f.di ≠ 0 ∧ f.cda ≤ 5 ∧ (f.mo = 2 → f.x ≤ f.fl) ∧
  (f.mo = 3 → 1 ≤ f.x) ∧ f.tv.length = targetCount f ∧ (∀ v ∈ f.tv, v < 2 ^ f.fl) ∧
  (f.cda = 2 → f.mo = 3) ∧ (f.cda = 3 → f.mo = 2)

/-- A direction's code (R8, R87). -/
def dirCode : Direction → Nat
  | .up => 1
  | .down => 2

/-- RX_DIR, the direction this instance does not send in (R47). -/
def otherDir : Direction → Direction
  | .up => .down
  | .down => .up

/-- A rule serves a direction when its `dir` is that direction or BI (R47). -/
abbrev serves (r : FragRule) (d : Direction) : Prop :=
  r.dir = 3 ∨ r.dir.toNat = dirCode d

/-- `r.mode = NO_ACK` (R41). -/
abbrev isNoAck (r : FragRule) : Prop := r.mode = 0
/-- `r.mode = ACK_ALWAYS` (R41). -/
abbrev isAckAlways (r : FragRule) : Prop := r.mode = 1
/-- NO_ACK with `M = 0`: tiles carry no position (R211). -/
abbrev noAck0 (r : FragRule) : Prop := r.mode = 0 ∧ r.m = 0

/-- The header width `H = ridw + T + M + N` (R41). -/
def hdrBits (r : FragRule) : Nat := r.rid.ridw + r.t + r.m + r.n

/-- The header that opens every fragment (R89, R90): rule ID, DTAG, W, FCN. -/
def fragHeader (r : FragRule) (dtag w fcn : Nat) : Bits :=
  bitsOf r.rid.ridw r.rid.ruleId ++ bitsOf r.t dtag ++ bitsOf r.m w ++ bitsOf r.n fcn

/-- TX_OUTPUT's checks on a rule against the MTU (R179, D50): at least one tile bit, and the All-1
fits. -/
abbrev mtuFits (mtu : Nat) (r : FragRule) : Prop :=
  hdrBits r + 1 ≤ 8 * mtu ∧ hdrBits r + micW ≤ 8 * mtu

/-- The tile size `Tb = 8*MTU - H` (R171). -/
def tileBits (mtu : Nat) (r : FragRule) : Nat := 8 * mtu - hdrBits r

/-- The number of tiles `k = ceil(8L / Tb)` of a message of `len` bytes (R171). -/
def tileCount (mtu : Nat) (r : FragRule) (len : Nat) : Nat := ceilDiv (8 * len) (tileBits mtu r)

end Sys2Proof.Machine
end

