-- ==== Sys2Proof/Machine/Ops.lean ====
section
/-!
DEFINITION. The named operations over the stores and registers: sparse stores in canonical form,
CBUF by bit (spec/40_codec.md R121, R122), timers (spec/43_control.md R262, R263), RX slots and their
release (spec/10_state.md R38), and the next input of the command port (spec/30_encoding.md R80,
spec/70_reset_and_hazards.md R310). Every operation is total.
-/

namespace Sys2Proof.Machine

/-! ### Sparse stores -/

/-- What a store holds at `a`; `d` where nothing is listed. -/
def Store.read {β : Type} (d : β) : List (Nat × β) → Nat → β
  | [], _ => d
  | e :: m, a => if e.1 = a then e.2 else Store.read d m a

/-- The store with `v` at `a`, in canonical form: addresses strictly rising, `d` never listed. -/
def Store.write {β : Type} [DecidableEq β] (d : β) : List (Nat × β) → Nat → β → List (Nat × β)
  | [], a, v => if v = d then [] else [(a, v)]
  | e :: m, a, v =>
    if a < e.1 then (if v = d then e :: m else (a, v) :: e :: m)
    else if a = e.1 then (if v = d then m else (a, v) :: m)
    else e :: Store.write d m a v

/-- The canonical form of a store. -/
abbrev Store.Wf {β : Type} (d : β) (m : List (Nat × β)) : Prop :=
  m.Pairwise (fun x y => x.1 < y.1) ∧ ∀ e ∈ m, e.2 ≠ d

/-! ### CBUF -/

/-- What an unlisted byte of CBUF reads as: the reset contents, every bit 0 (R24). -/
def unlistedByte : Byte := 0

/-- CBUF's canonical form. -/
abbrev Memory.wf (m : List Host.Cell) : Prop := Store.Wf unlistedByte m

/-- The byte of CBUF at a byte address. -/
def Memory.readByte (m : List Host.Cell) (a : Nat) : Byte := Store.read unlistedByte m a

/-- CBUF with `v` at a byte address. -/
def Memory.writeByte (m : List Host.Cell) (a : Nat) (v : Byte) : List Host.Cell :=
  Store.write unlistedByte m a v

/-- A byte with bit `i` (0 least significant) set to `v`. -/
def setBit (b : Byte) (i : Nat) (v : Bool) : Byte :=
  if v then b ||| (1#8 <<< i) else b &&& ~~~(1#8 <<< i)

/-- The bit at position `p` of CBUF: bit `7 - p mod 8` of byte `p div 8` (R24, R60). -/
def Memory.bit (m : List Host.Cell) (p : Nat) : Bool :=
  (Memory.readByte m (p / 8)).getLsbD (7 - p % 8)

/-- CBUF with the bit at position `p` set to `v`. -/
def Memory.setBitAt (m : List Host.Cell) (p : Nat) (v : Bool) : List Host.Cell :=
  Memory.writeByte m (p / 8) (setBit (Memory.readByte m (p / 8)) (7 - p % 8) v)

/-- The `n` bits of CBUF from position `p`, first bit first; `BitRead` (R12) is their value. -/
def Memory.bitRead (m : List Host.Cell) : Nat → Nat → Bits
  | _, 0 => []
  | p, n + 1 => Memory.bit m p :: Memory.bitRead m (p + 1) n

/-- `BitWrite` (R12): CBUF with the bit string `s` at positions `p ..`. -/
def Memory.bitWrite : List Host.Cell → Nat → Bits → List Host.Cell
  | m, _, [] => m
  | m, p, b :: s => Memory.bitWrite (Memory.setBitAt m p b) (p + 1) s

/-- CBUF holding the bytes `d` from byte address `a` on and 0 elsewhere (R126). -/
def Memory.ofBytes : Nat → List Byte → List Host.Cell
  | _, [] => []
  | a, b :: d => if b = unlistedByte then Memory.ofBytes (a + 1) d
                 else (a, b) :: Memory.ofBytes (a + 1) d

/-- The capacity of CBUF in bits, `8*CBUF_BYTES` (R24). -/
def cbufBits (s : State) : Nat := 8 * s.cfg.par.cbufBytes

/-- `WriteAtPos(s)` (R121), for a bit string that fits. -/
def writeAtPos (s : State) (bs : Bits) : State :=
  let pos' := s.cod.pos.toNat + bs.length
  { s with cod := { s.cod with
      cbuf := Memory.bitWrite s.cod.cbuf s.cod.pos.toNat bs
      pos := BitVec.ofNat 32 pos'
      cbLen := BitVec.ofNat 32 (max s.cod.cbLen.toNat pos') } }

/-- The `n` bits of CBUF from POS (R122). -/
def bitsAtPos (s : State) (n : Nat) : Bits := Memory.bitRead s.cod.cbuf s.cod.pos.toNat n

/-- POS moved on by `n` bits (R122). -/
def advancePos (s : State) (n : Nat) : State :=
  { s with cod := { s.cod with pos := BitVec.ofNat 32 (s.cod.pos.toNat + n) } }

/-- The state with FV set (R27). -/
def setFv (s : State) (v : Nat) : State := { s with cod := { s.cod with fv := v } }

/-- `n` bits may be written at POS (R125). -/
abbrev fitsWrite (s : State) (n : Nat) : Prop := s.cod.pos.toNat + n ≤ cbufBits s

/-- `n` bits may be read at POS (R125). -/
abbrev fitsRead (s : State) (n : Nat) : Prop := s.cod.pos.toNat + n ≤ s.cod.cbLen.toNat

/-! ### Timers -/

/-- The events of `Cancel(c)` (R263). -/
def cancelEvents (c : Conn) (armed : Bool) : List Event :=
  if armed then [.cancel c] else []

/-- The events of `Arm(c, d)` (R262), from the ARMED and GEN before it. -/
def armEvents (c : Conn) (delay : Nat) (armed : Bool) (gen : Word) : List Event :=
  cancelEvents c armed ++ [.sched c delay (gen + 1)]

/-- `Arm(TX, RETX_DELAY)` on the registers (R262). -/
def armTx (s : State) : State :=
  { s with tx := { s.tx with armed := true, gen := s.tx.gen + 1 } }

/-- `Arm(TX, RETX_DELAY)`'s events (R262). -/
def armTxEvents (s : State) : List Event :=
  armEvents .tx s.cfg.par.retxDelay s.tx.armed s.tx.gen

/-- `Cancel(TX)` and then `TX_STATE <- st` (R263). -/
def leaveTx (s : State) (st : TxPhase) : State :=
  { s with tx := { s.tx with armed := false, state := st } }

/-! ### RX slots -/

/-- RX slot `i` (R37). -/
def rxSlot (s : State) (i : Nat) : RxSlot := s.rx.getD i RxSlot.reset

/-- The state with RX slot `i` replaced. -/
def setRx (s : State) (i : Nat) (x : RxSlot) : State := { s with rx := s.rx.set i x }

/-- `Arm(RX i, INACT_DELAY)` on a slot's registers (R262). -/
def RxSlot.arm (x : RxSlot) : RxSlot := { x with armed := true, gen := x.gen + 1 }

/-- `Arm(RX i, INACT_DELAY)`'s events, from the slot before it (R262). -/
def armRxEvents (s : State) (i : Nat) (x : RxSlot) : List Event :=
  armEvents (.rx i) s.cfg.par.inactDelay x.armed x.gen

/-- Release of a slot (R38): every field at its reset value but RX_GEN, which is kept. -/
def RxSlot.released (x : RxSlot) : RxSlot := { RxSlot.reset with gen := x.gen }

/-- The state with slot `i` released (R38); its events are `cancelEvents (.rx i)`. -/
def releaseRx (s : State) (i : Nat) : State := setRx s i (rxSlot s i).released

/-- A slot number as a result word. -/
def slotWord (i : Nat) : Word := BitVec.ofNat 32 i

/-! ### Inputs -/

/-- The TX message's length TX_LEN (R33). -/
def txLen (s : State) : Nat := s.tx.msg.length

/-- The state with the port holding `rest`. -/
def withPort (s : State) (rest : List PortInput) : State := { s with port := rest }

/-- The reset input (R310): every piece of state at its reset value, no event, the configuration
kept. The inputs still to come and the counter of free values stay (log 12). -/
def resetInput (s : State) (rest : List PortInput) : State :=
  { State.resetWith s.cfg with port := rest, freeCount := s.freeCount }

end Sys2Proof.Machine
end

