-- ==== Sys2Proof/Machine/Codec.lean ====
section
/-!
DEFINITION. The BitBuffer commands (spec/40_codec.md R126 to R133).
-/

namespace Sys2Proof.Machine

/-- CB_LOAD (R126). -/
def execCbLoad (d : List Byte) (s : State) : Answer :=
  if s.cfg.par.cbufBytes < d.length then raise s .errRange
  else reply { s with cod := { s.cod with
      cbuf := Memory.ofBytes 0 d
      cbLen := BitVec.ofNat 32 (8 * d.length)
      pos := 0 } } (CmdResult.plain .ok)

/-- CB_CLEAR (R127). -/
def execCbClear (s : State) : Answer :=
  reply { s with cod := { s.cod with cbuf := [], cbLen := 0, pos := 0 } } (CmdResult.plain .ok)

/-- CB_SEEK (R128). -/
def execCbSeek (p : Word) (s : State) : Answer :=
  if s.cod.cbLen.toNat < p.toNat then raise s .errRange
  else reply { s with cod := { s.cod with pos := p } } (CmdResult.plain .ok)

/-- CB_WRITE (R129): the low A bits of IMM, at POS. -/
def execCbWrite (a : Byte) (v : Word) (s : State) : Answer :=
  if 32 < a.toNat then raise s .errRange
  else if ¬ fitsWrite s a.toNat then raise s .errRange
  else reply (writeAtPos s (bitsOf a.toNat v.toNat)) (CmdResult.plain .ok)

/-- CB_READ (R130): A bits from POS, zero-extended into R0. -/
def execCbRead (a : Byte) (s : State) : Answer :=
  if 32 < a.toNat then raise s .errRange
  else if ¬ fitsRead s a.toNat then raise s .errRange
  else reply (advancePos s a.toNat)
    { CmdResult.plain .ok with r0 := BitVec.ofNat 32 (valOf (bitsAtPos s a.toNat)) }

/-- CB_UNLOAD (R131): the whole valid content, nothing changed. -/
def execCbUnload (s : State) : Answer :=
  reply s { CmdResult.plain .ok with
    r0 := s.cod.cbLen
    dataOut := pack (Memory.bitRead s.cod.cbuf 0 s.cod.cbLen.toNat) }

/-- CB_APPEND (R132): the bits of DATA_IN at POS. -/
def execCbAppend (d : List Byte) (s : State) : Answer :=
  if ¬ fitsWrite s (8 * d.length) then raise s .errRange
  else reply (writeAtPos s (unpack d)) (CmdResult.plain .ok)

/-- CB_TAIL (R133): the bits from POS to CB_LEN, nothing changed. -/
def execCbTail (s : State) : Answer :=
  reply s { CmdResult.plain .ok with
    r0 := s.cod.cbLen - s.cod.pos
    dataOut := pack (bitsAtPos s (s.cod.cbLen.toNat - s.cod.pos.toNat)) }

end Sys2Proof.Machine
end

