-- ==== Sys2Proof/Machine/Control.lean ====
section
/-!
DEFINITION. The control family: NOP (spec/43_control.md R260).
-/

namespace Sys2Proof.Machine

/-- NOP (R260): `return OK`. -/
def execNop (s : State) : Answer := reply s (CmdResult.plain .ok)

end Sys2Proof.Machine
end

