-- ==== Sys2Proof/Machine/Field.lean ====
section
/-!
DEFINITION. The FieldCodec commands: field value, descriptors, rule IDs (spec/40_codec.md R123, R124,
R134 to R140).
-/

namespace Sys2Proof.Machine

/-! ### Field value -/

/-- FV_LOAD (R134): FV becomes the big-endian value of DATA_IN. -/
def execFvLoad (d : List Byte) (s : State) : Answer :=
  if s.cfg.par.maxFieldBits < 8 * d.length then raise s .errRange
  else reply (setFv s (valOf (unpack d))) (CmdResult.plain .ok)

/-- FV_STORE (R135): the low A bytes of FV, big-endian; nothing changed. -/
def execFvStore (a : Byte) (s : State) : Answer :=
  if s.cfg.par.maxFieldBits < 8 * a.toNat then raise s .errRange
  else reply s { CmdResult.plain .ok with
    r0 := BitVec.ofNat 32 a.toNat
    dataOut := pack (bitsOf (8 * a.toNat) s.cod.fv) }

/-! ### Field descriptors -/

/-- The descriptor pre-check (R123), in its order: direction, index, constraints. -/
def fdCheck (s : State) (a b : Byte) : Except Status FieldDesc :=
  if b ≠ 1 ∧ b ≠ 2 then .error .errReserved
  else match s.cfg.ctx.fd[a.toNat]? with
    | none => .error .errLookup
    | some f => if fieldDescOk s.cfg.par f then .ok f else .error .errConfig

/-- A descriptor applies when its direction is BI or equals B (R123). -/
abbrev applicable (f : FieldDesc) (b : Byte) : Prop := f.di = 3 ∨ f.di.toNat = b.toNat

/-- `f.tv[0]`. -/
def target0 (f : FieldDesc) : Nat := f.tv.headD 0

/-- The least index of a value in a descriptor's list of target values (R136, R137). -/
def targetIndex (f : FieldDesc) (v : Nat) : Option Nat := f.tv.findIdx? (fun t => t == v)

/-- The matching operator (R136): whether `v` matches, and the index a MATCHMAP match fixes. -/
def matchField (f : FieldDesc) (v : Nat) : Bool × Nat :=
  if f.mo = 0 then (true, 0)
  else if f.mo = 1 then (v == target0 f, 0)
  else if f.mo = 2 then (v >>> (f.fl - f.x) == target0 f >>> (f.fl - f.x), 0)
  else match targetIndex f v with
    | some n => (true, n)
    | none => (false, 0)

/-- The residue FD_ENCODE writes for the value `v` (R137). -/
def residueOf (f : FieldDesc) (v : Nat) : Except Status Bits :=
  if f.cda = 1 then .ok (bitsOf f.fl v)
  else if f.cda = 2 then match targetIndex f v with
    | none => .error .errNoMatch
    | some n => .ok (bitsOf (clog2 f.x) n)
  else if f.cda = 3 then .ok (bitsOf (f.fl - f.x) v)
  else .ok []

/-- The number of bits FD_DECODE reads (R138): VALUE-SENT, MAPPING-SENT, LSB; 0 for the rest. -/
def residueWidth (f : FieldDesc) : Nat :=
  if f.cda = 1 then f.fl
  else if f.cda = 2 then clog2 f.x
  else if f.cda = 3 then f.fl - f.x
  else 0

/-- The field value of the residue value `v` (R138): VALUE-SENT, MAPPING-SENT, LSB; NOT-SENT gives
the target value and COMPUTE-* gives 0. -/
def valueOfResidue (f : FieldDesc) (v : Nat) : Nat :=
  if f.cda = 1 then v
  else if f.cda = 2 then f.tv.getD v 0
  else if f.cda = 3 then ((target0 f >>> residueWidth f) <<< residueWidth f) ||| v
  else if f.cda = 0 then target0 f
  else 0

/-- R1 of FD_DECODE (R138): 1 marks a COMPUTE-* field, deferred to the host. -/
def deferred (f : FieldDesc) : Word := if f.cda = 4 ∨ f.cda = 5 then 1 else 0

/-- FD_MATCH (R136). -/
def execFdMatch (a b : Byte) (s : State) : Answer :=
  match fdCheck s a b with
  | .error st => raise s st
  | .ok f =>
    if ¬ applicable f b then reply s { CmdResult.plain .ok with r0 := 1 }
    else if 2 ^ f.fl ≤ s.cod.fv then raise s .errRange
    else reply s { CmdResult.plain .ok with
      r0 := if (matchField f s.cod.fv).1 then 1 else 0
      r1 := BitVec.ofNat 32 (matchField f s.cod.fv).2 }

/-- FD_ENCODE (R137). -/
def execFdEncode (a b : Byte) (s : State) : Answer :=
  match fdCheck s a b with
  | .error st => raise s st
  | .ok f =>
    if ¬ applicable f b then reply s (CmdResult.plain .ok)
    else if 2 ^ f.fl ≤ s.cod.fv then raise s .errRange
    else match residueOf f s.cod.fv with
      | .error st => raise s st
      | .ok bs =>
        if ¬ fitsWrite s bs.length then raise s .errRange
        else reply (writeAtPos s bs) { CmdResult.plain .ok with r0 := BitVec.ofNat 32 bs.length }

/-- FD_DECODE (R138). For NOT-SENT and COMPUTE-* the width is 0, so nothing is read. -/
def execFdDecode (a b : Byte) (s : State) : Answer :=
  match fdCheck s a b with
  | .error st => raise s st
  | .ok f =>
    if ¬ applicable f b then reply s (CmdResult.plain .ok)
    else if f.cda = 0 ∨ f.cda = 4 ∨ f.cda = 5 then
      reply (setFv s (valueOfResidue f 0)) { CmdResult.plain .ok with r1 := deferred f }
    else if ¬ fitsRead s (residueWidth f) then raise s .errRange
    else if f.cda = 2 ∧ f.x ≤ valOf (bitsAtPos s (residueWidth f)) then raise s .errRange
    else reply
      (setFv (advancePos s (residueWidth f)) (valueOfResidue f (valOf (bitsAtPos s (residueWidth f)))))
      { CmdResult.plain .ok with r0 := BitVec.ofNat 32 (residueWidth f) }

/-! ### Rule IDs -/

/-- The rule RID_WRITE names by index `a` and kind `b` (R139). -/
def ruleAt (c : Ctx) (a b : Byte) : Option RuleId :=
  if b = 0 then (if a = 0 then c.uncomp else none)
  else if b = 1 then (c.comp[a.toNat]?).map (·.rid)
  else (c.frag[a.toNat]?).map (·.rid)

/-- RID_WRITE (R139). -/
def execRidWrite (a b : Byte) (s : State) : Answer :=
  if 2 < b.toNat then raise s .errReserved
  else match ruleAt s.cfg.ctx a b with
    | none => raise s .errLookup
    | some r =>
      if ¬ fitsWrite s r.ridw then raise s .errRange
      else reply (writeAtPos s (bitsOf r.ridw r.ruleId))
        { CmdResult.plain .ok with r0 := BitVec.ofNat 32 r.ridw }

/-- A candidate of RID_LOOKUP: kind, index and identity (R140). -/
structure RidCand where
  kind : Nat
  index : Nat
  rid : RuleId
deriving DecidableEq, Repr

/-- The candidates of one kind, indexed from `n` in declaration order (R140). -/
def candsFrom (kind : Nat) : Nat → List RuleId → List RidCand
  | _, [] => []
  | n, r :: rs => ⟨kind, n, r⟩ :: candsFrom kind (n + 1) rs

/-- The candidates the kind mask `b` selects: UNCOMP, then COMP, then FRAG (R140). -/
def candidates (c : Ctx) (b : Byte) : List RidCand :=
  (if b.getLsbD 0 then candsFrom 0 0 c.uncomp.toList else []) ++
  (if b.getLsbD 1 then candsFrom 1 0 (c.comp.map (·.rid)) else []) ++
  (if b.getLsbD 2 then candsFrom 2 0 (c.frag.map (·.rid)) else [])

/-- The rule ID of `r` stands at POS within the valid content (R140). -/
abbrev ridAtPos (s : State) (r : RuleId) : Prop :=
  fitsRead s r.ridw ∧ valOf (bitsAtPos s r.ridw) = r.ruleId

/-- RID_LOOKUP (R140). -/
def execRidLookup (b : Byte) (s : State) : Answer :=
  if b = 0 ∨ 7 < b.toNat then raise s .errReserved
  else match (candidates s.cfg.ctx b).find? (fun c => decide (ridAtPos s c.rid)) with
    | none => raise s .errLookup
    | some c => reply (advancePos s c.rid.ridw)
        { CmdResult.plain .ok with r0 := BitVec.ofNat 32 c.kind, r1 := BitVec.ofNat 32 c.index }

end Sys2Proof.Machine
end

