-- ==== Sys2Proof/Machine/Rx.lean ====
section
/-!
DEFINITION. The RX path and the receiver side of the ACK window controller (spec/42_rx.md R211 to
R224), and the commands RX_FRAG_INPUT, RX_TIMER_FIRE, RX_ABORT and RX_QUERY (R211, R230 to R232).
-/

namespace Sys2Proof.Machine

/-! ### Parsing -/

/-- What a fragment carries after its window: a tile at position `q`, or the MIC (R212). -/
inductive FragBody where
  | reg (q : Nat) (tile : Bits)
  | all1 (mic : Word)
deriving DecidableEq, Repr

/-- A parsed fragment (R212): the rule's index and the rule, DTAG, window and body. -/
structure Frag where
  ri : Nat
  rule : FragRule
  dt : Nat
  w : Nat
  body : FragBody
deriving DecidableEq, Repr

/-- The rule serves RX and its ID opens the message (R212). -/
abbrev opensWith (d : Direction) (b : Bits) (r : FragRule) : Prop :=
  serves r d ∧ r.rid.ridw ≤ b.length ∧ valAt b 0 r.rid.ridw = r.rid.ruleId

/-- The body of a fragment under rule `r` (R212); `none` is the malformed fragment that is
absorbed. -/
def parseBody (r : FragRule) (b : Bits) : Option FragBody :=
  let f := valAt b (r.rid.ridw + r.t + r.m) r.n
  if f = 2 ^ r.n - 1 then
    if b.length < hdrBits r + micW then none
    else some (.all1 (BitVec.ofNat 32 (valAt b (hdrBits r) micW)))
  else if f ≤ r.ws - 1 then
    if b.drop (hdrBits r) = [] then none
    else some (.reg (r.ws - 1 - f) (b.drop (hdrBits r)))
  else none

/-- Parse (R212) of a message's bits: an error, nothing to do, or the fragment. -/
def parseFrag (cfg : Config) (b : Bits) : Except Status (Option Frag) :=
  match cfg.ctx.frag.findIdx? (fun r => decide (opensWith (otherDir cfg.par.txDir) b r)) with
  | none => .error .errLookup
  | some ri =>
    match cfg.ctx.frag[ri]? with
    | none => .error .errLookup
    | some r =>
      if ¬ fragRuleOk r then .error .errConfig
      else if b.length < hdrBits r then .ok none
      else .ok ((parseBody r b).map (fun body =>
        { ri := ri, rule := r, dt := valAt b r.rid.ridw r.t,
          w := valAt b (r.rid.ridw + r.t) r.m, body := body }))

/-! ### Slots -/

/-- A slot is the connection of (rule index, DTAG) (R213). -/
abbrev isConn (ri dt : Nat) (x : RxSlot) : Prop :=
  x.state ≠ .free ∧ x.rule.toNat = ri ∧ x.dtag.toNat = dt

/-- `Find(ri, dt)` (R213): the least slot of the connection. -/
def findConn (s : State) (ri dt : Nat) : Option Nat :=
  s.rx.findIdx? (fun x => decide (isConn ri dt x))

/-- The least FREE slot (R214). -/
def findFree (s : State) : Option Nat := s.rx.findIdx? (fun x => decide (x.state = .free))

/-- RX_RCVD at a position (R37). -/
def RxSlot.rcvdBit (x : RxSlot) (p : Nat) : Bool := Store.read false x.rcvd p

/-- RX_TILE at a position (R37). -/
def RxSlot.tileAt (x : RxSlot) (p : Nat) : Bits := Store.read [] x.tile p

/-- `RcvdAt(i, p)` (spec/42_rx.md, head). -/
def rcvdAt (s : State) (i p : Nat) : Bool :=
  decide (p < s.cfg.par.rxMaxSlots) && (rxSlot s i).rcvdBit p

/-- A tile stored at a position: RX_RCVD and RX_TILE (R216). -/
def RxSlot.store (x : RxSlot) (p : Nat) (t : Bits) : RxSlot :=
  { x with rcvd := Store.write false x.rcvd p true, tile := Store.write [] x.tile p t }

/-- `Reassemble(i, n)` (R222): the whole bytes of the first `n` tiles joined. -/
def reassemble (x : RxSlot) (n : Nat) : List Byte :=
  let t := (List.range n).flatMap x.tileAt
  pack (t.take (8 * (t.length / 8)))

/-! ### The ACK window controller, receiver side -/

/-- `Ack(i, w, BM, final, C)` (R218); `c` is `none` for an ACK that is not final. -/
def sendAck (r : FragRule) (dtag : Byte) (w : Nat) (bm : Bits) (c : Option Bool) : Event :=
  .send (pack (bitsOf r.rid.ridw r.rid.ruleId ++ bitsOf r.t dtag.toNat ++ bitsOf r.m w ++ bm ++
    c.toList))

/-- The bitmap of a window (R219): 1 marks a position not received. -/
def windowMap (s : State) (i : Nat) (r : FragRule) (w : Nat) : Bits :=
  (List.range r.ws).map (fun q => !rcvdAt s i (w * r.ws + q))

/-- `HP` below `n` (R221): 1 + the greatest position below `n` for which `got` holds, or 0. -/
def highPos (got : Nat → Bool) : Nat → Nat
  | 0 => 0
  | n + 1 => if got n then n + 1 else highPos got n

/-- `HP(i)` (R221), the extent of the last window. -/
def hpOf (s : State) (i : Nat) (r : FragRule) : Nat :=
  highPos (fun q => rcvdAt s i ((rxSlot s i).wl.toNat * r.ws + q)) r.ws

/-- The bitmap of the last window (R220): gaps below HP only. -/
def lastMap (s : State) (i : Nat) (r : FragRule) : Bits :=
  (List.range r.ws).map (fun q =>
    decide (q < hpOf s i r) && !rcvdAt s i ((rxSlot s i).wl.toNat * r.ws + q))

/-- The lowest window before the last that has a gap (R220). -/
def firstGap (s : State) (i : Nat) (r : FragRule) : Option Nat :=
  (List.range (rxSlot s i).wl.toNat).find? (fun w => decide (windowMap s i r w ≠ zeros r.ws))

/-- The message reassembled when no gap is known (R220, R223). -/
def wholeMessage (s : State) (i : Nat) (r : FragRule) : List Byte :=
  reassemble (rxSlot s i) ((rxSlot s i).wl.toNat * r.ws + hpOf s i r)

/-- A result with R0 the slot (R211). -/
def slotResult (st : Status) (i : Nat) (evs : List Event) : CmdResult :=
  { CmdResult.plain st with r0 := slotWord i, events := evs }

/-- The slot once completed: `RX_STATE <- DONE` (R220, R223). -/
def RxSlot.completed (x : RxSlot) : RxSlot := { x with state := .done }

/-- The slot after its first MIC failure (R224). -/
def RxSlot.discarded (x : RxSlot) : RxSlot :=
  { x with micRounds := true, rcvd := [], tile := [], all1 := false, wl := 0, mic := 0 }

/-- WindowEval (R219). `evs` are the events the command has emitted before. -/
def windowEval (r : FragRule) (i w : Nat) (evs : List Event) (s : State) : Answer :=
  let bm := windowMap s i r w
  if isAckAlways r ∨ bm ≠ zeros r.ws then
    reply s (slotResult .ongoing i (evs ++ [sendAck r (rxSlot s i).dtag w bm none]))
  else reply s (slotResult .ongoing i evs)

/-- MicDiscard (R224). -/
def micDiscard (i : Nat) (evs : List Event) (s : State) : Answer :=
  let x := rxSlot s i
  if x.micRounds = false then
    reply (setRx s i x.discarded) (slotResult .micIncorrect i evs)
  else
    reply (releaseRx s i)
      { slotResult .micIncorrect i (evs ++ cancelEvents (.rx i) x.armed) with r1 := 1 }

/-- FinalEval (R220). -/
def finalEval (r : FragRule) (i : Nat) (evs : List Event) (s : State) : Answer :=
  let x := rxSlot s i
  match firstGap s i r with
  | some w =>
    reply s (slotResult .ongoing i (evs ++ [sendAck r x.dtag w (windowMap s i r w) none]))
  | none =>
    let bm := lastMap s i r
    if bm ≠ zeros r.ws then
      reply s (slotResult .ongoing i (evs ++ [sendAck r x.dtag x.wl.toNat bm (some false)]))
    else if micOf s.cfg.par.micFn (wholeMessage s i r) = x.mic then
      reply (setRx s i x.completed)
        { slotResult .completed i
            (evs ++ [sendAck r x.dtag x.wl.toNat (zeros r.ws) (some true)]) with
          dataOut := wholeMessage s i r }
    else
      micDiscard i (evs ++ [sendAck r x.dtag x.wl.toNat (zeros r.ws) (some false)]) s

/-- A gap known under NO_ACK with `M ≥ 1` (R223). -/
abbrev noAckGap (s : State) (i : Nat) (r : FragRule) : Prop :=
  firstGap s i r ≠ none ∨ lastMap s i r ≠ zeros r.ws

/-- Release with MIC_INCORRECT and R1 = 1 (R223). -/
def micFail (i : Nat) (evs : List Event) (s : State) : Answer :=
  reply (releaseRx s i)
    { slotResult .micIncorrect i (evs ++ cancelEvents (.rx i) (rxSlot s i).armed) with r1 := 1 }

/-- NoAckFinal (R223). -/
def noAckFinal (r : FragRule) (i : Nat) (evs : List Event) (s : State) : Answer :=
  let x := rxSlot s i
  let m := if r.m = 0 then reassemble x x.nAppend.toNat else wholeMessage s i r
  if r.m ≠ 0 ∧ noAckGap s i r then micFail i evs s
  else if micOf s.cfg.par.micFn m = x.mic then
    reply (setRx s i x.completed) { slotResult .completed i evs with dataOut := m }
  else micFail i evs s

/-! ### RX_FRAG_INPUT -/

/-- The position a regular fragment's tile takes in slot `x` (R214, R216): RX_NAPPEND under NO_ACK
with `M = 0`, else `w*WS + q`. -/
def tilePos (r : FragRule) (x : RxSlot) (w q : Nat) : Nat :=
  if noAck0 r then x.nAppend.toNat else w * r.ws + q

/-- A tile is beyond a slot's storage (R214, R216). -/
abbrev beyondStorage (s : State) (p : Nat) (t : Bits) : Prop :=
  s.cfg.par.rxMaxSlots ≤ p ∨ s.cfg.par.rxTileBits < t.length

/-- The slot with the tile stored as R216 says: a received position keeps its first tile, and under
NO_ACK with `M = 0` every tile is appended. -/
def RxSlot.accept (x : RxSlot) (r : FragRule) (p : Nat) (t : Bits) : RxSlot :=
  if noAck0 r then { x.store p t with nAppend := x.nAppend + 1 }
  else if x.rcvdBit p then x
  else x.store p t

/-- Regular (R216) on slot `i`. -/
def rxRegular (r : FragRule) (w q : Nat) (t : Bits) (i : Nat) (evs : List Event) (s : State) :
    Answer :=
  let x := rxSlot s i
  let p := tilePos r x w q
  if 1 ≤ r.m ∧ x.all1 = true ∧ x.wl.toNat < w then reply s (slotResult .ignored i evs)
  else if beyondStorage s p t then
    reply (releaseRx s i) (slotResult .rxResourceFail i (evs ++ cancelEvents (.rx i) x.armed))
  else
    let s1 := setRx s i (x.accept r p t).arm
    let evs1 := evs ++ armRxEvents s i x
    if isNoAck r then reply s1 (slotResult .ongoing i evs1)
    else if q = r.ws - 1 then
      if x.all1 then finalEval r i evs1 s1 else windowEval r i w evs1 s1
    else reply s1 (slotResult .ongoing i evs1)

/-- The slot with an All-1 accepted (R217). -/
def RxSlot.acceptAll1 (x : RxSlot) (w : Nat) (mic : Word) : RxSlot :=
  { x with all1 := true, wl := BitVec.ofNat 8 w, mic := mic }

/-- AllOne (R217) on slot `i`. -/
def rxAllOne (r : FragRule) (w : Nat) (mic : Word) (i : Nat) (evs : List Event) (s : State) :
    Answer :=
  let x := rxSlot s i
  if 1 ≤ r.m ∧ x.all1 = true ∧ w ≠ x.wl.toNat then reply s (slotResult .ignored i evs)
  else
    let s1 := setRx s i (x.acceptAll1 w mic).arm
    let evs1 := evs ++ armRxEvents s i x
    if isNoAck r then noAckFinal r i evs1 s1 else finalEval r i evs1 s1

/-- A fragment on a RECV slot (R211). -/
def rxDeliver (f : Frag) (i : Nat) (evs : List Event) (s : State) : Answer :=
  match f.body with
  | .reg q t => rxRegular f.rule f.w q t i evs s
  | .all1 mic => rxAllOne f.rule f.w mic i evs s

/-- `Duplicate` (R215): a bit-identical copy of a fragment the completed exchange accepted. -/
def isDuplicate (s : State) (i : Nat) (f : Frag) : Bool :=
  let x := rxSlot s i
  match f.body with
  | .reg q t =>
    if noAck0 f.rule then (List.range x.nAppend.toNat).any (fun n => x.tileAt n == t)
    else rcvdAt s i (f.w * f.rule.ws + q) && x.tileAt (f.w * f.rule.ws + q) == t
  | .all1 mic => f.w == x.wl.toNat && mic == x.mic

/-- A terminal fragment: the All-1, or the All-0 of a window (R215). -/
def isTerminal (f : Frag) : Bool :=
  match f.body with
  | .reg q _ => q == f.rule.ws - 1
  | .all1 _ => true

/-- The events of DoneReply (R215). -/
def doneReply (s : State) (i : Nat) (f : Frag) : List Event :=
  if ¬ isNoAck f.rule ∧ isTerminal f = true then
    [sendAck f.rule (rxSlot s i).dtag (rxSlot s i).wl.toNat (zeros f.rule.ws) (some true)]
  else []

/-- A new connection's first fragment cannot be stored (R214). -/
def firstTooBig (s : State) (f : Frag) : Bool :=
  match f.body with
  | .reg q t =>
    decide (beyondStorage s (if noAck0 f.rule then 0 else f.w * f.rule.ws + q) t)
  | .all1 _ => false

/-- The slot a new connection starts with (R214): the released slot with its state and key set. -/
def RxSlot.opened (x : RxSlot) (ri dt : Nat) : RxSlot :=
  { x with state := .recv, rule := BitVec.ofNat 8 ri, dtag := BitVec.ofNat 8 dt }

/-- Create (R214) in a state with a FREE slot, and the fragment's delivery to it (R211). -/
def rxOpen (f : Frag) (evs : List Event) (s : State) : Answer :=
  match findFree s with
  | none => raise s .errResource
  | some i => rxDeliver f i evs (setRx s i ((rxSlot s i).opened f.ri f.dt))

/-- Create for a fragment of no live connection (R214). -/
def rxCreate (f : Frag) (s : State) : Answer :=
  if findFree s = none then raise s .errResource
  else if firstTooBig s f then raise s .errResource
  else rxOpen f [] s

/-- Create for a fragment that supersedes the DONE slot `i` (R214, R215). -/
def rxSupersede (f : Frag) (i : Nat) (s : State) : Answer :=
  if firstTooBig s f then raise s .errResource
  else rxOpen f (cancelEvents (.rx i) (rxSlot s i).armed) (releaseRx s i)

/-- RX_FRAG_INPUT from a parsed fragment on (R211). -/
def rxAccept (f : Frag) (s : State) : Answer :=
  match findConn s f.ri f.dt with
  | none => rxCreate f s
  | some i =>
    if (rxSlot s i).state = .done then
      if isDuplicate s i f then reply s (slotResult .stayAlive i (doneReply s i f))
      else rxSupersede f i s
    else rxDeliver f i [] s

/-- RX_FRAG_INPUT (R211). -/
def execRxFragInput (d : List Byte) (s : State) : Answer :=
  match parseFrag s.cfg (unpack d) with
  | .error st => raise s st
  | .ok none => reply s (CmdResult.plain .ignored)
  | .ok (some f) => rxAccept f s

/-! ### Timer, abort and query -/

/-- RX_TIMER_FIRE (R230): a current fire consumes the schedule, so the release emits no CANCEL. -/
def execRxTimerFire (a : Byte) (g : Word) (s : State) : Answer :=
  if s.cfg.par.nRx ≤ a.toNat then raise s .errRange
  else if (rxSlot s a.toNat).armed = false ∨ g ≠ (rxSlot s a.toNat).gen then
    reply s (CmdResult.plain .ignored)
  else reply (releaseRx s a.toNat)
    (CmdResult.plain (if (rxSlot s a.toNat).state = .recv then .abandoned else .ok))

/-- RX_ABORT (R231). -/
def execRxAbort (a : Byte) (s : State) : Answer :=
  if s.cfg.par.nRx ≤ a.toNat then raise s .errRange
  else reply (releaseRx s a.toNat) { CmdResult.plain .ok with
    events := cancelEvents (.rx a.toNat) (rxSlot s a.toNat).armed }

/-- R1 of RX_QUERY (R232): rule, DTAG at bit 8, ALL1 at bit 16, the MIC-round bit at bit 17. -/
def queryWord (x : RxSlot) : Word :=
  x.rule.setWidth 32 ||| (x.dtag.setWidth 32 <<< 8) |||
    ((BitVec.ofBool x.all1).setWidth 32 <<< 16) |||
    ((BitVec.ofBool x.micRounds).setWidth 32 <<< 17)

/-- RX_QUERY (R232). -/
def execRxQuery (a : Byte) (s : State) : Answer :=
  if s.cfg.par.nRx ≤ a.toNat then raise s .errRange
  else reply s { CmdResult.plain .ok with
    r0 := (rxSlot s a.toNat).state.code
    r1 := queryWord (rxSlot s a.toNat) }

end Sys2Proof.Machine
end

