-- ==== Sys2Proof/Machine/Tx.lean ====
section
/-!
DEFINITION. The TX path: from message to fragments (spec/41_tx.md R171 to R175) and the commands
TX_OUTPUT, TX_ACK_INPUT, TX_TIMER_FIRE, TX_ABORT and TX_QUERY (R179 to R187).
-/

namespace Sys2Proof.Machine

/-! ### From message to fragments -/

/-- Tile `j` of the message `d` cut into tiles of `tb` bits (R171). -/
def tileOf (tb : Nat) (d : List Byte) (j : Nat) : Bits := ((unpack d).drop (j * tb)).take tb

/-- The bits of the regular fragment of tile `j` (R172, R173): window `j div WS`, FCN
`WS - 1 - j mod WS`. -/
def fragBits (s : State) (r : FragRule) (j : Nat) : Bits :=
  fragHeader r s.tx.dtag.toNat (j / r.ws) (r.ws - 1 - j % r.ws) ++
    tileOf (tileBits s.cfg.par.mtu r) s.tx.msg j

/-- The bits of the All-1 fragment (R174): the last window, the All-1 FCN and the MIC, no tile. -/
def all1Bits (s : State) (r : FragRule) : Bits :=
  fragHeader r s.tx.dtag.toNat s.tx.wl.toNat (2 ^ r.n - 1) ++
    bitsOf micW (micOf s.cfg.par.micFn s.tx.msg).toNat

/-- `Send(Frag(j))` (R175). -/
def sendFrag (s : State) (r : FragRule) (j : Nat) : Event := .send (pack (fragBits s r j))

/-- `Send(All1)` (R175). -/
def sendAll1 (s : State) (r : FragRule) : Event := .send (pack (all1Bits s r))

/-- `for j = lo .. hi - 1: Send(Frag(j))`. -/
def sendRange (s : State) (r : FragRule) (lo hi : Nat) : List Event :=
  (List.range' lo (hi - lo)).map (sendFrag s r)

/-- `SendWindow(w)` (R175). -/
def sendWindow (s : State) (r : FragRule) (w : Nat) : List Event :=
  sendRange s r (w * r.ws) (min ((w + 1) * r.ws) s.tx.k.toNat) ++
    (if w = s.tx.wl.toNat then [sendAll1 s r] else [])

/-- `SendAll` (R175). -/
def sendAll (s : State) (r : FragRule) : List Event :=
  sendRange s r 0 s.tx.k.toNat ++ [sendAll1 s r]

/-- `Terminal(w)` (R175): the All-1 of the last window, the All-0 of any other. -/
def sendTerminal (s : State) (r : FragRule) (w : Nat) : Event :=
  if w = s.tx.wl.toNat then sendAll1 s r else sendFrag s r (w * r.ws + r.ws - 1)

/-! ### TX_OUTPUT -/

/-- What TX_K holds for `k` tiles: `k`, or a free value where 32 bits are too few (log 6). -/
def tileCountReg (s : State) (k : Nat) : Word :=
  if k < 2 ^ 32 then BitVec.ofNat 32 k else Config.freeTxK s.freeCount

/-- What TX_WL holds for the last window `wl`: `wl`, or a free value where 8 bits are too few
(log 6). -/
def lastWindowReg (s : State) (wl : Nat) : Byte :=
  if wl < 2 ^ 8 then BitVec.ofNat 8 wl else Config.freeTxWl s.freeCount

/-- The counter of free values after a start with `k` tiles and last window `wl` (log 6). -/
def freeCountAfter (s : State) (k wl : Nat) : Nat :=
  if k < 2 ^ 32 ∧ wl < 2 ^ 8 then s.freeCount else s.freeCount + 1

/-- The state once TX_OUTPUT has written the exchange's registers, TX_STATE, TX_WIN and the timer
aside (R179). -/
def txLoad (s : State) (a : Byte) (r : FragRule) (d : List Byte) : State :=
  let k := tileCount s.cfg.par.mtu r d.length
  let wl := k / r.ws
  { s with
    tx := { s.tx with
      rule := a
      msg := d
      k := tileCountReg s k
      wl := lastWindowReg s wl
      dtag := BitVec.ofNat 8 (s.dtagNext.toNat % 2 ^ r.t)
      attempts := 0
      micRounds := false }
    dtagNext := s.dtagNext + 1
    freeCount := freeCountAfter s k wl }

/-- `TX_WIN <- w; TX_STATE <- st`. -/
def txGoto (s : State) (w : Byte) (st : TxPhase) : State :=
  { s with tx := { s.tx with win := w, state := st } }

/-- TX_OUTPUT from the mode on (R179), in the state of `txLoad`. -/
def txLaunch (r : FragRule) (s : State) : Answer :=
  if isNoAck r then
    reply (txGoto s s.tx.wl .ended) { CmdResult.plain .success with events := sendAll s r }
  else if isAckAlways r then
    reply (armTx (txGoto s 0 .wait))
      { CmdResult.plain .success with events := sendWindow s r 0 ++ armTxEvents s }
  else
    reply (armTx (txGoto s s.tx.wl .wait))
      { CmdResult.plain .success with events := sendAll s r ++ armTxEvents s }

/-- The message needs more windows than W can number (R179, D11). -/
abbrev tooManyWindows (mtu : Nat) (r : FragRule) (len : Nat) : Prop :=
  1 ≤ r.m ∧ 2 ^ r.m < tileCount mtu r len / r.ws + 1

/-- TX_OUTPUT (R179), its checks in order. -/
def execTxOutput (a : Byte) (d : List Byte) (s : State) : Answer :=
  if d.length < s.cfg.par.mtu then reply s (CmdResult.plain .noFragmentation)
  else if s.tx.state = .wait then raise s .errBusy
  else match s.cfg.ctx.frag[a.toNat]? with
    | none => raise s .errLookup
    | some r =>
      if ¬ serves r s.cfg.par.txDir then raise s .errContract
      else if ¬ (fragRuleOk r ∧ mtuFits s.cfg.par.mtu r) then raise s .errConfig
      else if s.cfg.par.txMaxBytes < d.length then raise s .errResource
      else if tooManyWindows s.cfg.par.mtu r d.length then raise s .errTooLarge
      else txLaunch r (txLoad s a r d)

/-! ### TX_ACK_INPUT -/

/-- An ACK as TX reads it: window, bitmap and C bit (R91, R180). -/
structure AckMsg where
  w : Nat
  bm : Bits
  c : Bool
deriving DecidableEq, Repr

/-- The bits an ACK needs before C: `ridw + T + M + WS` (R180). -/
def ackNeed (r : FragRule) : Nat := r.rid.ridw + r.t + r.m + r.ws

/-- The fields of an ACK's bits under rule `r` (R91, R180). -/
def ackFields (r : FragRule) (b : Bits) : AckMsg where
  w := valAt b (r.rid.ridw + r.t) r.m
  bm := (b.drop (r.rid.ridw + r.t + r.m)).take r.ws
  c := b.getD (ackNeed r) false

/-- TX accepts the ACK (R180). -/
abbrev ackAccepted (s : State) (r : FragRule) (b : Bits) : Prop :=
  ackNeed r ≤ b.length ∧ valAt b 0 r.rid.ridw = r.rid.ruleId ∧
  valAt b r.rid.ridw r.t = s.tx.dtag.toNat ∧
  (ackFields r b).w ≤ s.tx.wl.toNat ∧
  (isAckAlways r → (ackFields r b).w = s.tx.win.toNat) ∧
  ((ackFields r b).w = s.tx.wl.toNat → ackNeed r + 1 ≤ b.length)

/-- The positions below `n` that a bitmap marks missing, ascending (R182, R183). -/
def missing (bm : Bits) (n : Nat) : List Nat := (List.range n).filter (fun q => bm.getD q false)

/-- `TX_ATTEMPTS <- 0` (R181). -/
def txAttempts0 (s : State) : State := { s with tx := { s.tx with attempts := 0 } }

/-- A result ACK_HANDLED with R0 = WAIT (R182 to R184). -/
def ackWait (evs : List Event) : CmdResult :=
  { CmdResult.plain .ackHandled with r0 := TxPhase.wait.code, events := evs }

/-- A result IGNORED of TX_ACK_INPUT, with R0 = TX_STATE as in every outcome of the command (R181, R294).
DEDUCED (log 15): the pseudocode of R181 returns IGNORED with no value. -/
def ackIgnored (s : State) : CmdResult :=
  { CmdResult.plain .ignored with r0 := s.tx.state.code }

/-- NonFinalAck (R182). -/
def nonFinalAck (s : State) (r : FragRule) (m : AckMsg) : Answer :=
  let miss := missing m.bm r.ws
  if miss ≠ [] then
    reply (armTx s) (ackWait
      ((miss.filter (fun q => q ≠ r.ws - 1)).map (fun q => sendFrag s r (m.w * r.ws + q)) ++
        [sendFrag s r (m.w * r.ws + r.ws - 1)] ++ armTxEvents s))
  else if isAckAlways r then
    reply (armTx { s with tx := { s.tx with win := BitVec.ofNat 8 (m.w + 1) } })
      (ackWait (sendWindow s r (m.w + 1) ++ armTxEvents s))
  else reply s (ackWait [])

/-- MicRound (R184). -/
def micRound (s : State) (r : FragRule) : Answer :=
  if s.tx.micRounds = false then
    if isAckAlways r then
      reply (armTx { s with tx := { s.tx with micRounds := true, win := 0 } })
        (ackWait (sendWindow s r 0 ++ armTxEvents s))
    else
      reply (armTx { s with tx := { s.tx with micRounds := true } })
        (ackWait (sendAll s r ++ armTxEvents s))
  else
    reply (leaveTx s .aborted) { CmdResult.plain .txMicFailed with
      r0 := TxPhase.aborted.code
      events := cancelEvents .tx s.tx.armed }

/-- FinalAck (R183). -/
def finalAck (s : State) (r : FragRule) (m : AckMsg) : Answer :=
  if m.c then
    reply (leaveTx s .ended) { CmdResult.plain .ackHandled with
      r0 := TxPhase.ended.code
      events := cancelEvents .tx s.tx.armed }
  else
    let miss := missing m.bm (s.tx.k.toNat - s.tx.wl.toNat * r.ws)
    if miss ≠ [] then
      reply (armTx s) (ackWait
        (miss.map (fun q => sendFrag s r (s.tx.wl.toNat * r.ws + q)) ++ [sendAll1 s r] ++
          armTxEvents s))
    else micRound s r

/-- The rule of the TX exchange, `FRAG[TX_RULE]`. -/
def txRule (s : State) : Option FragRule := s.cfg.ctx.frag[s.tx.rule.toNat]?

/-- TX_ACK_INPUT (R181). -/
def execTxAckInput (d : List Byte) (s : State) : Answer :=
  if s.tx.state = .init then raise s .errContract
  else if s.tx.state ≠ .wait then reply s (ackIgnored s)
  else match txRule s with
    | none => .fault .txRuleMissing
    | some r =>
      if ¬ ackAccepted s r (unpack d) then reply s (ackIgnored s)
      else if (ackFields r (unpack d)).w < s.tx.wl.toNat then
        nonFinalAck (txAttempts0 s) r (ackFields r (unpack d))
      else finalAck (txAttempts0 s) r (ackFields r (unpack d))

/-! ### Timer, abort and query -/

/-- `TX_ARMED <- 0`: the schedule is consumed (R185, R264). -/
def txDisarm (s : State) : State := { s with tx := { s.tx with armed := false } }

/-- TX_TIMER_FIRE (R185). -/
def execTxTimerFire (g : Word) (s : State) : Answer :=
  if s.tx.armed = false ∨ g ≠ s.tx.gen then reply s (CmdResult.plain .ignored)
  else if s.tx.state ≠ .wait then reply (txDisarm s) (CmdResult.plain .ignored)
  else if s.tx.attempts.toNat < s.cfg.par.maxAckReq then
    match txRule s with
    | none => .fault .txRuleMissing
    | some r =>
      let s1 := { s with tx := { s.tx with armed := false, attempts := s.tx.attempts + 1 } }
      reply (armTx s1) { CmdResult.plain .resent with
        events := sendTerminal s r s.tx.win.toNat :: armTxEvents s1 }
  else reply (leaveTx s .aborted) (CmdResult.plain .txTimeout)

/-- TX_ABORT (R186). -/
def execTxAbort (s : State) : Answer :=
  reply (leaveTx s .init)
    { CmdResult.plain .ok with events := cancelEvents .tx s.tx.armed }

/-- TX_QUERY (R187). -/
def execTxQuery (s : State) : Answer :=
  reply s { CmdResult.plain .ok with
    r0 := if s.tx.state = .wait then 1 else 0
    r1 := s.tx.state.code }

end Sys2Proof.Machine
end

