-- ==== Sys2Proof/Machine/Dispatch.lean ====
section
/-!
DEFINITION. The dispatch of a decoded command to its meaning, one arm per row of
spec/opcode_table.json (spec/30_encoding.md R85).
-/

namespace Sys2Proof.Machine

def exec (i : Instr) (s : State) : Host.Outcome State Fault Refusal :=
  match i with
  | .nop => Sys2Proof.Machine.execNop s
  | .txOutput a d => Sys2Proof.Machine.execTxOutput a d s
  | .txAckInput d => Sys2Proof.Machine.execTxAckInput d s
  | .txTimerFire g => Sys2Proof.Machine.execTxTimerFire g s
  | .txAbort => Sys2Proof.Machine.execTxAbort s
  | .txQuery => Sys2Proof.Machine.execTxQuery s
  | .rxFragInput d => Sys2Proof.Machine.execRxFragInput d s
  | .rxTimerFire a g => Sys2Proof.Machine.execRxTimerFire a g s
  | .rxAbort a => Sys2Proof.Machine.execRxAbort a s
  | .rxQuery a => Sys2Proof.Machine.execRxQuery a s
  | .cbLoad d => Sys2Proof.Machine.execCbLoad d s
  | .cbClear => Sys2Proof.Machine.execCbClear s
  | .cbSeek p => Sys2Proof.Machine.execCbSeek p s
  | .cbWrite a v => Sys2Proof.Machine.execCbWrite a v s
  | .cbRead a => Sys2Proof.Machine.execCbRead a s
  | .cbUnload => Sys2Proof.Machine.execCbUnload s
  | .cbAppend d => Sys2Proof.Machine.execCbAppend d s
  | .cbTail => Sys2Proof.Machine.execCbTail s
  | .fvLoad d => Sys2Proof.Machine.execFvLoad d s
  | .fvStore a => Sys2Proof.Machine.execFvStore a s
  | .fdMatch a b => Sys2Proof.Machine.execFdMatch a b s
  | .fdEncode a b => Sys2Proof.Machine.execFdEncode a b s
  | .fdDecode a b => Sys2Proof.Machine.execFdDecode a b s
  | .ridWrite a b => Sys2Proof.Machine.execRidWrite a b s
  | .ridLookup b => Sys2Proof.Machine.execRidLookup b s

end Sys2Proof.Machine
end

