-- ==== Sys2Proof/Machine/Step.lean ====
section
/-!
DEFINITION. One step: the engine takes the next input of its port and acts on it (spec/00_scope.md
R13; spec/30_encoding.md R80, R86; spec/70_reset_and_hazards.md R310). The decoder, the operations
and the meanings do the work; this file only calls them.
-/

namespace Sys2Proof.Machine

/-- A delivered command (R86): its error status, or its meaning, in the state `s` with the command
taken off the port. -/
def runCommand (c : Command) (s : State) : Host.Outcome State Fault Refusal :=
  match decode s.cfg.par.maxInBytes c with
  | .error e => raise s (decodeStatus e)
  | .ok i => exec i s

/-- One step. A configuration outside the spec is refused (R8, R45). With nothing delivered the
engine holds its state (R296). -/
def step (s : State) : Host.Outcome State Fault Refusal :=
  if ¬ paramsOk s.cfg.par then .refused .paramsOutOfRange
  else if ¬ ctxOk s.cfg.ctx then .refused .contextNotOk
  else match s.port with
    | [] => .next s
    | .reset :: rest => .next (resetInput s rest)
    | .command c :: rest => runCommand c (withPort s rest)

/-- The state with the command of a table row's bits as the next input on the port (log 11). -/
def State.withFetchWord (s : State) (nbits w : Nat) : State :=
  { s with port := .command (tableCommand nbits w) :: s.port }

end Sys2Proof.Machine
end

