-- ==== Sys2Proof/Safety.lean ====
section
/-!
DEFINITION. The terms claims use: the launch premises of spec/43_control.md R268, what a run observes
(R266), and the legal states of spec/10_state.md R20 to R37 and spec/41_tx.md R190 as invariants.
-/

namespace Sys2Proof.Safety

open Sys2Proof.Machine

/-! ### Observation -/

/-- The results of the commands among the first `k` steps from `s`, oldest first (R266). -/
def observe : Nat → State → List CmdResult
  | 0, _ => []
  | k + 1, s =>
    match step s with
    | .next t =>
      (match s.port with
        | .command _ :: _ => t.result.toList
        | .reset :: _ => []
        | [] => []) ++ observe k t
    | .fault _ => []
    | .refused _ => []

/-- The concatenated EVENTS of results (R266). -/
def eventsOf (rs : List CmdResult) : List Event := rs.flatMap (·.events)

/-- The connection and generation whose schedule a command consumes at the TimerPort, if it is a fire
(R75, R292). -/
def firedBy : Instr → Option (Conn × Word)
  | .txTimerFire g => some (.tx, g)
  | .rxTimerFire a g => some (.rx a.toNat, g)
  | .nop | .txOutput _ _ | .txAckInput _ | .txAbort | .txQuery | .rxFragInput _ | .rxAbort _
  | .rxQuery _ | .cbLoad _ | .cbClear | .cbSeek _ | .cbWrite _ _ | .cbRead _ | .cbUnload
  | .cbAppend _ | .cbTail | .fvLoad _ | .fvStore _ | .fdMatch _ _ | .fdEncode _ _ | .fdDecode _ _
  | .ridWrite _ _ | .ridLookup _ => none

/-- What an event does to the schedules the TimerPort holds: SCHED adds one, CANCEL drops the
connection's (R94, R262, R263). -/
def pendingEvent (p : List (Conn × Word)) : Event → List (Conn × Word)
  | .send _ => p
  | .sched c _ g => p ++ [(c, g)]
  | .cancel c => p.filter (fun x => x.1 ≠ c)

/-- The schedules the TimerPort holds after command `i` emitted `evs`, having held `p` before: a fire
consumes its schedule, then the events act in order (R264). -/
def pendingAfter (i : Instr) (evs : List Event) (p : List (Conn × Word)) : List (Conn × Word) :=
  evs.foldl pendingEvent (p.filter (fun x => some x ≠ firedBy i))

/-- A connection's live schedule: that of its generation while it is armed, that is scheduled and
neither cancelled nor consumed (R36, R37). -/
def liveOf (c : Conn) (armed : Bool) (gen : Word) : List (Conn × Word) :=
  if armed then [(c, gen)] else []

/-- The live schedules of this instance, TX first, then the slots in order (R261; log 17). -/
def liveSchedules (s : State) : List (Conn × Word) :=
  liveOf .tx s.tx.armed s.tx.gen ++
    (List.range s.rx.length).flatMap (fun j => liveOf (.rx j) (rxSlot s j).armed (rxSlot s j).gen)

/-! ### Launch premises (R268) -/

/-- `RESET`: every part of R20 at its reset value (R310). -/
abbrev IsReset (s : State) : Prop :=
  s.cod = Codec.reset ∧ s.tx = TxConn.reset ∧ s.dtagNext = 0 ∧
  s.rx = List.replicate s.cfg.par.nRx RxSlot.reset

/-- `CTX_OK`, with the constraints of R8 (R45). -/
abbrev CfgOk (s : State) : Prop := paramsOk s.cfg.par ∧ ctxOk s.cfg.ctx

/-- `TX_IDLE`: `TX_STATE ∈ {INIT, END, ABORTED}` and `TX_ARMED = 0`. -/
abbrev TxIdle (s : State) : Prop := s.tx.state ≠ .wait ∧ s.tx.armed = false

/-- `RX_ALL_FREE`: every slot FREE with its timer not armed. -/
abbrev RxAllFree (s : State) : Prop := ∀ x ∈ s.rx, x.state = .free ∧ x.armed = false

/-- `NO_PENDING`: the TimerPort holds no live schedule for this instance (log 17). -/
abbrev NoPending (s : State) : Prop := liveSchedules s = []

/-! ### Legal states -/

/-- CBUF is in canonical form and lists no byte at or beyond `CBUF_BYTES` (R24, R69). -/
abbrev CbufOk (s : State) : Prop :=
  Memory.wf s.cod.cbuf ∧ ∀ e ∈ s.cod.cbuf, e.1 < s.cfg.par.cbufBytes

/-- The invariant of R26: `0 ≤ POS ≤ CB_LEN ≤ 8*CBUF_BYTES`. -/
abbrev CursorOk (s : State) : Prop :=
  s.cod.pos.toNat ≤ s.cod.cbLen.toNat ∧ s.cod.cbLen.toNat ≤ cbufBits s

/-- FV fits its register (R27). -/
abbrev FvOk (s : State) : Prop := s.cod.fv < 2 ^ s.cfg.par.maxFieldBits

/-- The invariant of R190: the TX timer is armed exactly in WAIT. -/
abbrev TxTimerOk (s : State) : Prop := s.tx.state = .wait ↔ s.tx.armed = true

/-- TX_LEN and TX_ATTEMPTS are within their bounds (R33, R35). -/
abbrev TxBoundsOk (s : State) : Prop :=
  txLen s ≤ s.cfg.par.txMaxBytes ∧ s.tx.attempts.toNat ≤ s.cfg.par.maxAckReq

/-- In WAIT the exchange's registers describe its message under its rule (R30, R31, R34, R179). -/
abbrev TxExchangeOk (s : State) : Prop :=
  s.tx.state = .wait → ∃ r ∈ txRule s,
    fragRuleOk r ∧ mtuFits s.cfg.par.mtu r ∧ serves r s.cfg.par.txDir ∧ ¬ isNoAck r ∧
    s.tx.k.toNat = tileCount s.cfg.par.mtu r (txLen s) ∧
    s.tx.wl.toNat = s.tx.k.toNat / r.ws ∧ s.tx.wl.toNat < 2 ^ r.m ∧
    s.tx.win.toNat ≤ s.tx.wl.toNat ∧ (¬ isAckAlways r → s.tx.win = s.tx.wl) ∧
    s.tx.dtag.toNat < 2 ^ r.t

/-- The legal values of an RX slot's stores and counters (R37): canonical stores within
`RX_MAX_SLOTS` positions of `RX_TILE_BITS` bits each. -/
abbrev SlotStoresOk (p : Params) (x : RxSlot) : Prop :=
  Store.Wf false x.rcvd ∧ Store.Wf [] x.tile ∧
  (∀ e ∈ x.rcvd, e.1 < p.rxMaxSlots) ∧
  (∀ e ∈ x.tile, e.1 < p.rxMaxSlots ∧ e.2.length ≤ p.rxTileBits) ∧
  x.nAppend.toNat ≤ p.rxMaxSlots

/-- A slot's timer is armed exactly when it is not FREE, and a FREE slot holds its released values
(R38, R230). -/
abbrev SlotTimerOk (x : RxSlot) : Prop :=
  (x.state ≠ .free ↔ x.armed = true) ∧ (x.state = .free → x = RxSlot.released x)

/-- A live slot's rule serves RX and its DTAG and window fit their fields (R37, R212). -/
abbrev SlotRuleOk (cfg : Config) (x : RxSlot) : Prop :=
  x.state ≠ .free → ∃ r ∈ cfg.ctx.frag[x.rule.toNat]?,
    fragRuleOk r ∧ serves r (otherDir cfg.par.txDir) ∧ x.dtag.toNat < 2 ^ r.t ∧
    x.wl.toNat < 2 ^ r.m

/-- Every RX slot is legal, and there are `N_RX` of them (R37). -/
abbrev RxSlotsOk (s : State) : Prop :=
  s.rx.length = s.cfg.par.nRx ∧
  ∀ x ∈ s.rx, SlotStoresOk s.cfg.par x ∧ SlotTimerOk x ∧ SlotRuleOk s.cfg x

/-- Two slots are not live connections of one key (R213). -/
abbrev KeysDiffer (x y : RxSlot) : Prop :=
  x.state = .free ∨ y.state = .free ∨ ¬ (x.rule = y.rule ∧ x.dtag = y.dtag)

/-- At most one live slot per rule and DTAG (R213). -/
abbrev RxKeysOk (s : State) : Prop := s.rx.Pairwise KeysDiffer

/-- Every legal state of spec/10_state.md, under a configuration within the spec. -/
structure Legal (s : State) : Prop where
  cfg : CfgOk s
  cbuf : CbufOk s
  cursor : CursorOk s
  fv : FvOk s
  txTimer : TxTimerOk s
  txBounds : TxBoundsOk s
  txExchange : TxExchangeOk s
  rxSlots : RxSlotsOk s
  rxKeys : RxKeysOk s

/-! ### What a command may change -/

/-- Nothing but the result differs. -/
abbrev OnlyResult (s t : State) : Prop := t = { s with result := t.result }

/-- Nothing but the codec datapath and the result differs. -/
abbrev OnlyCodec (s t : State) : Prop := t = { s with cod := t.cod, result := t.result }

/-- Nothing but the TX connection, DTAG_NEXT, the counter of free values and the result differs. -/
abbrev OnlyTx (s t : State) : Prop :=
  t = { s with tx := t.tx, dtagNext := t.dtagNext, freeCount := t.freeCount, result := t.result }

/-- Nothing but the RX slots and the result differs. -/
abbrev OnlyRx (s t : State) : Prop := t = { s with rx := t.rx, result := t.result }

/-- Nothing but RX slot `i` and the result differs. -/
abbrev OnlySlot (i : Nat) (s t : State) : Prop :=
  OnlyRx s t ∧ t.rx.length = s.rx.length ∧ ∀ j, j ≠ i → rxSlot t j = rxSlot s j

/-! ### The opcode map as numbers (spec/30_encoding.md R85) -/

/-- The assigned opcodes. -/
def assignedOpcodes : List Nat :=
  [0x00, 0x01, 0x02, 0x03, 0x04, 0x05, 0x08, 0x09, 0x0A, 0x0B, 0x10, 0x11, 0x12, 0x13, 0x14, 0x15,
   0x16, 0x17, 0x20, 0x21, 0x22, 0x23, 0x24, 0x25, 0x26]

/-- The opcodes of commands that use A. -/
def opcodesUsingA : List Nat :=
  [0x01, 0x09, 0x0A, 0x0B, 0x13, 0x14, 0x21, 0x22, 0x23, 0x24, 0x25]

/-- The opcodes of commands that use B. -/
def opcodesUsingB : List Nat := [0x22, 0x23, 0x24, 0x25, 0x26]

/-- The opcodes of commands that take DATA_IN. -/
def opcodesTakingData : List Nat := [0x01, 0x02, 0x08, 0x10, 0x16, 0x20]

/-- The BitBuffer and FieldCodec commands (spec/40_codec.md). -/
def isCodec (i : Instr) : Bool := decide (0x10 ≤ (opcodeOf i).toNat)

/-- The TX commands (spec/41_tx.md). -/
def isTx (i : Instr) : Bool := decide (0x01 ≤ (opcodeOf i).toNat ∧ (opcodeOf i).toNat < 0x08)

/-- The RX commands (spec/42_rx.md). -/
def isRx (i : Instr) : Bool := decide (0x08 ≤ (opcodeOf i).toNat ∧ (opcodeOf i).toNat < 0x10)

/-- The errors a command can report after dispatch (spec/60_exceptions.md R285). -/
def errorsOf : Instr → List Status
  | .nop | .txTimerFire _ | .txAbort | .txQuery | .cbClear | .cbUnload | .cbTail => []
  | .txOutput _ _ =>
    [.errBusy, .errLookup, .errContract, .errConfig, .errResource, .errTooLarge]
  | .txAckInput _ => [.errContract]
  | .rxFragInput _ => [.errLookup, .errConfig, .errResource]
  | .rxTimerFire _ _ | .rxAbort _ | .rxQuery _ | .cbLoad _ | .cbSeek _ | .cbWrite _ _ | .cbRead _
  | .cbAppend _ | .fvLoad _ | .fvStore _ => [.errRange]
  | .fdMatch _ _ | .fdDecode _ _ => [.errReserved, .errLookup, .errConfig, .errRange]
  | .fdEncode _ _ => [.errReserved, .errLookup, .errConfig, .errRange, .errNoMatch]
  | .ridWrite _ _ => [.errReserved, .errLookup, .errRange]
  | .ridLookup _ => [.errReserved, .errLookup]

/-! ### Bits, by position -/

/-- The big-endian value of a byte string (R61, R134). -/
def bigEndian (d : List Byte) : Nat := d.foldl (fun v b => 256 * v + b.toNat) 0

/-- Bit position `p` of a byte string: bit `7 - (p mod 8)` of byte `p div 8` (R60). -/
def byteBit (d : List Byte) (p : Nat) : Bool := (d.getD (p / 8) 0).getLsbD (7 - p % 8)

/-- `BitRead(CBUF, p, n)` (R12): the value of `n` bits, the first most significant (R10). -/
def fieldAt (m : List Host.Cell) (p n : Nat) : Nat :=
  (List.range n).foldl (fun v j => 2 * v + (Memory.bit m (p + j)).toNat) 0

/-- `t` is `s` after WriteAtPos of the `n` bits of `v` (R121): the bits are at POS, first bit most
significant, every other bit of CBUF is as before, POS and CB_LEN moved; nothing else but the result
differs. -/
def Wrote (s t : State) (n v : Nat) : Prop :=
  t = { s with
    cod := { s.cod with cbuf := t.cod.cbuf, cbLen := t.cod.cbLen, pos := t.cod.pos }
    result := t.result } ∧
  t.cod.pos.toNat = s.cod.pos.toNat + n ∧
  t.cod.cbLen.toNat = max s.cod.cbLen.toNat (s.cod.pos.toNat + n) ∧
  ∀ p, Memory.bit t.cod.cbuf p =
    if s.cod.pos.toNat ≤ p ∧ p < s.cod.pos.toNat + n
    then v.testBit (s.cod.pos.toNat + n - 1 - p) else Memory.bit s.cod.cbuf p

/-- `t` is `s` with POS moved on by `n` (R122); nothing else but the result differs. -/
def Moved (s t : State) (n : Nat) : Prop :=
  t = { s with cod := { s.cod with pos := t.cod.pos }, result := t.result } ∧
  t.cod.pos.toNat = s.cod.pos.toNat + n

/-! ### Timers, by events -/

/-- A connection's timer handle `(ARMED, GEN)` after events, or `none` where an event does not follow
from the handle before it (R262, R263, R94): a SCHED while armed, of another delay or of another
generation than the next, or a CANCEL while not armed. -/
def timerRun (c : Conn) (delay : Nat) : Bool × Word → List Event → Option (Bool × Word)
  | h, [] => some h
  | h, .send _ :: es => timerRun c delay h es
  | h, .sched c' d g :: es =>
    if c' = c then
      (if h.1 = false ∧ d = delay ∧ g = h.2 + 1 then timerRun c delay (true, g) es else none)
    else timerRun c delay h es
  | h, .cancel c' :: es =>
    if c' = c then (if h.1 = true then timerRun c delay (false, h.2) es else none)
    else timerRun c delay h es

/-- The events of arming a connection (R262). -/
def arming (c : Conn) (delay : Nat) (armed : Bool) (gen : Word) : List Event :=
  (if armed then [.cancel c] else []) ++ [.sched c delay (gen + 1)]

/-- `n` current fires of the TX timer, one after the other, with no other command between (R75). -/
def fires : Nat → State → Option State
  | 0, s => some s
  | n + 1, s =>
    match exec (.txTimerFire s.tx.gen) s with
    | .next t => fires n t
    | .fault _ => none
    | .refused _ => none

/-! ### The messages of an exchange (spec/41_tx.md R171 to R175) -/

/-- Tile `j` (R171): bits `j*Tb .. min((j+1)*Tb, 8L) - 1` of the message. -/
def tile (mtu : Nat) (r : FragRule) (d : List Byte) (j : Nat) : Bits :=
  let tb := 8 * mtu - hdrBits r
  (List.range (min ((j + 1) * tb) (8 * d.length) - j * tb)).map (fun n => byteBit d (j * tb + n))

/-- The message `Frag(j)` (R172, R173). -/
def fragment (mtu : Nat) (r : FragRule) (dtag : Nat) (d : List Byte) (j : Nat) : List Byte :=
  pack (bitsOf r.rid.ridw r.rid.ruleId ++ bitsOf r.t dtag ++ bitsOf r.m (j / r.ws % 2 ^ r.m) ++
    bitsOf r.n (r.ws - 1 - j % r.ws) ++ tile mtu r d j)

/-- The message `All1` (R174). -/
def all1Message (f : MicFn) (r : FragRule) (dtag wl : Nat) (d : List Byte) : List Byte :=
  pack (bitsOf r.rid.ridw r.rid.ruleId ++ bitsOf r.t dtag ++ bitsOf r.m (wl % 2 ^ r.m) ++
    bitsOf r.n (2 ^ r.n - 1) ++ bitsOf 32 (micOf f d).toNat)

/-- `Frag(j)` of the exchange the TX registers hold. -/
def txFragment (s : State) (r : FragRule) (j : Nat) : Event :=
  .send (fragment s.cfg.par.mtu r s.tx.dtag.toNat s.tx.msg j)

/-- `All1` of the exchange the TX registers hold. -/
def txAll1 (s : State) (r : FragRule) : Event :=
  .send (all1Message s.cfg.par.micFn r s.tx.dtag.toNat s.tx.wl.toNat s.tx.msg)

/-- `SendWindow(w)` (R175): the tiles whose window is `w`, and the All-1 if it is the last. -/
def txWindow (s : State) (r : FragRule) (w : Nat) : List Event :=
  ((List.range s.tx.k.toNat).filter (fun j => j / r.ws = w)).map (txFragment s r) ++
    (if w = s.tx.wl.toNat then [txAll1 s r] else [])

/-- `SendAll` (R175). -/
def txAll (s : State) (r : FragRule) : List Event :=
  (List.range s.tx.k.toNat).map (txFragment s r) ++ [txAll1 s r]

/-! ### Reassembly (spec/42_rx.md) -/

/-- Slot `y` is slot `x` once a tile arrived for position `p` (R216): a received position keeps its
first tile, under NO_ACK with `M = 0` every tile is stored and counted; the timer is armed anew. -/
def TileStored (r : FragRule) (p : Nat) (tl : Bits) (x y : RxSlot) : Prop :=
  y = { x with
    rcvd := y.rcvd, tile := y.tile
    nAppend := if noAck0 r then x.nAppend + 1 else x.nAppend
    armed := true, gen := x.gen + 1 } ∧
  (∀ q, y.rcvdBit q = if q = p then true else x.rcvdBit q) ∧
  ∀ q, y.tileAt q =
    if q = p ∧ (noAck0 r ∨ x.rcvdBit p = false) then tl else x.tileAt q

/-- Slot `x` once an All-1 of window `w` and MIC `mic` is accepted (R217). -/
def allOneStored (w : Nat) (mic : Word) (x : RxSlot) : RxSlot :=
  { x with
    all1 := true, wl := BitVec.ofNat 8 w, mic := mic
    armed := true, gen := x.gen + 1 }

/-- A bitmap of `n` positions with 1 exactly where `miss` says (R91). -/
def IsBitmap (bm : Bits) (n : Nat) (miss : Nat → Bool) : Prop :=
  bm.length = n ∧ ∀ q < n, bm.getD q false = miss q

/-- Window `w` of slot `i` has a position not received. -/
def HasGap (s : State) (i : Nat) (r : FragRule) (w : Nat) : Prop :=
  ∃ q < r.ws, rcvdAt s i (w * r.ws + q) = false

/-- `hp` is HP(i) (R221): 1 + the greatest position of the last window that is received, or 0. -/
def IsExtent (s : State) (i : Nat) (r : FragRule) (hp : Nat) : Prop :=
  hp ≤ r.ws ∧
  (1 ≤ hp → rcvdAt s i ((rxSlot s i).wl.toNat * r.ws + (hp - 1)) = true) ∧
  ∀ q, hp ≤ q → q < r.ws → rcvdAt s i ((rxSlot s i).wl.toNat * r.ws + q) = false

/-- What FinalEval (R220, R224) does with slot `i` of `s`, after the events `evs`: the lowest window
before the last that has a gap is asked for, else the last window's gaps, else the MIC decides. -/
def FinalVerdict (r : FragRule) (i : Nat) (evs : List Event) (s t : State) : Prop :=
  let x := rxSlot s i
  let wl := x.wl.toNat
  (∃ w bm, w < wl ∧ HasGap s i r w ∧ (∀ v < w, ¬ HasGap s i r v) ∧
    IsBitmap bm r.ws (fun q => !rcvdAt s i (w * r.ws + q)) ∧
    t = withResult s (slotResult .ongoing i (evs ++ [sendAck r x.dtag w bm none]))) ∨
  (∃ hp, (∀ w < wl, ¬ HasGap s i r w) ∧ IsExtent s i r hp ∧
    ((∃ bm, (∃ q < hp, rcvdAt s i (wl * r.ws + q) = false) ∧
        IsBitmap bm r.ws (fun q => decide (q < hp) && !rcvdAt s i (wl * r.ws + q)) ∧
        t = withResult s (slotResult .ongoing i (evs ++ [sendAck r x.dtag wl bm (some false)]))) ∨
     ((∀ q < hp, rcvdAt s i (wl * r.ws + q) = true) ∧
      let m := reassemble x (wl * r.ws + hp)
      ((micOf s.cfg.par.micFn m = x.mic ∧
          t = withResult (setRx s i { x with state := .done })
            { slotResult .completed i
                (evs ++ [sendAck r x.dtag wl (zeros r.ws) (some true)]) with dataOut := m }) ∨
       (micOf s.cfg.par.micFn m ≠ x.mic ∧ x.micRounds = false ∧
          t = withResult
            (setRx s i { x with
              micRounds := true, rcvd := [], tile := [], all1 := false, wl := 0, mic := 0 })
            (slotResult .micIncorrect i
              (evs ++ [sendAck r x.dtag wl (zeros r.ws) (some false)]))) ∨
       (micOf s.cfg.par.micFn m ≠ x.mic ∧ x.micRounds = true ∧
          t = withResult (setRx s i { RxSlot.reset with gen := x.gen })
            { slotResult .micIncorrect i
                (evs ++ [sendAck r x.dtag wl (zeros r.ws) (some false)] ++
                  cancelEvents (.rx i) x.armed) with r1 := 1 })))))

/-- What NoAckFinal (R223) does with slot `i` of `s`, after the events `evs`: a known gap or a wrong
MIC releases the slot, else the message is delivered. -/
def NoAckVerdict (r : FragRule) (i : Nat) (evs : List Event) (s t : State) : Prop :=
  let x := rxSlot s i
  let failed := t = withResult (setRx s i { RxSlot.reset with gen := x.gen })
    { slotResult .micIncorrect i (evs ++ cancelEvents (.rx i) x.armed) with r1 := 1 }
  let checked := fun m : List Byte =>
    if micOf s.cfg.par.micFn m = x.mic then
      t = withResult (setRx s i { x with state := .done })
        { slotResult .completed i evs with dataOut := m }
    else failed
  (r.m = 0 ∧ checked (reassemble x x.nAppend.toNat)) ∨
  (r.m ≠ 0 ∧ ∃ hp, IsExtent s i r hp ∧
    (((∃ w < x.wl.toNat, HasGap s i r w) ∨
        ∃ q < hp, rcvdAt s i (x.wl.toNat * r.ws + q) = false) ∧ failed ∨
     (∀ w < x.wl.toNat, ¬ HasGap s i r w) ∧
        (∀ q < hp, rcvdAt s i (x.wl.toNat * r.ws + q) = true) ∧
        checked (reassemble x (x.wl.toNat * r.ws + hp))))

/-- RX_FRAG_INPUT of each message in order: the state after them and their results. -/
def feed : List (List Byte) → State → Option (State × List CmdResult)
  | [], s => some (s, [])
  | d :: ds, s =>
    match exec (.rxFragInput d) s with
    | .next t => (feed ds t).map (fun x => (x.1, t.result.toList ++ x.2))
    | .fault _ => none
    | .refused _ => none

end Sys2Proof.Safety
end

