-- ==== Sys2Proof/Certificates/Slice0/Obligations.lean ====
section
/-!
DEFINITION. The statements for the provers. Each docstring names the rule of spec/ it formalises.
-/

open Sys2Proof Sys2Proof.Machine Sys2Proof.Safety

/-! ### Encoding, dispatch, steps -/

/-- R80, R81, R85, R86: the decoder reads back every well-formed command from its encoding, every
operand at every value. -/
def Obligations.EncodeThenDecode : Prop :=
  ∀ (maxIn : Nat) (i : Instr), wellFormed maxIn i = true → decode maxIn (encode i) = .ok i

/-- R81, R85, R86, I1: a triple that decodes is the encoding of the command it decodes to, but for W1
where IMM is ignored: there any W1 gives the same result. -/
def Obligations.DecodedCommandEncodesBack : Prop :=
  (∀ (maxIn : Nat) (c : Command) (i : Instr), decode maxIn c = .ok i →
    wellFormed maxIn i = true ∧ (encode i).w0 = c.w0 ∧ (encode i).data = c.data ∧
    (encode i).w1 = if i.usesImm then c.w1 else 0) ∧
  ∀ (c : Command) (v : Word) (s : State),
    (∀ i, decode s.cfg.par.maxInBytes c = .ok i → i.usesImm = false) →
    runCommand { c with w1 := v } s = runCommand c s

/-- R86, with the fields of R80 taken as numbers and the opcode map R85 as lists of numbers. -/
def Obligations.DispatchChecksInOrder : Prop :=
  ∀ (s : State) (c : Command) (rest : List PortInput), CfgOk s → s.port = .command c :: rest →
    let s0 := withPort s rest
    let opc := c.w0.toNat % 2 ^ 8
    let a := c.w0.toNat / 2 ^ 8 % 2 ^ 8
    let b := c.w0.toNat / 2 ^ 16 % 2 ^ 8
    let rsv := c.w0.toNat / 2 ^ 24
    if rsv ≠ 0 ∨ opc ∉ assignedOpcodes then
      step s = .next (withResult s0 (CmdResult.plain .errReserved))
    else if (opc ∉ opcodesUsingA ∧ a ≠ 0) ∨ (opc ∉ opcodesUsingB ∧ b ≠ 0) then
      step s = .next (withResult s0 (CmdResult.plain .errReserved))
    else if opc ∉ opcodesTakingData ∧ c.data ≠ [] then
      step s = .next (withResult s0 (CmdResult.plain .errContract))
    else if s.cfg.par.maxInBytes < c.data.length then
      step s = .next (withResult s0 (CmdResult.plain .errResource))
    else ∃ i : Instr, step s = exec i s0 ∧ (opcodeOf i).toNat = opc ∧ i.operandA.toNat = a ∧
      i.operandB.toNat = b ∧ i.dataIn = c.data ∧
      i.immediate = if i.usesImm then c.w1 else 0

/-- R88: the spec's three example commands, encoded and decoded. -/
def Obligations.SpecCommandWords : Prop :=
  encode (.cbWrite 12 0xABC) = { w0 := 0x00000C13, w1 := 0x00000ABC, data := [] } ∧
  (encode (.fdEncode 3 1)).w0 = 0x00010323 ∧ (encode (.fdEncode 3 1)).data = [] ∧
  encode (.rxTimerFire 1 7) = { w0 := 0x00000109, w1 := 7, data := [] } ∧
  ∀ maxIn : Nat,
    decode maxIn { w0 := 0x00000C13, w1 := 0x00000ABC, data := [] } = .ok (.cbWrite 12 0xABC) ∧
    (∀ v, decode maxIn { w0 := 0x00010323, w1 := v, data := [] } = .ok (.fdEncode 3 1)) ∧
    decode maxIn { w0 := 0x00000109, w1 := 7, data := [] } = .ok (.rxTimerFire 1 7)

/-- R13, R22, R80, R296: a step holds the state while nothing is delivered, and runs the command it is
given; `withFetchWord` (log 11) delivers a table row's word as the next command. -/
def Obligations.StepRunsTheDecodedCommand : Prop :=
  ∀ s : State, CfgOk s →
    (s.port = [] → step s = .next s) ∧
    (∀ c rest i, s.port = .command c :: rest → decode s.cfg.par.maxInBytes c = .ok i →
      step s = exec i (withPort s rest)) ∧
    (∀ nbits w i, decodeTableWord nbits w = some i →
      step (s.withFetchWord nbits w) = exec i s)

/-- R310: the reset input sets every part of R20 to its reset value, emits no event and keeps the
configuration. -/
def Obligations.ResetInputResetsEverything : Prop :=
  ∀ (s : State) (rest : List PortInput), CfgOk s → s.port = .reset :: rest →
    ∃ t, step s = .next t ∧ IsReset t ∧ t.cfg = s.cfg ∧ t.port = rest ∧
      (∀ p, Memory.bit t.cod.cbuf p = false) ∧ t.tx.state = .init ∧ txLen t = 0 ∧
      (∀ i < t.cfg.par.nRx, rxSlot t i = RxSlot.reset) ∧
      ∀ r, t.result = some r → r.events = []

/-- R20, R268, R311: the reset state is legal and idle under every configuration within the spec, the
one of State.reset (log 1) among them; RESET implies TX_IDLE, RX_ALL_FREE and NO_PENDING. That a
schedule is live exactly while its connection is armed is the model's reading (log 17). -/
def Obligations.LegalAtReset : Prop :=
  (∀ cfg : Config, paramsOk cfg.par → ctxOk cfg.ctx →
    Legal (State.resetWith cfg) ∧ IsReset (State.resetWith cfg)) ∧
  Legal State.reset ∧ ∀ s : State, IsReset s →
    TxIdle s ∧ RxAllFree s ∧ NoPending s ∧ TxTimerOk s

/-- R45, I6: a context that breaks CTX_OK (a), (b), (c) or (e) is refused; (d) has no place in the
layout (log 5). -/
def Obligations.ContextOutsideSpecRefused : Prop :=
  ∀ s : State, paramsOk s.cfg.par →
    ((∃ r ∈ ruleIds s.cfg.ctx, 2 ^ r.ridw ≤ r.ruleId ∨ 32 < r.ridw) ∨
      ¬ (ruleIds s.cfg.ctx).Nodup ∨
      (∃ f ∈ s.cfg.ctx.fd, f.tv.length ≠ (if f.mo = 3 then f.x else 1) ∨
        ∃ v ∈ f.tv, 2 ^ f.fl ≤ v)) →
    step s = .refused .contextNotOk

/-! ### The whole machine -/

/-- R281: a command that ends with a status of 0x80 or above leaves the state as it was, with no event,
R0 = R1 = 0 and no DATA_OUT. -/
def Obligations.ErrorChangesNothing : Prop :=
  ∀ (c : Command) (s t : State) (r : CmdResult),
    runCommand c s = .next t → t.result = some r → 0x80 ≤ r.status.code.toNat →
    t = { s with result := some r } ∧ r.events = [] ∧ r.r0 = 0 ∧ r.r1 = 0 ∧ r.dataOut = []

/-- R297, R299: every command, whatever its operands and data, answers a next state with a result:
no fault, no refusal. -/
def Obligations.EveryCommandAnswers : Prop :=
  ∀ (i : Instr) (s : State), TxExchangeOk s →
    ∃ t r, exec i s = .next t ∧ t.result = some r

/-- R285: the errors each command can report after dispatch. -/
def Obligations.ErrorsEachCommandCanReport : Prop :=
  ∀ (i : Instr) (s t : State) (r : CmdResult),
    exec i s = .next t → t.result = some r → 0x80 ≤ r.status.code.toNat →
    r.status ∈ errorsOf i

/-- R40, R22: no input changes the configuration, and no command changes which input comes next. -/
def Obligations.ConfigurationIsReadOnly : Prop :=
  (∀ s t : State, step s = .next t → t.cfg = s.cfg) ∧
  ∀ (c : Command) (s t : State), runCommand c s = .next t → t.port = s.port

/-- R39, R318 and the head of spec/40_codec.md: what each family may write. -/
def Obligations.FamilyFrames : Prop :=
  ∀ (i : Instr) (s t : State), exec i s = .next t →
    (isCodec i = true → OnlyCodec s t ∧ ∀ r, t.result = some r → r.events = []) ∧
    (isTx i = true → OnlyTx s t) ∧
    (isRx i = true → OnlyRx s t ∧ t.rx.length = s.rx.length) ∧
    (i = .nop → OnlyResult s t)

/-- R39, R318: no family reads the state of another. -/
def Obligations.FamiliesAreIndependent : Prop :=
  ∀ (i : Instr) (s t : State) (c : Codec) (x : TxConn) (n : Byte) (l : List RxSlot),
    exec i s = .next t →
    (isCodec i = true →
      exec i { s with tx := x, dtagNext := n, rx := l } =
        .next { t with tx := x, dtagNext := n, rx := l }) ∧
    (isTx i = true →
      exec i { s with cod := c, rx := l } = .next { t with cod := c, rx := l }) ∧
    (isRx i = true →
      exec i { s with cod := c, tx := x, dtagNext := n } =
        .next { t with cod := c, tx := x, dtagNext := n })

/-- R32: DTAG_NEXT counts the TX_OUTPUTs that return SUCCESS, modulo 256; no other command writes it
and none but TX_OUTPUT reads it. -/
def Obligations.DtagNextCountsSuccess : Prop :=
  (∀ (i : Instr) (s t : State) (r : CmdResult), exec i s = .next t → t.result = some r →
    t.dtagNext.toNat =
      if r.status = .success then (s.dtagNext.toNat + 1) % 256 else s.dtagNext.toNat) ∧
  (∀ (i : Instr) (s t : State) (r : CmdResult), exec i s = .next t → t.result = some r →
    r.status = .success → ∃ a d, i = .txOutput a d) ∧
  (∀ (i : Instr) (s t : State) (n : Byte), (∀ a d, i ≠ .txOutput a d) → exec i s = .next t →
    exec i { s with dtagNext := n } = .next { t with dtagNext := n }) ∧
  ∀ cfg : Config, (State.resetWith cfg).dtagNext = 0

/-- R94, R262, R263, R264: ARMED and GEN of every connection after a command follow from its events,
event by event; a current fire has consumed the schedule first. -/
def Obligations.TimerHandlesFollowEvents : Prop :=
  ∀ (i : Instr) (s t : State) (r : CmdResult), exec i s = .next t → t.result = some r →
    timerRun .tx s.cfg.par.retxDelay
      ((if i = .txTimerFire s.tx.gen then false else s.tx.armed), s.tx.gen) r.events =
        some (t.tx.armed, t.tx.gen) ∧
    ∀ j < s.rx.length,
      timerRun (.rx j) s.cfg.par.inactDelay
        ((if j < 2 ^ 8 ∧ j < s.cfg.par.nRx ∧
              i = .rxTimerFire (BitVec.ofNat 8 j) (rxSlot s j).gen
          then false else (rxSlot s j).armed), (rxSlot s j).gen) r.events =
        some ((rxSlot t j).armed, (rxSlot t j).gen)

/-- R225: under a NO_ACK rule RX_FRAG_INPUT emits no SEND. -/
def Obligations.NoAckRxSendsNothing : Prop :=
  ∀ (d : List Byte) (s t : State) (f : Frag) (r : CmdResult),
    parseFrag s.cfg (unpack d) = .ok (some f) → f.rule.mode = 0 →
    exec (.rxFragInput d) s = .next t → t.result = some r →
    ∀ bs, Event.send bs ∉ r.events

/-! ### Invariants of every step -/

/-- R24 to R37, R190, R213, R299: from every legal state a step answers a legal state. -/
def Obligations.StepKeepsLegal : Prop :=
  ∀ s : State, Legal s → ∃ t, step s = .next t ∧ Legal t

/-- R26, with R24, R27: `0 ≤ POS ≤ CB_LEN ≤ 8*CBUF_BYTES`, CBUF lists only bytes it has, in canonical
form, and FV fits its register. -/
def Obligations.StepKeepsCodecBounds : Prop :=
  ∀ s t : State, CbufOk s → CursorOk s → FvOk s → step s = .next t →
    CbufOk t ∧ CursorOk t ∧ FvOk t

/-- R190: the TX timer is armed exactly in WAIT. -/
def Obligations.StepKeepsTxTimer : Prop :=
  (∀ s t : State, TxTimerOk s → step s = .next t → TxTimerOk t) ∧
  ∀ cfg : Config, (State.resetWith cfg).tx.state = .init ∧ (State.resetWith cfg).tx.armed = false

/-- R30 to R35, R179: the registers of an exchange that waits describe its message under its rule, and
the bounds of TX_LEN and TX_ATTEMPTS hold. -/
def Obligations.StepKeepsTxExchange : Prop :=
  ∀ s t : State, TxBoundsOk s → TxExchangeOk s → step s = .next t →
    TxBoundsOk t ∧ TxExchangeOk t

/-- R37, R38, R213, R230: every slot holds legal values, is armed exactly when it is not FREE, holds
its released values when FREE, and no two live slots have one rule and DTAG. -/
def Obligations.StepKeepsRxSlots : Prop :=
  ∀ s t : State, RxSlotsOk s → RxKeysOk s → step s = .next t → RxSlotsOk t ∧ RxKeysOk t

/-! ### Codec -/

/-- R10, R11, R12, R60, R61: `bits`, `val`, `pack` and `unpack`, by bit position. -/
def Obligations.BitStringsAndBytes : Prop :=
  (∀ n v : Nat, (bitsOf n v).length = n ∧ valOf (bitsOf n v) = v % 2 ^ n ∧
    ∀ p < n, (bitsOf n v).getD p false = v.testBit (n - 1 - p)) ∧
  (∀ s : Bits, bitsOf s.length (valOf s) = s) ∧
  (∀ d : List Byte, (unpack d).length = 8 * d.length ∧ valOf (unpack d) = bigEndian d ∧
    ∀ p, (unpack d).getD p false = byteBit d p) ∧
  ∀ s : Bits, (pack s).length = (s.length + 7) / 8 ∧ ∀ p, byteBit (pack s) p = s.getD p false

/-- R126, R127, R128: CB_LOAD, CB_CLEAR and CB_SEEK. -/
def Obligations.CbLoadClearAndSeek : Prop :=
  (∀ (d : List Byte) (s : State), CfgOk s →
    if s.cfg.par.cbufBytes < d.length then
      exec (.cbLoad d) s = .next (withResult s (CmdResult.plain .errRange))
    else ∃ t, exec (.cbLoad d) s = .next t ∧ OnlyCodec s t ∧ t.cod.fv = s.cod.fv ∧
      t.cod.cbLen.toNat = 8 * d.length ∧ t.cod.pos = 0 ∧
      (∀ p, Memory.bit t.cod.cbuf p = byteBit d p) ∧ t.result = some (CmdResult.plain .ok)) ∧
  (∀ s : State, ∃ t, exec .cbClear s = .next t ∧ OnlyCodec s t ∧ t.cod.fv = s.cod.fv ∧
    t.cod.cbLen = 0 ∧ t.cod.pos = 0 ∧ (∀ p, Memory.bit t.cod.cbuf p = false) ∧
    t.result = some (CmdResult.plain .ok)) ∧
  ∀ (p : Word) (s : State),
    if s.cod.cbLen.toNat < p.toNat then
      exec (.cbSeek p) s = .next (withResult s (CmdResult.plain .errRange))
    else exec (.cbSeek p) s =
      .next (withResult { s with cod := { s.cod with pos := p } } (CmdResult.plain .ok))

/-- R121, R125, R129, R132: CB_WRITE and CB_APPEND. -/
def Obligations.CbWriteAndAppendStoreBits : Prop :=
  ∀ s : State, CfgOk s → CbufOk s →
    (∀ (a : Byte) (v : Word),
      if 32 < a.toNat ∨ 8 * s.cfg.par.cbufBytes < s.cod.pos.toNat + a.toNat then
        exec (.cbWrite a v) s = .next (withResult s (CmdResult.plain .errRange))
      else ∃ t, exec (.cbWrite a v) s = .next t ∧ Wrote s t a.toNat v.toNat ∧
        t.result = some (CmdResult.plain .ok)) ∧
    ∀ d : List Byte,
      if 8 * s.cfg.par.cbufBytes < s.cod.pos.toNat + 8 * d.length then
        exec (.cbAppend d) s = .next (withResult s (CmdResult.plain .errRange))
      else ∃ t, exec (.cbAppend d) s = .next t ∧ Wrote s t (8 * d.length) (bigEndian d) ∧
        t.result = some (CmdResult.plain .ok)

/-- R122, R125, R130: CB_READ. -/
def Obligations.CbReadReturnsBits : Prop :=
  ∀ (a : Byte) (s : State),
    if 32 < a.toNat ∨ s.cod.cbLen.toNat < s.cod.pos.toNat + a.toNat then
      exec (.cbRead a) s = .next (withResult s (CmdResult.plain .errRange))
    else ∃ t r, exec (.cbRead a) s = .next t ∧ Moved s t a.toNat ∧ t.result = some r ∧
      r = { CmdResult.plain .ok with r0 := r.r0 } ∧
      r.r0.toNat = fieldAt s.cod.cbuf s.cod.pos.toNat a.toNat ∧
      ∀ j < 32, r.r0.getLsbD j =
        (decide (j < a.toNat) &&
          Memory.bit s.cod.cbuf (s.cod.pos.toNat + (a.toNat - 1 - j)))

/-- R63: what a read of `m` bits gives after a write of `n` bits at the same position. -/
def Obligations.MixedWidthAccess : Prop :=
  ∀ (n m : Byte) (v : Word) (s : State), CfgOk s → CbufOk s →
    n.toNat ≤ 32 → m.toNat ≤ 32 → s.cod.pos.toNat + n.toNat ≤ 8 * s.cfg.par.cbufBytes →
    s.cod.pos.toNat + m.toNat ≤ max s.cod.cbLen.toNat (s.cod.pos.toNat + n.toNat) →
    ∃ t1 t2 t3 r, exec (.cbWrite n v) s = .next t1 ∧ exec (.cbSeek s.cod.pos) t1 = .next t2 ∧
      exec (.cbRead m) t2 = .next t3 ∧ t3.result = some r ∧
      r.r0.toNat =
        if m.toNat ≤ n.toNat then v.toNat % 2 ^ n.toNat / 2 ^ (n.toNat - m.toNat)
        else v.toNat % 2 ^ n.toNat * 2 ^ (m.toNat - n.toNat) +
          fieldAt s.cod.cbuf (s.cod.pos.toNat + n.toNat) (m.toNat - n.toNat)

/-- R131, R133: CB_UNLOAD and CB_TAIL. -/
def Obligations.CbUnloadAndTail : Prop :=
  ∀ s : State, CursorOk s →
    (∃ r, exec .cbUnload s = .next (withResult s r) ∧
      r = { CmdResult.plain .ok with r0 := s.cod.cbLen, dataOut := r.dataOut } ∧
      r.dataOut.length = (s.cod.cbLen.toNat + 7) / 8 ∧
      ∀ p, byteBit r.dataOut p =
        (decide (p < s.cod.cbLen.toNat) && Memory.bit s.cod.cbuf p)) ∧
    ∃ r, exec .cbTail s = .next (withResult s r) ∧
      r = { CmdResult.plain .ok with r0 := r.r0, dataOut := r.dataOut } ∧
      r.r0.toNat = s.cod.cbLen.toNat - s.cod.pos.toNat ∧
      r.dataOut.length = (s.cod.cbLen.toNat - s.cod.pos.toNat + 7) / 8 ∧
      ∀ p, byteBit r.dataOut p =
        (decide (p < s.cod.cbLen.toNat - s.cod.pos.toNat) &&
          Memory.bit s.cod.cbuf (s.cod.pos.toNat + p))

/-- R134, R135: FV_LOAD and FV_STORE. -/
def Obligations.FvLoadAndStore : Prop :=
  (∀ (d : List Byte) (s : State),
    if s.cfg.par.maxFieldBits < 8 * d.length then
      exec (.fvLoad d) s = .next (withResult s (CmdResult.plain .errRange))
    else exec (.fvLoad d) s =
      .next (withResult { s with cod := { s.cod with fv := bigEndian d } }
        (CmdResult.plain .ok))) ∧
  ∀ (a : Byte) (s : State),
    if s.cfg.par.maxFieldBits < 8 * a.toNat then
      exec (.fvStore a) s = .next (withResult s (CmdResult.plain .errRange))
    else ∃ r, exec (.fvStore a) s = .next (withResult s r) ∧
      r = { CmdResult.plain .ok with r0 := r.r0, dataOut := r.dataOut } ∧
      r.r0.toNat = a.toNat ∧ r.dataOut.length = a.toNat ∧
      bigEndian r.dataOut = s.cod.fv % 2 ^ (8 * a.toNat)

/-- R123, R124, R284: the checks FD_MATCH, FD_ENCODE and FD_DECODE share, in their order, and what
they answer for a descriptor that does not apply. -/
def Obligations.FdChecksInOrder : Prop :=
  ∀ (a b : Byte) (s : State) (i : Instr), i ∈ [Instr.fdMatch a b, .fdEncode a b, .fdDecode a b] →
    if b ≠ 1 ∧ b ≠ 2 then exec i s = .next (withResult s (CmdResult.plain .errReserved))
    else if s.cfg.ctx.fd.length ≤ a.toNat then
      exec i s = .next (withResult s (CmdResult.plain .errLookup))
    else ∃ f, s.cfg.ctx.fd[a.toNat]? = some f ∧
      (¬ fieldDescOk s.cfg.par f → exec i s = .next (withResult s (CmdResult.plain .errConfig))) ∧
      (fieldDescOk s.cfg.par f → f.di ≠ 3 → f.di.toNat ≠ b.toNat →
        exec i s = .next (withResult s
          { CmdResult.plain .ok with r0 := if i = .fdMatch a b then 1 else 0 })) ∧
      (fieldDescOk s.cfg.par f → (f.di = 3 ∨ f.di.toNat = b.toNat) → 2 ^ f.fl ≤ s.cod.fv →
        i ≠ .fdDecode a b → exec i s = .next (withResult s (CmdResult.plain .errRange)))

/-- R136: FD_MATCH on an applicable descriptor, by matching operator. -/
def Obligations.FdMatchTestsOperator : Prop :=
  ∀ (a b : Byte) (s : State) (f : FieldDesc), CfgOk s → (b = 1 ∨ b = 2) →
    s.cfg.ctx.fd[a.toNat]? = some f → fieldDescOk s.cfg.par f →
    (f.di = 3 ∨ f.di.toNat = b.toNat) → s.cod.fv < 2 ^ f.fl →
    ∃ r, exec (.fdMatch a b) s = .next (withResult s r) ∧
      r = { CmdResult.plain .ok with r0 := r.r0, r1 := r.r1 } ∧ (r.r0 = 0 ∨ r.r0 = 1) ∧
      (f.mo = 0 → r.r0 = 1 ∧ r.r1 = 0) ∧
      (f.mo = 1 → (r.r0 = 1 ↔ f.tv[0]? = some s.cod.fv) ∧ r.r1 = 0) ∧
      (f.mo = 2 → (r.r0 = 1 ↔ ∃ v, f.tv[0]? = some v ∧
        s.cod.fv / 2 ^ (f.fl - f.x) = v / 2 ^ (f.fl - f.x)) ∧ r.r1 = 0) ∧
      (f.mo = 3 → (r.r0 = 1 ↔ s.cod.fv ∈ f.tv) ∧ (r.r0 = 0 → r.r1 = 0) ∧
        (r.r0 = 1 → f.tv[r.r1.toNat]? = some s.cod.fv ∧
          ∀ n < r.r1.toNat, f.tv[n]? ≠ some s.cod.fv))

/-- R137, with R121, R125: FD_ENCODE on an applicable descriptor writes the residue of its action. -/
def Obligations.FdEncodeWritesResidue : Prop :=
  ∀ (a b : Byte) (s : State) (f : FieldDesc), CfgOk s → CbufOk s → (b = 1 ∨ b = 2) →
    s.cfg.ctx.fd[a.toNat]? = some f → fieldDescOk s.cfg.par f →
    (f.di = 3 ∨ f.di.toNat = b.toNat) → s.cod.fv < 2 ^ f.fl →
    let writes := fun n v : Nat =>
      if 8 * s.cfg.par.cbufBytes < s.cod.pos.toNat + n then
        exec (.fdEncode a b) s = .next (withResult s (CmdResult.plain .errRange))
      else ∃ t, exec (.fdEncode a b) s = .next t ∧ Wrote s t n v ∧
        t.result = some { CmdResult.plain .ok with r0 := BitVec.ofNat 32 n }
    (f.cda = 0 ∨ f.cda = 4 ∨ f.cda = 5 → writes 0 0) ∧
    (f.cda = 1 → writes f.fl s.cod.fv) ∧
    (f.cda = 2 → s.cod.fv ∉ f.tv →
      exec (.fdEncode a b) s = .next (withResult s (CmdResult.plain .errNoMatch))) ∧
    (f.cda = 2 → ∀ n, f.tv[n]? = some s.cod.fv → (∀ k < n, f.tv[k]? ≠ some s.cod.fv) →
      ∃ w, 2 ^ w ≥ f.x ∧ (∀ u < w, 2 ^ u < f.x) ∧ n < 2 ^ w ∧ writes w n) ∧
    (f.cda = 3 → writes (f.fl - f.x) (s.cod.fv % 2 ^ (f.fl - f.x)))

/-- R138, with R125: FD_DECODE on an applicable descriptor, by action. -/
def Obligations.FdDecodeReadsResidue : Prop :=
  ∀ (a b : Byte) (s : State) (f : FieldDesc), (b = 1 ∨ b = 2) →
    s.cfg.ctx.fd[a.toNat]? = some f → fieldDescOk s.cfg.par f →
    (f.di = 3 ∨ f.di.toNat = b.toNat) →
    let sets := fun (n v : Nat) (r1 : Word) => ∃ t, exec (.fdDecode a b) s = .next t ∧
      t = { s with cod := { s.cod with pos := t.cod.pos, fv := v }, result := t.result } ∧
      t.cod.pos.toNat = s.cod.pos.toNat + n ∧
      t.result = some { CmdResult.plain .ok with r0 := BitVec.ofNat 32 n, r1 := r1 }
    let reads := fun (n : Nat) (v : Nat → Nat) =>
      if s.cod.cbLen.toNat < s.cod.pos.toNat + n then
        exec (.fdDecode a b) s = .next (withResult s (CmdResult.plain .errRange))
      else sets n (v (fieldAt s.cod.cbuf s.cod.pos.toNat n)) 0
    (f.cda = 0 → ∀ v, f.tv[0]? = some v → sets 0 v 0) ∧
    (f.cda = 4 ∨ f.cda = 5 → sets 0 0 1) ∧
    (f.cda = 1 → reads f.fl (fun v => v)) ∧
    (f.cda = 2 → ∃ w, 2 ^ w ≥ f.x ∧ (∀ u < w, 2 ^ u < f.x) ∧
      if s.cod.pos.toNat + w ≤ s.cod.cbLen.toNat ∧
          f.x ≤ fieldAt s.cod.cbuf s.cod.pos.toNat w then
        exec (.fdDecode a b) s = .next (withResult s (CmdResult.plain .errRange))
      else reads w (fun v => f.tv.getD v 0)) ∧
    (f.cda = 3 → ∀ v0, f.tv[0]? = some v0 →
      reads (f.fl - f.x)
        (fun v => v0 / 2 ^ (f.fl - f.x) * 2 ^ (f.fl - f.x) + v))

/-- R143: a field value that matches its descriptor is decoded from its own residue, for every action
but COMPUTE-*; NOT-SENT needs EQUAL, or the target value itself. -/
def Obligations.FieldRoundTrip : Prop :=
  ∀ (a b : Byte) (s m t : State) (f : FieldDesc) (v : Nat) (r : CmdResult),
    CfgOk s → CbufOk s →
    s.cfg.ctx.fd[a.toNat]? = some f → (f.di = 3 ∨ f.di.toNat = b.toNat) →
    f.cda ≠ 4 → f.cda ≠ 5 → (f.cda = 0 → f.mo = 1 ∨ f.tv[0]? = some s.cod.fv) →
    exec (.fdMatch a b) s = .next m → m.result = some r → r.status = .ok → r.r0 = 1 →
    exec (.fdEncode a b) s = .next t →
    (∀ e, t.result = some e → e.status = .ok) →
    ∃ t1 t2, exec (.cbSeek s.cod.pos) t = .next t1 ∧
      exec (.fdDecode a b) { t1 with cod := { t1.cod with fv := v } } = .next t2 ∧
      t2.cod.fv = s.cod.fv ∧ t2.cod.pos = t.cod.pos

/-- R139, with R121, R125: RID_WRITE. -/
def Obligations.RidWriteWritesRuleId : Prop :=
  ∀ (a b : Byte) (s : State), CfgOk s → CbufOk s →
    if 2 < b.toNat then exec (.ridWrite a b) s = .next (withResult s (CmdResult.plain .errReserved))
    else
      let named : Option RuleId :=
        if b.toNat = 0 then s.cfg.ctx.uncomp.filter (fun _ => a.toNat = 0)
        else if b.toNat = 1 then (s.cfg.ctx.comp.map (·.rid))[a.toNat]?
        else (s.cfg.ctx.frag.map (·.rid))[a.toNat]?
      (named = none →
        exec (.ridWrite a b) s = .next (withResult s (CmdResult.plain .errLookup))) ∧
      ∀ r, named = some r →
        if 8 * s.cfg.par.cbufBytes < s.cod.pos.toNat + r.ridw then
          exec (.ridWrite a b) s = .next (withResult s (CmdResult.plain .errRange))
        else ∃ t, exec (.ridWrite a b) s = .next t ∧ Wrote s t r.ridw r.ruleId ∧
          t.result = some { CmdResult.plain .ok with r0 := BitVec.ofNat 32 r.ridw }

/-- R140, R321: RID_LOOKUP takes the first rule of the selected kinds, in order, whose ID stands at
POS within the valid content. -/
def Obligations.RidLookupFirstMatchWins : Prop :=
  ∀ (b : Byte) (s : State),
    let rules := fun kind : Nat =>
      if kind = 0 then s.cfg.ctx.uncomp.toList
      else if kind = 1 then s.cfg.ctx.comp.map (·.rid) else s.cfg.ctx.frag.map (·.rid)
    let found := fun (kind n : Nat) (r : RuleId) =>
      kind < 3 ∧ b.toNat.testBit kind = true ∧ (rules kind)[n]? = some r ∧
      s.cod.pos.toNat + r.ridw ≤ s.cod.cbLen.toNat ∧
      fieldAt s.cod.cbuf s.cod.pos.toNat r.ridw = r.ruleId
    if b.toNat = 0 ∨ 7 < b.toNat then
      exec (.ridLookup b) s = .next (withResult s (CmdResult.plain .errReserved))
    else
      ((∀ kind n r, ¬ found kind n r) →
        exec (.ridLookup b) s = .next (withResult s (CmdResult.plain .errLookup))) ∧
      ∀ kind n r, found kind n r →
        (∀ kind' n' r', found kind' n' r' → kind < kind' ∨ (kind = kind' ∧ n ≤ n')) →
        ∃ t, exec (.ridLookup b) s = .next t ∧ Moved s t r.ridw ∧
          t.result = some { CmdResult.plain .ok with
            r0 := BitVec.ofNat 32 kind, r1 := BitVec.ofNat 32 n }

/-! ### Control and queries -/

/-- R260, R186, R187, R232, R67: NOP, TX_ABORT, TX_QUERY and RX_QUERY answer in every state; and the
queries and reads that are idempotent. -/
def Obligations.NopAbortAndQueriesAnswer : Prop :=
  (∀ s : State,
    exec .nop s = .next (withResult s (CmdResult.plain .ok)) ∧
    exec .txAbort s =
      .next (withResult { s with tx := { s.tx with state := .init, armed := false } }
        { CmdResult.plain .ok with events := if s.tx.armed then [.cancel .tx] else [] }) ∧
    exec .txQuery s = .next (withResult s { CmdResult.plain .ok with
      r0 := if s.tx.state = .wait then 1 else 0
      r1 := match s.tx.state with
        | .init => 0
        | .wait => 1
        | .ended => 2
        | .aborted => 3 }) ∧
    ∀ a : Byte,
      if s.cfg.par.nRx ≤ a.toNat then
        exec (.rxQuery a) s = .next (withResult s (CmdResult.plain .errRange))
      else ∃ r, exec (.rxQuery a) s = .next (withResult s r) ∧
        r = { CmdResult.plain .ok with r0 := r.r0, r1 := r.r1 } ∧
        r.r0 = (match (rxSlot s a.toNat).state with
          | .free => 0
          | .recv => 1
          | .done => 2) ∧
        r.r1.toNat = (rxSlot s a.toNat).rule.toNat + 2 ^ 8 * (rxSlot s a.toNat).dtag.toNat +
          2 ^ 16 * (rxSlot s a.toNat).all1.toNat +
          2 ^ 17 * (rxSlot s a.toNat).micRounds.toNat) ∧
  ∀ (i : Instr) (a : Byte) (s t : State),
    i ∈ [Instr.nop, .txQuery, .rxQuery a, .cbUnload, .cbTail, .fvStore a] →
    exec i s = .next t → OnlyResult s t ∧ exec i t = .next t

/-! ### TX -/

/-- R176, R179, R284, R323: TX_OUTPUT's checks in their order; a message shorter than MTU is reported
first, in every state. -/
def Obligations.TxOutputChecksInOrder : Prop :=
  ∀ (a : Byte) (d : List Byte) (s : State),
    let ends := fun st : Status =>
      exec (.txOutput a d) s = .next (withResult s (CmdResult.plain st))
    if d.length < s.cfg.par.mtu then ends .noFragmentation
    else if s.tx.state = .wait then ends .errBusy
    else if s.cfg.ctx.frag.length ≤ a.toNat then ends .errLookup
    else ∃ r, s.cfg.ctx.frag[a.toNat]? = some r ∧
      if r.dir ≠ 3 ∧ r.dir.toNat ≠ dirCode s.cfg.par.txDir then ends .errContract
      else if ¬ fragRuleOk r ∨ 8 * s.cfg.par.mtu < hdrBits r + 1 ∨
          8 * s.cfg.par.mtu < hdrBits r + 32 then ends .errConfig
      else if s.cfg.par.txMaxBytes < d.length then ends .errResource
      else if 1 ≤ r.m ∧
          2 ^ r.m < ceilDiv (8 * d.length) (8 * s.cfg.par.mtu - hdrBits r) / r.ws + 1 then
        ends .errTooLarge
      else ∃ t, exec (.txOutput a d) s = .next t ∧ ∃ x, t.result = some x ∧ x.status = .success

/-- R171, R174, R175, R179: what a TX_OUTPUT that passes its checks does, by mode. Where 32 bits hold
`k` and 8 bits hold `wl` the registers hold them; the rest is free (log 6). -/
def Obligations.TxOutputStartsExchange : Prop :=
  ∀ (a : Byte) (d : List Byte) (s : State) (r : FragRule),
    s.cfg.par.mtu ≤ d.length → s.tx.state ≠ .wait → s.cfg.ctx.frag[a.toNat]? = some r →
    serves r s.cfg.par.txDir → fragRuleOk r → mtuFits s.cfg.par.mtu r →
    d.length ≤ s.cfg.par.txMaxBytes →
    let k := ceilDiv (8 * d.length) (8 * s.cfg.par.mtu - hdrBits r)
    let wl := k / r.ws
    ¬ (1 ≤ r.m ∧ 2 ^ r.m < wl + 1) →
    ∃ t x, exec (.txOutput a d) s = .next t ∧ OnlyTx s t ∧
      t.result = some x ∧ x = { CmdResult.plain .success with events := x.events } ∧
      t.tx.rule = a ∧ t.tx.msg = d ∧ t.tx.dtag.toNat = s.dtagNext.toNat % 2 ^ r.t ∧
      t.dtagNext = s.dtagNext + 1 ∧ t.tx.attempts = 0 ∧ t.tx.micRounds = false ∧
      (k < 2 ^ 32 → t.tx.k.toNat = k) ∧ (wl < 2 ^ 8 → t.tx.wl.toNat = wl) ∧
      (1 ≤ r.m → k < 2 ^ 32 ∧ wl < 2 ^ 8) ∧
      (r.mode = 0 → t.tx.state = .ended ∧ t.tx.win = t.tx.wl ∧ t.tx.armed = s.tx.armed ∧
        t.tx.gen = s.tx.gen ∧ x.events = txAll t r) ∧
      (r.mode = 1 → t.tx.state = .wait ∧ t.tx.win = 0 ∧ t.tx.armed = true ∧
        t.tx.gen = s.tx.gen + 1 ∧
        x.events = txWindow t r 0 ++ arming .tx s.cfg.par.retxDelay s.tx.armed s.tx.gen) ∧
      (r.mode = 2 → t.tx.state = .wait ∧ t.tx.win = t.tx.wl ∧ t.tx.armed = true ∧
        t.tx.gen = s.tx.gen + 1 ∧
        x.events = txAll t r ++ arming .tx s.cfg.par.retxDelay s.tx.armed s.tx.gen)

/-- R171, R92: the tiles of a message join to it, each but the last of `Tb` bits, and every regular
fragment but the last is MTU bytes long. -/
def Obligations.TilesMakeTheMessage : Prop :=
  ∀ (mtu : Nat) (r : FragRule) (d : List Byte), mtuFits mtu r →
    let tb := 8 * mtu - hdrBits r
    let k := ceilDiv (8 * d.length) tb
    (List.range k).flatMap (tile mtu r d) = unpack d ∧
    (∀ j, j + 1 < k → (tile mtu r d j).length = tb) ∧
    (∀ j, j + 1 = k → 1 ≤ (tile mtu r d j).length ∧ (tile mtu r d j).length ≤ tb) ∧
    ∀ dtag j, j + 1 < k → (fragment mtu r dtag d j).length = mtu

/-- R89, R90, R172, R212: RX reads a fragment on the wire as what it carries, its tile with the padding
of `pack`, and an All-1 with whatever follows its MIC. -/
def Obligations.WireFormatIsParsed : Prop :=
  ∀ (cfg : Config) (ri : Nat) (r : FragRule) (dtag w : Nat),
    cfg.ctx.frag[ri]? = some r → serves r (otherDir cfg.par.txDir) → fragRuleOk r →
    dtag < 2 ^ r.t → w < 2 ^ r.m →
    (∀ (q : Nat) (tl : Bits), q < r.ws → tl ≠ [] →
      let b := bitsOf r.rid.ridw r.rid.ruleId ++ bitsOf r.t dtag ++ bitsOf r.m w ++
        bitsOf r.n (r.ws - 1 - q) ++ tl
      (∀ n < ri, ∀ g, cfg.ctx.frag[n]? = some g →
        ¬ opensWith (otherDir cfg.par.txDir) (unpack (pack b)) g) →
      parseFrag cfg (unpack (pack b)) = .ok (some
        { ri := ri, rule := r, dt := dtag, w := w
          body := .reg q (tl ++ zeros ((8 - b.length % 8) % 8)) })) ∧
    ∀ (mic : Word) (extra : Bits),
      let b := bitsOf r.rid.ridw r.rid.ruleId ++ bitsOf r.t dtag ++ bitsOf r.m w ++
        bitsOf r.n (2 ^ r.n - 1) ++ bitsOf 32 mic.toNat ++ extra
      (∀ n < ri, ∀ g, cfg.ctx.frag[n]? = some g →
        ¬ opensWith (otherDir cfg.par.txDir) (unpack (pack b)) g) →
      parseFrag cfg (unpack (pack b)) = .ok (some
        { ri := ri, rule := r, dt := dtag, w := w, body := .all1 mic })

/-- R91, R180, R218: TX accepts the ACK RX sends for a window it can name, and reads its fields as
RX wrote them. -/
def Obligations.AckFormatIsRead : Prop :=
  ∀ (s : State) (r : FragRule) (w : Nat) (bm : Bits) (c : Option Bool) (bytes : List Byte),
    fragRuleOk r → s.tx.dtag.toNat < 2 ^ r.t → w < 2 ^ r.m → bm.length = r.ws →
    w ≤ s.tx.wl.toNat → (isAckAlways r → w = s.tx.win.toNat) →
    (w = s.tx.wl.toNat → c ≠ none) →
    sendAck r s.tx.dtag w bm c = .send bytes →
    ackAccepted s r (unpack bytes) ∧ (ackFields r (unpack bytes)).w = w ∧
    (ackFields r (unpack bytes)).bm = bm ∧
    ∀ v, c = some v → (ackFields r (unpack bytes)).c = v

/-- R180, R181, C3: an ACK outside WAIT is a contract error in INIT and ignored in END and ABORTED; in
WAIT one that TX does not accept is ignored. That R0 of an ignored ACK is TX_STATE is the model's choice
(log 15): the prose of R181 and R294 say so, the pseudocode of R181 and the vectors give no value. -/
def Obligations.TxAckNotHandled : Prop :=
  ∀ (d : List Byte) (s : State),
    (s.tx.state = .init →
      exec (.txAckInput d) s = .next (withResult s (CmdResult.plain .errContract))) ∧
    (s.tx.state = .ended → exec (.txAckInput d) s =
      .next (withResult s { CmdResult.plain .ignored with r0 := 2 })) ∧
    (s.tx.state = .aborted → exec (.txAckInput d) s =
      .next (withResult s { CmdResult.plain .ignored with r0 := 3 })) ∧
    (s.tx.state = .wait → ∀ r, s.cfg.ctx.frag[s.tx.rule.toNat]? = some r →
      let b := unpack d
      let need := r.rid.ridw + r.t + r.m + r.ws
      let w := valAt b (r.rid.ridw + r.t) r.m
      (b.length < need ∨ valAt b 0 r.rid.ridw ≠ r.rid.ruleId ∨
        valAt b r.rid.ridw r.t ≠ s.tx.dtag.toNat ∨ s.tx.wl.toNat < w ∨
        (r.mode = 1 ∧ w ≠ s.tx.win.toNat) ∨ (w = s.tx.wl.toNat ∧ b.length = need)) →
      exec (.txAckInput d) s = .next (withResult s { CmdResult.plain .ignored with r0 := 1 }))

/-- R181, R182, R189: an accepted ACK of a window before the last. -/
def Obligations.TxAckOfEarlierWindow : Prop :=
  ∀ (d : List Byte) (s : State) (r : FragRule), TxExchangeOk s → s.tx.state = .wait →
    s.cfg.ctx.frag[s.tx.rule.toNat]? = some r → ackAccepted s r (unpack d) →
    let w := (ackFields r (unpack d)).w
    let bm := (ackFields r (unpack d)).bm
    w < s.tx.wl.toNat →
    let marked := (List.range r.ws).filter (fun q => bm.getD q false)
    let s0 := { s with tx := { s.tx with attempts := 0 } }
    let armed := { s0.tx with armed := true, gen := s.tx.gen + 1 }
    let timer := arming .tx s.cfg.par.retxDelay s.tx.armed s.tx.gen
    let handled := fun evs : List Event =>
      { CmdResult.plain .ackHandled with r0 := 1, events := evs }
    (marked ≠ [] → exec (.txAckInput d) s =
      .next (withResult { s0 with tx := armed }
        (handled ((marked.filter (fun q => q ≠ r.ws - 1)).map
            (fun q => txFragment s r (w * r.ws + q)) ++
          [txFragment s r (w * r.ws + r.ws - 1)] ++ timer)))) ∧
    (marked = [] → r.mode = 1 → exec (.txAckInput d) s =
      .next (withResult { s0 with tx := { armed with win := BitVec.ofNat 8 (w + 1) } }
        (handled (txWindow s r (w + 1) ++ timer)))) ∧
    (marked = [] → r.mode = 2 → exec (.txAckInput d) s = .next (withResult s0 (handled [])))

/-- R181, R183, R189: an accepted ACK of the last window, but for the MIC round. -/
def Obligations.TxAckOfLastWindow : Prop :=
  ∀ (d : List Byte) (s : State) (r : FragRule), s.tx.state = .wait →
    s.cfg.ctx.frag[s.tx.rule.toNat]? = some r → ackAccepted s r (unpack d) →
    let a := ackFields r (unpack d)
    a.w = s.tx.wl.toNat →
    let rl := s.tx.k.toNat - s.tx.wl.toNat * r.ws
    let marked := (List.range rl).filter (fun q => a.bm.getD q false)
    let s0 := { s with tx := { s.tx with attempts := 0 } }
    (a.c = true → exec (.txAckInput d) s =
      .next (withResult { s0 with tx := { s0.tx with state := .ended, armed := false } }
        { CmdResult.plain .ackHandled with
          r0 := 2, events := if s.tx.armed then [.cancel .tx] else [] })) ∧
    (a.c = false → marked ≠ [] → exec (.txAckInput d) s =
      .next (withResult { s0 with tx := { s0.tx with armed := true, gen := s.tx.gen + 1 } }
        { CmdResult.plain .ackHandled with
          r0 := 1
          events := marked.map (fun q => txFragment s r (s.tx.wl.toNat * r.ws + q)) ++
            [txAll1 s r] ++ arming .tx s.cfg.par.retxDelay s.tx.armed s.tx.gen }))

/-- R183, R184: an accepted final ACK with C = 0 and no tile marked starts the one MIC round, or ends
the exchange if that round has been used. -/
def Obligations.TxMicRoundOnce : Prop :=
  ∀ (d : List Byte) (s : State) (r : FragRule), TxExchangeOk s → s.tx.state = .wait →
    s.cfg.ctx.frag[s.tx.rule.toNat]? = some r → ackAccepted s r (unpack d) →
    let a := ackFields r (unpack d)
    a.w = s.tx.wl.toNat → a.c = false →
    (∀ q < s.tx.k.toNat - s.tx.wl.toNat * r.ws, a.bm.getD q false = false) →
    let armed := { s.tx with
      attempts := 0, micRounds := true, armed := true, gen := s.tx.gen + 1 }
    let timer := arming .tx s.cfg.par.retxDelay s.tx.armed s.tx.gen
    let handled := fun evs : List Event =>
      { CmdResult.plain .ackHandled with r0 := 1, events := evs }
    (s.tx.micRounds = false → r.mode = 1 → exec (.txAckInput d) s =
      .next (withResult { s with tx := { armed with win := 0 } }
        (handled (txWindow s r 0 ++ timer)))) ∧
    (s.tx.micRounds = false → r.mode = 2 → exec (.txAckInput d) s =
      .next (withResult { s with tx := armed } (handled (txAll s r ++ timer)))) ∧
    (s.tx.micRounds = true → exec (.txAckInput d) s =
      .next (withResult
        { s with tx := { s.tx with attempts := 0, state := .aborted, armed := false } }
        { CmdResult.plain .txMicFailed with
          r0 := 3, events := if s.tx.armed then [.cancel .tx] else [] }))

/-- R185, R264: TX_TIMER_FIRE. -/
def Obligations.TxTimerFireOutcomes : Prop :=
  ∀ (g : Word) (s : State), TxExchangeOk s →
    if s.tx.armed = false ∨ g ≠ s.tx.gen then
      exec (.txTimerFire g) s = .next (withResult s (CmdResult.plain .ignored))
    else if s.tx.state ≠ .wait then
      exec (.txTimerFire g) s =
        .next (withResult { s with tx := { s.tx with armed := false } } (CmdResult.plain .ignored))
    else if s.cfg.par.maxAckReq ≤ s.tx.attempts.toNat then
      exec (.txTimerFire g) s =
        .next (withResult { s with tx := { s.tx with armed := false, state := .aborted } }
          (CmdResult.plain .txTimeout))
    else ∃ r, s.cfg.ctx.frag[s.tx.rule.toNat]? = some r ∧
      exec (.txTimerFire g) s =
        .next (withResult
          { s with tx := { s.tx with attempts := s.tx.attempts + 1, gen := s.tx.gen + 1 } }
          { CmdResult.plain .resent with
            events :=
              [if s.tx.win = s.tx.wl then txAll1 s r
               else txFragment s r (s.tx.win.toNat * r.ws + r.ws - 1),
               .sched .tx s.cfg.par.retxDelay (s.tx.gen + 1)] })

/-- R75: in WAIT at most `MAX_ACK_REQ + 1` current fires with no ACK between them release the lock. -/
def Obligations.LockReleasedByFires : Prop :=
  ∀ s : State, CfgOk s → TxTimerOk s → TxBoundsOk s → TxExchangeOk s → s.tx.state = .wait →
    ∃ n t, n ≤ s.cfg.par.maxAckReq + 1 ∧ fires n s = some t ∧ t.tx.state = .aborted ∧
      t.tx.armed = false ∧ t.tx.rule = s.tx.rule ∧ t.tx.msg = s.tx.msg

/-! ### RX -/

/-- R211, R212: the errors and the absorbed messages of Parse, in their order, before any slot is
looked at. -/
def Obligations.RxParseOutcomes : Prop :=
  ∀ (d : List Byte) (s : State),
    let b := unpack d
    let opens := fun r : FragRule =>
      (r.dir = 3 ∨ r.dir.toNat = 3 - dirCode s.cfg.par.txDir) ∧ r.rid.ridw ≤ b.length ∧
        valAt b 0 r.rid.ridw = r.rid.ruleId
    let ends := fun st : Status =>
      exec (.rxFragInput d) s = .next (withResult s (CmdResult.plain st))
    ((∀ r ∈ s.cfg.ctx.frag, ¬ opens r) → ends .errLookup) ∧
    ∀ (ri : Nat) (r : FragRule), s.cfg.ctx.frag[ri]? = some r → opens r →
      (∀ n < ri, ∀ g : FragRule, s.cfg.ctx.frag[n]? = some g → ¬ opens g) →
      let f := valAt b (r.rid.ridw + r.t + r.m) r.n
      (¬ fragRuleOk r → ends .errConfig) ∧
      (fragRuleOk r →
        b.length < hdrBits r ∨ (f = 2 ^ r.n - 1 ∧ b.length < hdrBits r + 32) ∨
          (r.ws ≤ f ∧ f < 2 ^ r.n - 1) ∨ (f < r.ws ∧ b.length = hdrBits r) →
        ends .ignored)

/-- R214, R213: a fragment of no live connection needs a FREE slot and storage for its tile; then it is
handled as on the least FREE slot, opened for its rule and DTAG. -/
def Obligations.RxCreateOpensSlot : Prop :=
  ∀ (d : List Byte) (s : State) (f : Frag), CfgOk s →
    parseFrag s.cfg (unpack d) = .ok (some f) →
    (∀ x ∈ s.rx, ¬ (x.state ≠ .free ∧ x.rule.toNat = f.ri ∧ x.dtag.toNat = f.dt)) →
    let tooBig := ∃ q tl, f.body = .reg q tl ∧
      (s.cfg.par.rxMaxSlots ≤ (if f.rule.mode = 0 ∧ f.rule.m = 0 then 0 else f.w * f.rule.ws + q) ∨
        s.cfg.par.rxTileBits < tl.length)
    ((∀ x ∈ s.rx, x.state ≠ .free) ∨ tooBig →
      exec (.rxFragInput d) s = .next (withResult s (CmdResult.plain .errResource))) ∧
    (¬ tooBig → ∀ i < s.rx.length, (rxSlot s i).state = .free →
      (∀ j < i, (rxSlot s j).state ≠ .free) →
      exec (.rxFragInput d) s = exec (.rxFragInput d) (setRx s i
        { rxSlot s i with
          state := .recv, rule := BitVec.ofNat 8 f.ri, dtag := BitVec.ofNat 8 f.dt }))

/-- R215: a DONE slot answers a duplicate with STAY_ALIVE, and in an ACK mode a terminal one with the
final positive ACK; no state changes. -/
def Obligations.RxDuplicateAfterDone : Prop :=
  ∀ (d : List Byte) (s : State) (f : Frag) (i : Nat),
    parseFrag s.cfg (unpack d) = .ok (some f) → findConn s f.ri f.dt = some i →
    (rxSlot s i).state = .done →
    let x := rxSlot s i
    ((∃ q tl, f.body = .reg q tl ∧
        ((f.rule.mode = 0 ∧ f.rule.m = 0 ∧ ∃ n < x.nAppend.toNat, x.tileAt n = tl) ∨
         (¬ (f.rule.mode = 0 ∧ f.rule.m = 0) ∧
          rcvdAt s i (f.w * f.rule.ws + q) = true ∧ x.tileAt (f.w * f.rule.ws + q) = tl))) ∨
      ∃ mic, f.body = .all1 mic ∧ f.w = x.wl.toNat ∧ mic = x.mic) →
    exec (.rxFragInput d) s = .next (withResult s
      { CmdResult.plain .stayAlive with
        r0 := BitVec.ofNat 32 i
        events :=
          if f.rule.mode ≠ 0 ∧ (match f.body with
              | .reg q _ => q == f.rule.ws - 1
              | .all1 _ => true) = true then
            [sendAck f.rule x.dtag x.wl.toNat (zeros f.rule.ws) (some true)]
          else [] })

/-- R214, R215: any other fragment on a DONE slot supersedes it. What cannot be stored changes nothing;
else the slot is released, its timer's CANCEL comes first, and the fragment is handled as on the least
FREE slot opened for its rule and DTAG. -/
def Obligations.RxSupersedesDoneSlot : Prop :=
  ∀ (d : List Byte) (s : State) (f : Frag) (i : Nat), CfgOk s → RxKeysOk s →
    parseFrag s.cfg (unpack d) = .ok (some f) → findConn s f.ri f.dt = some i →
    (rxSlot s i).state = .done → isDuplicate s i f = false →
    let tooBig := ∃ q tl, f.body = .reg q tl ∧
      (s.cfg.par.rxMaxSlots ≤ (if f.rule.mode = 0 ∧ f.rule.m = 0 then 0 else f.w * f.rule.ws + q) ∨
        s.cfg.par.rxTileBits < tl.length)
    let s0 := setRx s i { RxSlot.reset with gen := (rxSlot s i).gen }
    (tooBig → exec (.rxFragInput d) s = .next (withResult s (CmdResult.plain .errResource))) ∧
    (¬ tooBig → ∀ j < s0.rx.length, (rxSlot s0 j).state = .free →
      (∀ n < j, (rxSlot s0 n).state ≠ .free) →
      ∀ t r, exec (.rxFragInput d) (setRx s0 j
          { rxSlot s0 j with
            state := .recv, rule := BitVec.ofNat 8 f.ri, dtag := BitVec.ofNat 8 f.dt }) = .next t →
        t.result = some r →
        exec (.rxFragInput d) s = .next (withResult t
          { r with events := cancelEvents (.rx i) (rxSlot s i).armed ++ r.events }))

/-- R216, R262: a regular fragment on a RECV slot. After the announced last window it is ignored,
beyond the slot's storage it releases the slot, else its tile is stored and the timer armed anew; with
no window to evaluate the answer is ONGOING. The slot may be one just opened (R214), not armed yet. -/
def Obligations.RxRegularFragment : Prop :=
  ∀ (d : List Byte) (s : State) (f : Frag) (i q : Nat) (tl : Bits),
    parseFrag s.cfg (unpack d) = .ok (some f) → findConn s f.ri f.dt = some i →
    SlotStoresOk s.cfg.par (rxSlot s i) →
    (rxSlot s i).state = .recv → f.body = .reg q tl →
    let x := rxSlot s i
    let r := f.rule
    let p := if r.mode = 0 ∧ r.m = 0 then x.nAppend.toNat else f.w * r.ws + q
    if 1 ≤ r.m ∧ x.all1 = true ∧ x.wl.toNat < f.w then
      exec (.rxFragInput d) s = .next (withResult s (slotResult .ignored i []))
    else if s.cfg.par.rxMaxSlots ≤ p ∨ s.cfg.par.rxTileBits < tl.length then
      exec (.rxFragInput d) s = .next (withResult
        (setRx s i { RxSlot.reset with gen := x.gen })
        (slotResult .rxResourceFail i (if x.armed then [.cancel (.rx i)] else [])))
    else r.mode = 0 ∨ q ≠ r.ws - 1 →
      ∃ y, TileStored r p tl x y ∧ exec (.rxFragInput d) s = .next (withResult (setRx s i y)
        (slotResult .ongoing i (arming (.rx i) s.cfg.par.inactDelay x.armed x.gen)))

/-- R216, R219, R91, R228: the All-0 of a window on a RECV slot before any All-1, in an ACK mode. The
bitmap marks exactly the positions not received; ACK_ALWAYS always sends it, ACK_ON_ERROR where it
marks one. The slot may be one just opened (R214), not armed yet: R211's example. -/
def Obligations.RxWindowAcknowledged : Prop :=
  ∀ (d : List Byte) (s : State) (f : Frag) (i : Nat) (tl : Bits),
    parseFrag s.cfg (unpack d) = .ok (some f) → findConn s f.ri f.dt = some i →
    SlotStoresOk s.cfg.par (rxSlot s i) →
    (rxSlot s i).state = .recv → f.body = .reg (f.rule.ws - 1) tl → f.rule.mode ≠ 0 →
    (rxSlot s i).all1 = false →
    let x := rxSlot s i
    let r := f.rule
    let p := f.w * r.ws + (r.ws - 1)
    p < s.cfg.par.rxMaxSlots → tl.length ≤ s.cfg.par.rxTileBits →
    ∃ y bm, TileStored r p tl x y ∧
      IsBitmap bm r.ws (fun q => !rcvdAt (setRx s i y) i (f.w * r.ws + q)) ∧
      exec (.rxFragInput d) s = .next (withResult (setRx s i y)
        (slotResult .ongoing i (arming (.rx i) s.cfg.par.inactDelay x.armed x.gen ++
          if r.mode = 1 ∨ true ∈ bm then [sendAck r x.dtag f.w bm none] else [])))

/-- R216, R217, R220, R221, R224: in an ACK mode, an All-1 on a RECV slot, and an All-0 on one that has
its All-1, run FinalEval; an All-1 that contradicts the accepted last window is ignored. The slot may
be one just opened (R214), not armed yet. -/
def Obligations.RxFinalEvaluation : Prop :=
  ∀ (d : List Byte) (s : State) (f : Frag) (i : Nat),
    parseFrag s.cfg (unpack d) = .ok (some f) → findConn s f.ri f.dt = some i →
    SlotStoresOk s.cfg.par (rxSlot s i) →
    (rxSlot s i).state = .recv → f.rule.mode ≠ 0 →
    let x := rxSlot s i
    let r := f.rule
    let timer := arming (.rx i) s.cfg.par.inactDelay x.armed x.gen
    (∀ mic, f.body = .all1 mic →
      if x.all1 = true ∧ f.w ≠ x.wl.toNat then
        exec (.rxFragInput d) s = .next (withResult s (slotResult .ignored i []))
      else ∃ t, exec (.rxFragInput d) s = .next t ∧
        FinalVerdict r i timer (setRx s i (allOneStored f.w mic x)) t) ∧
    (∀ tl, f.body = .reg (r.ws - 1) tl → x.all1 = true → f.w ≤ x.wl.toNat →
      let p := f.w * r.ws + (r.ws - 1)
      p < s.cfg.par.rxMaxSlots → tl.length ≤ s.cfg.par.rxTileBits →
      ∃ y t, TileStored r p tl x y ∧ exec (.rxFragInput d) s = .next t ∧
        FinalVerdict r i timer (setRx s i y) t)

/-- R217, R221, R223: an All-1 on a RECV slot under NO_ACK. -/
def Obligations.RxNoAckFinal : Prop :=
  ∀ (d : List Byte) (s : State) (f : Frag) (i : Nat) (mic : Word),
    parseFrag s.cfg (unpack d) = .ok (some f) → findConn s f.ri f.dt = some i →
    (rxSlot s i).state = .recv → f.rule.mode = 0 → f.body = .all1 mic →
    let x := rxSlot s i
    let r := f.rule
    if 1 ≤ r.m ∧ x.all1 = true ∧ f.w ≠ x.wl.toNat then
      exec (.rxFragInput d) s = .next (withResult s (slotResult .ignored i []))
    else ∃ t, exec (.rxFragInput d) s = .next t ∧
      NoAckVerdict r i (arming (.rx i) s.cfg.par.inactDelay x.armed x.gen)
        (setRx s i (allOneStored f.w mic x)) t

/-- R38, R230, R231, R264, R311: RX_TIMER_FIRE and RX_ABORT. -/
def Obligations.RxTimerFireAndAbort : Prop :=
  ∀ (a : Byte) (s : State),
    let x := rxSlot s a.toNat
    let released := setRx s a.toNat { RxSlot.reset with gen := x.gen }
    (∀ g : Word,
      if s.cfg.par.nRx ≤ a.toNat then
        exec (.rxTimerFire a g) s = .next (withResult s (CmdResult.plain .errRange))
      else if x.armed = false ∨ g ≠ x.gen then
        exec (.rxTimerFire a g) s = .next (withResult s (CmdResult.plain .ignored))
      else exec (.rxTimerFire a g) s = .next (withResult released
        (CmdResult.plain (if x.state = .recv then .abandoned else .ok)))) ∧
    if s.cfg.par.nRx ≤ a.toNat then
      exec (.rxAbort a) s = .next (withResult s (CmdResult.plain .errRange))
    else exec (.rxAbort a) s = .next (withResult released
      { CmdResult.plain .ok with
        events := if x.armed then [.cancel (.rx a.toNat)] else [] })

/-- R222, R171: the tiles of a message, the last with less than 8 bits of padding, reassemble to it. -/
def Obligations.ReassemblyUndoesTiling : Prop :=
  ∀ (mtu : Nat) (r : FragRule) (d : List Byte) (x : RxSlot) (pad : Bits), mtuFits mtu r →
    let k := ceilDiv (8 * d.length) (8 * mtu - hdrBits r)
    pad.length < 8 →
    (∀ j, j + 1 < k → x.tileAt j = tile mtu r d j) →
    (∀ j, j + 1 = k → x.tileAt j = tile mtu r d j ++ pad) →
    reassemble x k = d

/-- R227 without duplicates: the fragments of a message, fed in order to a receiver with no connection
for their rule and DTAG, give ONGOING for each regular one and then COMPLETED with the message, in
every mode and also under NO_ACK with `M = 0`. -/
def Obligations.FragmentationRoundTrip : Prop :=
  ∀ (mtu : Nat) (s : State) (ri : Nat) (r : FragRule) (dtag i : Nat) (d : List Byte),
    CfgOk s → RxSlotsOk s →
    s.cfg.ctx.frag[ri]? = some r → serves r (otherDir s.cfg.par.txDir) → fragRuleOk r →
    mtuFits mtu r → dtag < 2 ^ r.t →
    let k := ceilDiv (8 * d.length) (8 * mtu - hdrBits r)
    let wl := k / r.ws
    (1 ≤ r.m → wl < 2 ^ r.m) →
    k ≤ s.cfg.par.rxMaxSlots → 8 * mtu - hdrBits r ≤ s.cfg.par.rxTileBits →
    let messages := (List.range k).map (fragment mtu r dtag d) ++
      [all1Message s.cfg.par.micFn r dtag wl d]
    (∀ m ∈ messages, ∀ n < ri, ∀ g, s.cfg.ctx.frag[n]? = some g →
      ¬ opensWith (otherDir s.cfg.par.txDir) (unpack m) g) →
    findConn s ri dtag = none → findFree s = some i →
    ∃ t rs last, feed messages s = some (t, rs ++ [last]) ∧
      rs.map (·.status) = List.replicate k .ongoing ∧
      last.status = .completed ∧ last.dataOut = d ∧ last.r0 = slotWord i ∧
      (rxSlot t i).state = .done

/-! ### The schedules at the TimerPort -/

/-- R94, R261 to R264, R268: a TimerPort that held the live schedules before a command, drops the one
the command fires and obeys its events holds the live schedules after it. So a RESENT leaves one, a
timeout none, and a fire that is not current none it did not have. That a schedule is live exactly
while its connection is armed is the model's reading (log 17). -/
def Obligations.LiveSchedulesFollowEvents : Prop :=
  ∀ (i : Instr) (s t : State) (r : CmdResult), s.rx.length = s.cfg.par.nRx →
    exec i s = .next t → t.result = some r →
    ∀ x, x ∈ pendingAfter i r.events (liveSchedules s) ↔ x ∈ liveSchedules t
end

