-- ==== Sys2Proof/Laws/Bits.lean ====
section
/-!
SUPPORT. Lemmas about bit strings, values, bytes and index widths (Machine/Operands.lean).
-/

namespace Sys2Proof.Machine

/-! ### bitsOf and valOf -/

@[simp] theorem bitsOf_length (n v : Nat) : (bitsOf n v).length = n := by
  induction n with
  | zero => rfl
  | succ n ih => simp [bitsOf, ih]

theorem bitsOf_getElem (n v j : Nat) (h : j < (bitsOf n v).length) :
    (bitsOf n v)[j] = v.testBit (n - 1 - j) := by
  induction n generalizing j with
  | zero => simp [bitsOf] at h
  | succ n ih =>
    cases j with
    | zero => simp [bitsOf]
    | succ j =>
      have hj : j < (bitsOf n v).length := by simpa [bitsOf] using h
      simp only [bitsOf, List.getElem_cons_succ, ih j hj]
      congr 1
      omega

@[simp] theorem valOf_nil : valOf [] = 0 := rfl

theorem valOf_append (s t : Bits) : valOf (s ++ t) = valOf s * 2 ^ t.length + valOf t := by
  induction s with
  | nil => simp
  | cons b s ih => simp [valOf, ih, Nat.pow_add, Nat.add_mul, Nat.mul_assoc, Nat.add_assoc]

theorem valOf_lt (s : Bits) : valOf s < 2 ^ s.length := by
  induction s with
  | nil => simp
  | cons b s ih =>
    have : b.toNat ≤ 1 := by cases b <;> simp
    simp only [valOf, List.length_cons, Nat.pow_succ]
    nlinarith [Nat.mul_le_mul_right (2 ^ s.length) this]

theorem valOf_bitsOf (n v : Nat) : valOf (bitsOf n v) = v % 2 ^ n := by
  induction n with
  | zero => simp [bitsOf, Nat.mod_one]
  | succ n ih =>
    simp only [bitsOf, valOf, bitsOf_length, ih]
    rw [Nat.pow_succ, Nat.mod_mul, Nat.testBit_eq_decide_div_mod_eq]
    rcases Nat.mod_two_eq_zero_or_one (v / 2 ^ n) with h | h <;> simp [h, Nat.add_comm]

theorem valOf_bitsOf_of_lt {n v : Nat} (h : v < 2 ^ n) : valOf (bitsOf n v) = v := by
  rw [valOf_bitsOf, Nat.mod_eq_of_lt h]

theorem testBit_valOf (s : Bits) (j : Nat) (h : j < s.length) :
    (valOf s).testBit (s.length - 1 - j) = s[j] := by
  induction s generalizing j with
  | nil => simp at h
  | cons b s ih =>
    have hv := valOf_lt s
    cases j with
    | zero =>
      simp only [valOf, List.length_cons, Nat.add_sub_cancel, Nat.sub_zero, List.getElem_cons_zero]
      rw [Nat.mul_comm, Nat.testBit_two_pow_mul_add _ hv]
      cases b <;> simp
    | succ j =>
      have hj : j < s.length := by simpa using h
      simp only [valOf, List.length_cons, List.getElem_cons_succ]
      rw [Nat.mul_comm, Nat.testBit_two_pow_mul_add _ hv]
      have h1 : s.length + 1 - 1 - (j + 1) = s.length - 1 - j := by omega
      rw [h1, if_pos (by omega), ih j hj]

theorem bitsOf_valOf (s : Bits) : bitsOf s.length (valOf s) = s := by
  apply List.ext_getElem (by simp)
  intro j h1 h2
  rw [bitsOf_getElem, testBit_valOf s j h2]

theorem bitsOf_valOf_of_length {s : Bits} {n : Nat} (h : s.length = n) : bitsOf n (valOf s) = s := by
  rw [← h, bitsOf_valOf]

theorem bitsOf_mod (n v : Nat) : bitsOf n (v % 2 ^ n) = bitsOf n v := by
  apply List.ext_getElem (by simp)
  intro j h1 h2
  have hj : j < n := by simpa using h1
  rw [bitsOf_getElem, bitsOf_getElem, Nat.testBit_mod_two_pow]
  simp [show n - 1 - j < n by omega]

theorem valOf_inj {s t : Bits} (hl : s.length = t.length) (hv : valOf s = valOf t) : s = t := by
  rw [← bitsOf_valOf s, ← bitsOf_valOf t, hl, hv]

theorem valAt_lt (s : Bits) (p n : Nat) : valAt s p n < 2 ^ n := by
  refine lt_of_lt_of_le (valOf_lt _) (Nat.pow_le_pow_right (by norm_num) ?_)
  simp [List.length_take]

/-- The value of a field that stands after `s`. -/
theorem valAt_append (s t u : Bits) : valAt (s ++ (t ++ u)) s.length t.length = valOf t := by
  simp [valAt]

@[simp] theorem zeros_length (n : Nat) : (zeros n).length = n := by simp [zeros]

/-! ### bytes -/

theorem packBytes_length (k : Nat) (s : Bits) : (packBytes k s).length = k := by
  induction k generalizing s with
  | zero => rfl
  | succ k ih => simp [packBytes, ih]

theorem pack_length (s : Bits) : (pack s).length = (s.length + 7) / 8 := by
  simp [pack, packBytes_length, ceilDiv]

@[simp] theorem unpack_nil : unpack [] = [] := rfl

theorem unpack_cons (b : Byte) (d : List Byte) : unpack (b :: d) = bitsOf 8 b.toNat ++ unpack d :=
  rfl

theorem unpack_append (d e : List Byte) : unpack (d ++ e) = unpack d ++ unpack e := by
  simp [unpack]

@[simp] theorem unpack_length (d : List Byte) : (unpack d).length = 8 * d.length := by
  induction d with
  | nil => rfl
  | cons b d ih => simp [unpack_cons, ih, Nat.mul_add]; omega

theorem bitsOf_byteOf (s : Bits) :
    bitsOf 8 (byteOf s).toNat = s.take 8 ++ List.replicate (8 - s.length) false := by
  have hl : (s.take 8 ++ List.replicate (8 - s.length) false).length = 8 := by
    simp [List.length_take]; omega
  have hv := valOf_lt (s.take 8 ++ List.replicate (8 - s.length) false)
  rw [hl] at hv
  simp only [byteOf, BitVec.toNat_ofNat]
  rw [Nat.mod_eq_of_lt hv, bitsOf_valOf_of_length hl]

theorem unpack_packBytes (k : Nat) (s : Bits) (h : s.length ≤ 8 * k) :
    unpack (packBytes k s) = s ++ List.replicate (8 * k - s.length) false := by
  induction k generalizing s with
  | zero => simp at h; simp [packBytes, h]
  | succ k ih =>
    rw [packBytes, unpack_cons, bitsOf_byteOf, ih (s.drop 8) (by simp; omega)]
    by_cases h8 : s.length ≤ 8
    · rw [List.take_of_length_le h8, List.drop_eq_nil_of_le h8]
      simp only [List.nil_append, List.append_assoc, List.replicate_append_replicate,
        List.length_nil]
      congr 2
      omega
    · have : 8 - s.length = 0 := by omega
      simp only [this, List.replicate_zero, List.append_nil, List.length_drop, ← List.append_assoc,
        List.take_append_drop]
      congr 2
      omega

/-- Unpacking a packed bit string gives it back, followed by fewer than 8 zero bits (R12). -/
theorem unpack_pack (s : Bits) :
    unpack (pack s) = s ++ List.replicate (8 * ((s.length + 7) / 8) - s.length) false := by
  rw [pack, unpack_packBytes _ _ (by simp only [ceilDiv]; omega)]
  rfl

theorem byteOf_bitsOf (b : Byte) (u : Bits) : byteOf (bitsOf 8 b.toNat ++ u) = b := by
  have h : (bitsOf 8 b.toNat ++ u).take 8 = bitsOf 8 b.toNat := by
    rw [List.take_append_of_le_length (by simp), List.take_of_length_le (by simp)]
  have h8 : 8 - (bitsOf 8 b.toNat ++ u).length = 0 := by simp
  rw [byteOf, h, h8]
  simp only [List.replicate_zero, List.append_nil, valOf_bitsOf]
  apply BitVec.eq_of_toNat_eq
  have := b.isLt
  simp [Nat.mod_eq_of_lt this]

theorem packBytes_unpack (d : List Byte) : packBytes d.length (unpack d) = d := by
  induction d with
  | nil => rfl
  | cons b d ih =>
    rw [List.length_cons, packBytes, unpack_cons, byteOf_bitsOf]
    rw [List.drop_append_of_le_length (by simp), List.drop_eq_nil_of_le (by simp), List.nil_append,
      ih]

/-- Packing the bits of a byte string gives it back. -/
@[simp] theorem pack_unpack (d : List Byte) : pack (unpack d) = d := by
  have h : ceilDiv (unpack d).length 8 = d.length := by simp only [ceilDiv, unpack_length]; omega
  rw [pack, h, packBytes_unpack]

/-! ### clog2 -/

theorem le_two_pow_clog2 (n : Nat) : n ≤ 2 ^ clog2 n := by
  unfold clog2
  split
  · simpa using by assumption
  · have := @Nat.lt_log2_self (n - 1)
    omega

/-- `clog2 n` is the least width: a smaller one is too narrow (R11). -/
theorem two_pow_lt_of_lt_clog2 {n w : Nat} (h : w < clog2 n) : 2 ^ w < n := by
  unfold clog2 at h
  split at h
  · omega
  · have h1 : n - 1 ≠ 0 := by omega
    have h2 : 2 ^ w ≤ 2 ^ (Nat.log2 (n - 1)) := Nat.pow_le_pow_right (by norm_num) (by omega)
    have h3 := Nat.log2_self_le h1
    omega

end Sys2Proof.Machine
end

