-- ==== Sys2Proof/Laws/Decode.lean ====
section
/-!
SUPPORT. The fields of a packed command word (spec/30_encoding.md R80).
-/

namespace Sys2Proof

/-- A packed command word, bit by bit (R80). -/
theorem getLsbD_packW0 (opc a b : Byte) (j : Nat) :
    (packW0 opc a b).getLsbD j =
      if j < 8 then opc.getLsbD j
      else if j < 16 then a.getLsbD (j - 8)
      else if j < 24 then b.getLsbD (j - 16)
      else false := by
  have h := BitVec.getLsbD_append (x := 0#8 ++ b ++ a) (y := opc) (i := j)
  have h' := BitVec.getLsbD_append (x := 0#8 ++ b) (y := a) (i := j - 8)
  have h'' := BitVec.getLsbD_append (x := 0#8) (y := b) (i := j - 8 - 8)
  rw [show j - 8 - 8 = j - 16 by omega] at h' h''
  refine h.trans ?_
  rw [h', h'']
  by_cases h0 : j < 8
  · simp [h0]
  by_cases h1 : j < 16
  · simp [h0, h1, show j - 8 < 8 by omega]
  by_cases h2 : j < 24
  · simp [h0, h1, h2, show ¬ j - 8 < 8 by omega, show j - 16 < 8 by omega]
  · simp [h0, h1, h2, show ¬ j - 8 < 8 by omega, show ¬ j - 16 < 8 by omega]

@[simp] theorem fieldOpc_packW0 (opc a b : Byte) : fieldOpc (packW0 opc a b) = opc := by
  apply BitVec.eq_of_getLsbD_eq
  intro j hj
  simp [fieldOpc, getLsbD_packW0, hj]

@[simp] theorem fieldA_packW0 (opc a b : Byte) : fieldA (packW0 opc a b) = a := by
  apply BitVec.eq_of_getLsbD_eq
  intro j hj
  simp [fieldA, getLsbD_packW0, hj, show 8 + j < 16 by omega]

@[simp] theorem fieldB_packW0 (opc a b : Byte) : fieldB (packW0 opc a b) = b := by
  apply BitVec.eq_of_getLsbD_eq
  intro j hj
  simp [fieldB, getLsbD_packW0, hj, show ¬ 16 + j < 8 by omega, show 16 + j < 24 by omega]

@[simp] theorem fieldRsv_packW0 (opc a b : Byte) : fieldRsv (packW0 opc a b) = 0 := by
  apply BitVec.eq_of_getLsbD_eq
  intro j hj
  simp [fieldRsv, getLsbD_packW0, show ¬ 24 + j < 8 by omega, show ¬ 24 + j < 16 by omega]

/-- A command word is the packing of its fields when its reserved byte is 0. -/
theorem packW0_fields {w : Word} (h : fieldRsv w = 0) :
    packW0 (fieldOpc w) (fieldA w) (fieldB w) = w := by
  apply BitVec.eq_of_getLsbD_eq
  intro j hj
  rw [getLsbD_packW0]
  split
  · simp [fieldOpc, *]
  split
  · simp [fieldA, show j - 8 < 8 by omega, show 8 + (j - 8) = j by omega]
  split
  · simp [fieldB, show j - 16 < 8 by omega, show 16 + (j - 16) = j by omega]
  · have := congrArg (fun x => x.getLsbD (j - 24)) h
    simpa [fieldRsv, show j - 24 < 8 by omega, show 24 + (j - 24) = j by omega] using this.symm

end Sys2Proof
end

