-- ==== Sys2Proof/Laws/State.lean ====
section
/-!
SUPPORT. What each update of the state leaves in each field, one lemma per field, so that no later
proof unfolds a record update.
-/

namespace Sys2Proof.Machine

/-! ### The result and the port -/

@[simp] theorem withResult_cfg (s : State) (r : CmdResult) : (withResult s r).cfg = s.cfg := rfl
@[simp] theorem withResult_cod (s : State) (r : CmdResult) : (withResult s r).cod = s.cod := rfl
@[simp] theorem withResult_tx (s : State) (r : CmdResult) : (withResult s r).tx = s.tx := rfl
@[simp] theorem withResult_dtagNext (s : State) (r : CmdResult) :
    (withResult s r).dtagNext = s.dtagNext := rfl
@[simp] theorem withResult_rx (s : State) (r : CmdResult) : (withResult s r).rx = s.rx := rfl
@[simp] theorem withResult_port (s : State) (r : CmdResult) : (withResult s r).port = s.port := rfl
@[simp] theorem withResult_result (s : State) (r : CmdResult) :
    (withResult s r).result = some r := rfl
@[simp] theorem withResult_freeCount (s : State) (r : CmdResult) :
    (withResult s r).freeCount = s.freeCount := rfl

@[simp] theorem withPort_cfg (s : State) (p : List PortInput) : (withPort s p).cfg = s.cfg := rfl
@[simp] theorem withPort_cod (s : State) (p : List PortInput) : (withPort s p).cod = s.cod := rfl
@[simp] theorem withPort_tx (s : State) (p : List PortInput) : (withPort s p).tx = s.tx := rfl
@[simp] theorem withPort_dtagNext (s : State) (p : List PortInput) :
    (withPort s p).dtagNext = s.dtagNext := rfl
@[simp] theorem withPort_rx (s : State) (p : List PortInput) : (withPort s p).rx = s.rx := rfl
@[simp] theorem withPort_port (s : State) (p : List PortInput) : (withPort s p).port = p := rfl
@[simp] theorem withPort_result (s : State) (p : List PortInput) :
    (withPort s p).result = s.result := rfl
@[simp] theorem withPort_freeCount (s : State) (p : List PortInput) :
    (withPort s p).freeCount = s.freeCount := rfl

@[simp] theorem resetInput_cfg (s : State) (p : List PortInput) :
    (resetInput s p).cfg = s.cfg := rfl
@[simp] theorem resetInput_cod (s : State) (p : List PortInput) :
    (resetInput s p).cod = Codec.reset := rfl
@[simp] theorem resetInput_tx (s : State) (p : List PortInput) :
    (resetInput s p).tx = TxConn.reset := rfl
@[simp] theorem resetInput_dtagNext (s : State) (p : List PortInput) :
    (resetInput s p).dtagNext = 0 := rfl
@[simp] theorem resetInput_rx (s : State) (p : List PortInput) :
    (resetInput s p).rx = List.replicate s.cfg.par.nRx RxSlot.reset := rfl
@[simp] theorem resetInput_port (s : State) (p : List PortInput) : (resetInput s p).port = p := rfl
@[simp] theorem resetInput_result (s : State) (p : List PortInput) :
    (resetInput s p).result = none := rfl
@[simp] theorem resetInput_freeCount (s : State) (p : List PortInput) :
    (resetInput s p).freeCount = s.freeCount := rfl

/-! ### The codec datapath -/

@[simp] theorem setFv_cfg (s : State) (v : Nat) : (setFv s v).cfg = s.cfg := rfl
@[simp] theorem setFv_cod_cbuf (s : State) (v : Nat) : (setFv s v).cod.cbuf = s.cod.cbuf := rfl
@[simp] theorem setFv_cod_cbLen (s : State) (v : Nat) : (setFv s v).cod.cbLen = s.cod.cbLen := rfl
@[simp] theorem setFv_cod_pos (s : State) (v : Nat) : (setFv s v).cod.pos = s.cod.pos := rfl
@[simp] theorem setFv_cod_fv (s : State) (v : Nat) : (setFv s v).cod.fv = v := rfl
@[simp] theorem setFv_tx (s : State) (v : Nat) : (setFv s v).tx = s.tx := rfl
@[simp] theorem setFv_dtagNext (s : State) (v : Nat) : (setFv s v).dtagNext = s.dtagNext := rfl
@[simp] theorem setFv_rx (s : State) (v : Nat) : (setFv s v).rx = s.rx := rfl
@[simp] theorem setFv_port (s : State) (v : Nat) : (setFv s v).port = s.port := rfl
@[simp] theorem setFv_result (s : State) (v : Nat) : (setFv s v).result = s.result := rfl
@[simp] theorem setFv_freeCount (s : State) (v : Nat) : (setFv s v).freeCount = s.freeCount := rfl

@[simp] theorem advancePos_cfg (s : State) (n : Nat) : (advancePos s n).cfg = s.cfg := rfl
@[simp] theorem advancePos_cod_cbuf (s : State) (n : Nat) :
    (advancePos s n).cod.cbuf = s.cod.cbuf := rfl
@[simp] theorem advancePos_cod_cbLen (s : State) (n : Nat) :
    (advancePos s n).cod.cbLen = s.cod.cbLen := rfl
@[simp] theorem advancePos_cod_pos (s : State) (n : Nat) :
    (advancePos s n).cod.pos = BitVec.ofNat 32 (s.cod.pos.toNat + n) := rfl
@[simp] theorem advancePos_cod_fv (s : State) (n : Nat) : (advancePos s n).cod.fv = s.cod.fv := rfl
@[simp] theorem advancePos_tx (s : State) (n : Nat) : (advancePos s n).tx = s.tx := rfl
@[simp] theorem advancePos_dtagNext (s : State) (n : Nat) :
    (advancePos s n).dtagNext = s.dtagNext := rfl
@[simp] theorem advancePos_rx (s : State) (n : Nat) : (advancePos s n).rx = s.rx := rfl
@[simp] theorem advancePos_port (s : State) (n : Nat) : (advancePos s n).port = s.port := rfl
@[simp] theorem advancePos_result (s : State) (n : Nat) : (advancePos s n).result = s.result := rfl
@[simp] theorem advancePos_freeCount (s : State) (n : Nat) :
    (advancePos s n).freeCount = s.freeCount := rfl

@[simp] theorem writeAtPos_cfg (s : State) (b : Bits) : (writeAtPos s b).cfg = s.cfg := rfl
@[simp] theorem writeAtPos_cod_cbuf (s : State) (b : Bits) :
    (writeAtPos s b).cod.cbuf = Memory.bitWrite s.cod.cbuf s.cod.pos.toNat b := rfl
@[simp] theorem writeAtPos_cod_cbLen (s : State) (b : Bits) :
    (writeAtPos s b).cod.cbLen = BitVec.ofNat 32 (max s.cod.cbLen.toNat (s.cod.pos.toNat + b.length)) := rfl
@[simp] theorem writeAtPos_cod_pos (s : State) (b : Bits) :
    (writeAtPos s b).cod.pos = BitVec.ofNat 32 (s.cod.pos.toNat + b.length) := rfl
@[simp] theorem writeAtPos_cod_fv (s : State) (b : Bits) : (writeAtPos s b).cod.fv = s.cod.fv := rfl
@[simp] theorem writeAtPos_tx (s : State) (b : Bits) : (writeAtPos s b).tx = s.tx := rfl
@[simp] theorem writeAtPos_dtagNext (s : State) (b : Bits) :
    (writeAtPos s b).dtagNext = s.dtagNext := rfl
@[simp] theorem writeAtPos_rx (s : State) (b : Bits) : (writeAtPos s b).rx = s.rx := rfl
@[simp] theorem writeAtPos_port (s : State) (b : Bits) : (writeAtPos s b).port = s.port := rfl
@[simp] theorem writeAtPos_result (s : State) (b : Bits) : (writeAtPos s b).result = s.result := rfl
@[simp] theorem writeAtPos_freeCount (s : State) (b : Bits) :
    (writeAtPos s b).freeCount = s.freeCount := rfl

/-! ### The TX connection -/

@[simp] theorem armTx_cfg (s : State) : (armTx s).cfg = s.cfg := rfl
@[simp] theorem armTx_cod (s : State) : (armTx s).cod = s.cod := rfl
@[simp] theorem armTx_tx_state (s : State) : (armTx s).tx.state = s.tx.state := rfl
@[simp] theorem armTx_tx_rule (s : State) : (armTx s).tx.rule = s.tx.rule := rfl
@[simp] theorem armTx_tx_dtag (s : State) : (armTx s).tx.dtag = s.tx.dtag := rfl
@[simp] theorem armTx_tx_msg (s : State) : (armTx s).tx.msg = s.tx.msg := rfl
@[simp] theorem armTx_tx_k (s : State) : (armTx s).tx.k = s.tx.k := rfl
@[simp] theorem armTx_tx_wl (s : State) : (armTx s).tx.wl = s.tx.wl := rfl
@[simp] theorem armTx_tx_win (s : State) : (armTx s).tx.win = s.tx.win := rfl
@[simp] theorem armTx_tx_attempts (s : State) : (armTx s).tx.attempts = s.tx.attempts := rfl
@[simp] theorem armTx_tx_micRounds (s : State) : (armTx s).tx.micRounds = s.tx.micRounds := rfl
@[simp] theorem armTx_tx_armed (s : State) : (armTx s).tx.armed = true := rfl
@[simp] theorem armTx_tx_gen (s : State) : (armTx s).tx.gen = s.tx.gen + 1 := rfl
@[simp] theorem armTx_dtagNext (s : State) : (armTx s).dtagNext = s.dtagNext := rfl
@[simp] theorem armTx_rx (s : State) : (armTx s).rx = s.rx := rfl
@[simp] theorem armTx_port (s : State) : (armTx s).port = s.port := rfl
@[simp] theorem armTx_result (s : State) : (armTx s).result = s.result := rfl
@[simp] theorem armTx_freeCount (s : State) : (armTx s).freeCount = s.freeCount := rfl

@[simp] theorem leaveTx_cfg (s : State) (st : TxPhase) : (leaveTx s st).cfg = s.cfg := rfl
@[simp] theorem leaveTx_cod (s : State) (st : TxPhase) : (leaveTx s st).cod = s.cod := rfl
@[simp] theorem leaveTx_tx_state (s : State) (st : TxPhase) : (leaveTx s st).tx.state = st := rfl
@[simp] theorem leaveTx_tx_rule (s : State) (st : TxPhase) :
    (leaveTx s st).tx.rule = s.tx.rule := rfl
@[simp] theorem leaveTx_tx_dtag (s : State) (st : TxPhase) :
    (leaveTx s st).tx.dtag = s.tx.dtag := rfl
@[simp] theorem leaveTx_tx_msg (s : State) (st : TxPhase) : (leaveTx s st).tx.msg = s.tx.msg := rfl
@[simp] theorem leaveTx_tx_k (s : State) (st : TxPhase) : (leaveTx s st).tx.k = s.tx.k := rfl
@[simp] theorem leaveTx_tx_wl (s : State) (st : TxPhase) : (leaveTx s st).tx.wl = s.tx.wl := rfl
@[simp] theorem leaveTx_tx_win (s : State) (st : TxPhase) : (leaveTx s st).tx.win = s.tx.win := rfl
@[simp] theorem leaveTx_tx_attempts (s : State) (st : TxPhase) :
    (leaveTx s st).tx.attempts = s.tx.attempts := rfl
@[simp] theorem leaveTx_tx_micRounds (s : State) (st : TxPhase) :
    (leaveTx s st).tx.micRounds = s.tx.micRounds := rfl
@[simp] theorem leaveTx_tx_armed (s : State) (st : TxPhase) : (leaveTx s st).tx.armed = false := rfl
@[simp] theorem leaveTx_tx_gen (s : State) (st : TxPhase) : (leaveTx s st).tx.gen = s.tx.gen := rfl
@[simp] theorem leaveTx_dtagNext (s : State) (st : TxPhase) :
    (leaveTx s st).dtagNext = s.dtagNext := rfl
@[simp] theorem leaveTx_rx (s : State) (st : TxPhase) : (leaveTx s st).rx = s.rx := rfl
@[simp] theorem leaveTx_port (s : State) (st : TxPhase) : (leaveTx s st).port = s.port := rfl
@[simp] theorem leaveTx_result (s : State) (st : TxPhase) : (leaveTx s st).result = s.result := rfl
@[simp] theorem leaveTx_freeCount (s : State) (st : TxPhase) :
    (leaveTx s st).freeCount = s.freeCount := rfl

@[simp] theorem txGoto_cfg (s : State) (w : Byte) (st : TxPhase) :
    (txGoto s w st).cfg = s.cfg := rfl
@[simp] theorem txGoto_cod (s : State) (w : Byte) (st : TxPhase) :
    (txGoto s w st).cod = s.cod := rfl
@[simp] theorem txGoto_tx_state (s : State) (w : Byte) (st : TxPhase) :
    (txGoto s w st).tx.state = st := rfl
@[simp] theorem txGoto_tx_rule (s : State) (w : Byte) (st : TxPhase) :
    (txGoto s w st).tx.rule = s.tx.rule := rfl
@[simp] theorem txGoto_tx_dtag (s : State) (w : Byte) (st : TxPhase) :
    (txGoto s w st).tx.dtag = s.tx.dtag := rfl
@[simp] theorem txGoto_tx_msg (s : State) (w : Byte) (st : TxPhase) :
    (txGoto s w st).tx.msg = s.tx.msg := rfl
@[simp] theorem txGoto_tx_k (s : State) (w : Byte) (st : TxPhase) :
    (txGoto s w st).tx.k = s.tx.k := rfl
@[simp] theorem txGoto_tx_wl (s : State) (w : Byte) (st : TxPhase) :
    (txGoto s w st).tx.wl = s.tx.wl := rfl
@[simp] theorem txGoto_tx_win (s : State) (w : Byte) (st : TxPhase) :
    (txGoto s w st).tx.win = w := rfl
@[simp] theorem txGoto_tx_attempts (s : State) (w : Byte) (st : TxPhase) :
    (txGoto s w st).tx.attempts = s.tx.attempts := rfl
@[simp] theorem txGoto_tx_micRounds (s : State) (w : Byte) (st : TxPhase) :
    (txGoto s w st).tx.micRounds = s.tx.micRounds := rfl
@[simp] theorem txGoto_tx_armed (s : State) (w : Byte) (st : TxPhase) :
    (txGoto s w st).tx.armed = s.tx.armed := rfl
@[simp] theorem txGoto_tx_gen (s : State) (w : Byte) (st : TxPhase) :
    (txGoto s w st).tx.gen = s.tx.gen := rfl
@[simp] theorem txGoto_dtagNext (s : State) (w : Byte) (st : TxPhase) :
    (txGoto s w st).dtagNext = s.dtagNext := rfl
@[simp] theorem txGoto_rx (s : State) (w : Byte) (st : TxPhase) : (txGoto s w st).rx = s.rx := rfl
@[simp] theorem txGoto_port (s : State) (w : Byte) (st : TxPhase) :
    (txGoto s w st).port = s.port := rfl
@[simp] theorem txGoto_result (s : State) (w : Byte) (st : TxPhase) :
    (txGoto s w st).result = s.result := rfl
@[simp] theorem txGoto_freeCount (s : State) (w : Byte) (st : TxPhase) :
    (txGoto s w st).freeCount = s.freeCount := rfl

@[simp] theorem txDisarm_cfg (s : State) : (txDisarm s).cfg = s.cfg := rfl
@[simp] theorem txDisarm_cod (s : State) : (txDisarm s).cod = s.cod := rfl
@[simp] theorem txDisarm_tx_state (s : State) : (txDisarm s).tx.state = s.tx.state := rfl
@[simp] theorem txDisarm_tx_rule (s : State) : (txDisarm s).tx.rule = s.tx.rule := rfl
@[simp] theorem txDisarm_tx_dtag (s : State) : (txDisarm s).tx.dtag = s.tx.dtag := rfl
@[simp] theorem txDisarm_tx_msg (s : State) : (txDisarm s).tx.msg = s.tx.msg := rfl
@[simp] theorem txDisarm_tx_k (s : State) : (txDisarm s).tx.k = s.tx.k := rfl
@[simp] theorem txDisarm_tx_wl (s : State) : (txDisarm s).tx.wl = s.tx.wl := rfl
@[simp] theorem txDisarm_tx_win (s : State) : (txDisarm s).tx.win = s.tx.win := rfl
@[simp] theorem txDisarm_tx_attempts (s : State) : (txDisarm s).tx.attempts = s.tx.attempts := rfl
@[simp] theorem txDisarm_tx_micRounds (s : State) :
    (txDisarm s).tx.micRounds = s.tx.micRounds := rfl
@[simp] theorem txDisarm_tx_armed (s : State) : (txDisarm s).tx.armed = false := rfl
@[simp] theorem txDisarm_tx_gen (s : State) : (txDisarm s).tx.gen = s.tx.gen := rfl
@[simp] theorem txDisarm_dtagNext (s : State) : (txDisarm s).dtagNext = s.dtagNext := rfl
@[simp] theorem txDisarm_rx (s : State) : (txDisarm s).rx = s.rx := rfl
@[simp] theorem txDisarm_port (s : State) : (txDisarm s).port = s.port := rfl
@[simp] theorem txDisarm_result (s : State) : (txDisarm s).result = s.result := rfl
@[simp] theorem txDisarm_freeCount (s : State) : (txDisarm s).freeCount = s.freeCount := rfl

@[simp] theorem txAttempts0_cfg (s : State) : (txAttempts0 s).cfg = s.cfg := rfl
@[simp] theorem txAttempts0_cod (s : State) : (txAttempts0 s).cod = s.cod := rfl
@[simp] theorem txAttempts0_tx_state (s : State) : (txAttempts0 s).tx.state = s.tx.state := rfl
@[simp] theorem txAttempts0_tx_rule (s : State) : (txAttempts0 s).tx.rule = s.tx.rule := rfl
@[simp] theorem txAttempts0_tx_dtag (s : State) : (txAttempts0 s).tx.dtag = s.tx.dtag := rfl
@[simp] theorem txAttempts0_tx_msg (s : State) : (txAttempts0 s).tx.msg = s.tx.msg := rfl
@[simp] theorem txAttempts0_tx_k (s : State) : (txAttempts0 s).tx.k = s.tx.k := rfl
@[simp] theorem txAttempts0_tx_wl (s : State) : (txAttempts0 s).tx.wl = s.tx.wl := rfl
@[simp] theorem txAttempts0_tx_win (s : State) : (txAttempts0 s).tx.win = s.tx.win := rfl
@[simp] theorem txAttempts0_tx_attempts (s : State) : (txAttempts0 s).tx.attempts = 0 := rfl
@[simp] theorem txAttempts0_tx_micRounds (s : State) :
    (txAttempts0 s).tx.micRounds = s.tx.micRounds := rfl
@[simp] theorem txAttempts0_tx_armed (s : State) : (txAttempts0 s).tx.armed = s.tx.armed := rfl
@[simp] theorem txAttempts0_tx_gen (s : State) : (txAttempts0 s).tx.gen = s.tx.gen := rfl
@[simp] theorem txAttempts0_dtagNext (s : State) : (txAttempts0 s).dtagNext = s.dtagNext := rfl
@[simp] theorem txAttempts0_rx (s : State) : (txAttempts0 s).rx = s.rx := rfl
@[simp] theorem txAttempts0_port (s : State) : (txAttempts0 s).port = s.port := rfl
@[simp] theorem txAttempts0_result (s : State) : (txAttempts0 s).result = s.result := rfl
@[simp] theorem txAttempts0_freeCount (s : State) : (txAttempts0 s).freeCount = s.freeCount := rfl

@[simp] theorem txLoad_cfg (s : State) (a : Byte) (r : FragRule) (d : List Byte) :
    (txLoad s a r d).cfg = s.cfg := rfl
@[simp] theorem txLoad_cod (s : State) (a : Byte) (r : FragRule) (d : List Byte) :
    (txLoad s a r d).cod = s.cod := rfl
@[simp] theorem txLoad_tx_state (s : State) (a : Byte) (r : FragRule) (d : List Byte) :
    (txLoad s a r d).tx.state = s.tx.state := rfl
@[simp] theorem txLoad_tx_rule (s : State) (a : Byte) (r : FragRule) (d : List Byte) :
    (txLoad s a r d).tx.rule = a := rfl
@[simp] theorem txLoad_tx_dtag (s : State) (a : Byte) (r : FragRule) (d : List Byte) :
    (txLoad s a r d).tx.dtag = BitVec.ofNat 8 (s.dtagNext.toNat % 2 ^ r.t) := rfl
@[simp] theorem txLoad_tx_msg (s : State) (a : Byte) (r : FragRule) (d : List Byte) :
    (txLoad s a r d).tx.msg = d := rfl
@[simp] theorem txLoad_tx_k (s : State) (a : Byte) (r : FragRule) (d : List Byte) :
    (txLoad s a r d).tx.k = tileCountReg s (tileCount s.cfg.par.mtu r d.length) := rfl
@[simp] theorem txLoad_tx_wl (s : State) (a : Byte) (r : FragRule) (d : List Byte) :
    (txLoad s a r d).tx.wl = lastWindowReg s (tileCount s.cfg.par.mtu r d.length / r.ws) := rfl
@[simp] theorem txLoad_tx_win (s : State) (a : Byte) (r : FragRule) (d : List Byte) :
    (txLoad s a r d).tx.win = s.tx.win := rfl
@[simp] theorem txLoad_tx_attempts (s : State) (a : Byte) (r : FragRule) (d : List Byte) :
    (txLoad s a r d).tx.attempts = 0 := rfl
@[simp] theorem txLoad_tx_micRounds (s : State) (a : Byte) (r : FragRule) (d : List Byte) :
    (txLoad s a r d).tx.micRounds = false := rfl
@[simp] theorem txLoad_tx_armed (s : State) (a : Byte) (r : FragRule) (d : List Byte) :
    (txLoad s a r d).tx.armed = s.tx.armed := rfl
@[simp] theorem txLoad_tx_gen (s : State) (a : Byte) (r : FragRule) (d : List Byte) :
    (txLoad s a r d).tx.gen = s.tx.gen := rfl
@[simp] theorem txLoad_dtagNext (s : State) (a : Byte) (r : FragRule) (d : List Byte) :
    (txLoad s a r d).dtagNext = s.dtagNext + 1 := rfl
@[simp] theorem txLoad_rx (s : State) (a : Byte) (r : FragRule) (d : List Byte) :
    (txLoad s a r d).rx = s.rx := rfl
@[simp] theorem txLoad_port (s : State) (a : Byte) (r : FragRule) (d : List Byte) :
    (txLoad s a r d).port = s.port := rfl
@[simp] theorem txLoad_result (s : State) (a : Byte) (r : FragRule) (d : List Byte) :
    (txLoad s a r d).result = s.result := rfl
@[simp] theorem txLoad_freeCount (s : State) (a : Byte) (r : FragRule) (d : List Byte) :
    (txLoad s a r d).freeCount = freeCountAfter s (tileCount s.cfg.par.mtu r d.length) (tileCount s.cfg.par.mtu r d.length / r.ws) := rfl

/-! ### The RX slots -/

@[simp] theorem setRx_cfg (s : State) (i : Nat) (x : RxSlot) : (setRx s i x).cfg = s.cfg := rfl
@[simp] theorem setRx_cod (s : State) (i : Nat) (x : RxSlot) : (setRx s i x).cod = s.cod := rfl
@[simp] theorem setRx_tx (s : State) (i : Nat) (x : RxSlot) : (setRx s i x).tx = s.tx := rfl
@[simp] theorem setRx_dtagNext (s : State) (i : Nat) (x : RxSlot) :
    (setRx s i x).dtagNext = s.dtagNext := rfl
@[simp] theorem setRx_rx (s : State) (i : Nat) (x : RxSlot) : (setRx s i x).rx = s.rx.set i x := rfl
@[simp] theorem setRx_port (s : State) (i : Nat) (x : RxSlot) : (setRx s i x).port = s.port := rfl
@[simp] theorem setRx_result (s : State) (i : Nat) (x : RxSlot) :
    (setRx s i x).result = s.result := rfl
@[simp] theorem setRx_freeCount (s : State) (i : Nat) (x : RxSlot) :
    (setRx s i x).freeCount = s.freeCount := rfl

@[simp] theorem releaseRx_cfg (s : State) (i : Nat) : (releaseRx s i).cfg = s.cfg := rfl
@[simp] theorem releaseRx_cod (s : State) (i : Nat) : (releaseRx s i).cod = s.cod := rfl
@[simp] theorem releaseRx_tx (s : State) (i : Nat) : (releaseRx s i).tx = s.tx := rfl
@[simp] theorem releaseRx_dtagNext (s : State) (i : Nat) :
    (releaseRx s i).dtagNext = s.dtagNext := rfl
@[simp] theorem releaseRx_rx (s : State) (i : Nat) :
    (releaseRx s i).rx = s.rx.set i (rxSlot s i).released := rfl
@[simp] theorem releaseRx_port (s : State) (i : Nat) : (releaseRx s i).port = s.port := rfl
@[simp] theorem releaseRx_result (s : State) (i : Nat) : (releaseRx s i).result = s.result := rfl
@[simp] theorem releaseRx_freeCount (s : State) (i : Nat) :
    (releaseRx s i).freeCount = s.freeCount := rfl

@[simp] theorem RxSlot.arm_state (x : RxSlot) : (x.arm).state = x.state := rfl
@[simp] theorem RxSlot.arm_rule (x : RxSlot) : (x.arm).rule = x.rule := rfl
@[simp] theorem RxSlot.arm_dtag (x : RxSlot) : (x.arm).dtag = x.dtag := rfl
@[simp] theorem RxSlot.arm_rcvd (x : RxSlot) : (x.arm).rcvd = x.rcvd := rfl
@[simp] theorem RxSlot.arm_tile (x : RxSlot) : (x.arm).tile = x.tile := rfl
@[simp] theorem RxSlot.arm_all1 (x : RxSlot) : (x.arm).all1 = x.all1 := rfl
@[simp] theorem RxSlot.arm_wl (x : RxSlot) : (x.arm).wl = x.wl := rfl
@[simp] theorem RxSlot.arm_mic (x : RxSlot) : (x.arm).mic = x.mic := rfl
@[simp] theorem RxSlot.arm_nAppend (x : RxSlot) : (x.arm).nAppend = x.nAppend := rfl
@[simp] theorem RxSlot.arm_micRounds (x : RxSlot) : (x.arm).micRounds = x.micRounds := rfl
@[simp] theorem RxSlot.arm_armed (x : RxSlot) : (x.arm).armed = true := rfl
@[simp] theorem RxSlot.arm_gen (x : RxSlot) : (x.arm).gen = x.gen + 1 := rfl

@[simp] theorem RxSlot.released_state (x : RxSlot) : (x.released).state = .free := rfl
@[simp] theorem RxSlot.released_rule (x : RxSlot) : (x.released).rule = 0 := rfl
@[simp] theorem RxSlot.released_dtag (x : RxSlot) : (x.released).dtag = 0 := rfl
@[simp] theorem RxSlot.released_rcvd (x : RxSlot) : (x.released).rcvd = [] := rfl
@[simp] theorem RxSlot.released_tile (x : RxSlot) : (x.released).tile = [] := rfl
@[simp] theorem RxSlot.released_all1 (x : RxSlot) : (x.released).all1 = false := rfl
@[simp] theorem RxSlot.released_wl (x : RxSlot) : (x.released).wl = 0 := rfl
@[simp] theorem RxSlot.released_mic (x : RxSlot) : (x.released).mic = 0 := rfl
@[simp] theorem RxSlot.released_nAppend (x : RxSlot) : (x.released).nAppend = 0 := rfl
@[simp] theorem RxSlot.released_micRounds (x : RxSlot) : (x.released).micRounds = false := rfl
@[simp] theorem RxSlot.released_armed (x : RxSlot) : (x.released).armed = false := rfl
@[simp] theorem RxSlot.released_gen (x : RxSlot) : (x.released).gen = x.gen := rfl

@[simp] theorem RxSlot.store_state (x : RxSlot) (p : Nat) (t : Bits) :
    (x.store p t).state = x.state := rfl
@[simp] theorem RxSlot.store_rule (x : RxSlot) (p : Nat) (t : Bits) :
    (x.store p t).rule = x.rule := rfl
@[simp] theorem RxSlot.store_dtag (x : RxSlot) (p : Nat) (t : Bits) :
    (x.store p t).dtag = x.dtag := rfl
@[simp] theorem RxSlot.store_rcvd (x : RxSlot) (p : Nat) (t : Bits) :
    (x.store p t).rcvd = Store.write false x.rcvd p true := rfl
@[simp] theorem RxSlot.store_tile (x : RxSlot) (p : Nat) (t : Bits) :
    (x.store p t).tile = Store.write [] x.tile p t := rfl
@[simp] theorem RxSlot.store_all1 (x : RxSlot) (p : Nat) (t : Bits) :
    (x.store p t).all1 = x.all1 := rfl
@[simp] theorem RxSlot.store_wl (x : RxSlot) (p : Nat) (t : Bits) : (x.store p t).wl = x.wl := rfl
@[simp] theorem RxSlot.store_mic (x : RxSlot) (p : Nat) (t : Bits) :
    (x.store p t).mic = x.mic := rfl
@[simp] theorem RxSlot.store_nAppend (x : RxSlot) (p : Nat) (t : Bits) :
    (x.store p t).nAppend = x.nAppend := rfl
@[simp] theorem RxSlot.store_micRounds (x : RxSlot) (p : Nat) (t : Bits) :
    (x.store p t).micRounds = x.micRounds := rfl
@[simp] theorem RxSlot.store_armed (x : RxSlot) (p : Nat) (t : Bits) :
    (x.store p t).armed = x.armed := rfl
@[simp] theorem RxSlot.store_gen (x : RxSlot) (p : Nat) (t : Bits) :
    (x.store p t).gen = x.gen := rfl

@[simp] theorem RxSlot.completed_state (x : RxSlot) : (x.completed).state = .done := rfl
@[simp] theorem RxSlot.completed_rule (x : RxSlot) : (x.completed).rule = x.rule := rfl
@[simp] theorem RxSlot.completed_dtag (x : RxSlot) : (x.completed).dtag = x.dtag := rfl
@[simp] theorem RxSlot.completed_rcvd (x : RxSlot) : (x.completed).rcvd = x.rcvd := rfl
@[simp] theorem RxSlot.completed_tile (x : RxSlot) : (x.completed).tile = x.tile := rfl
@[simp] theorem RxSlot.completed_all1 (x : RxSlot) : (x.completed).all1 = x.all1 := rfl
@[simp] theorem RxSlot.completed_wl (x : RxSlot) : (x.completed).wl = x.wl := rfl
@[simp] theorem RxSlot.completed_mic (x : RxSlot) : (x.completed).mic = x.mic := rfl
@[simp] theorem RxSlot.completed_nAppend (x : RxSlot) : (x.completed).nAppend = x.nAppend := rfl
@[simp] theorem RxSlot.completed_micRounds (x : RxSlot) :
    (x.completed).micRounds = x.micRounds := rfl
@[simp] theorem RxSlot.completed_armed (x : RxSlot) : (x.completed).armed = x.armed := rfl
@[simp] theorem RxSlot.completed_gen (x : RxSlot) : (x.completed).gen = x.gen := rfl

@[simp] theorem RxSlot.discarded_state (x : RxSlot) : (x.discarded).state = x.state := rfl
@[simp] theorem RxSlot.discarded_rule (x : RxSlot) : (x.discarded).rule = x.rule := rfl
@[simp] theorem RxSlot.discarded_dtag (x : RxSlot) : (x.discarded).dtag = x.dtag := rfl
@[simp] theorem RxSlot.discarded_rcvd (x : RxSlot) : (x.discarded).rcvd = [] := rfl
@[simp] theorem RxSlot.discarded_tile (x : RxSlot) : (x.discarded).tile = [] := rfl
@[simp] theorem RxSlot.discarded_all1 (x : RxSlot) : (x.discarded).all1 = false := rfl
@[simp] theorem RxSlot.discarded_wl (x : RxSlot) : (x.discarded).wl = 0 := rfl
@[simp] theorem RxSlot.discarded_mic (x : RxSlot) : (x.discarded).mic = 0 := rfl
@[simp] theorem RxSlot.discarded_nAppend (x : RxSlot) : (x.discarded).nAppend = x.nAppend := rfl
@[simp] theorem RxSlot.discarded_micRounds (x : RxSlot) : (x.discarded).micRounds = true := rfl
@[simp] theorem RxSlot.discarded_armed (x : RxSlot) : (x.discarded).armed = x.armed := rfl
@[simp] theorem RxSlot.discarded_gen (x : RxSlot) : (x.discarded).gen = x.gen := rfl

@[simp] theorem RxSlot.acceptAll1_state (x : RxSlot) (w : Nat) (m : Word) :
    (x.acceptAll1 w m).state = x.state := rfl
@[simp] theorem RxSlot.acceptAll1_rule (x : RxSlot) (w : Nat) (m : Word) :
    (x.acceptAll1 w m).rule = x.rule := rfl
@[simp] theorem RxSlot.acceptAll1_dtag (x : RxSlot) (w : Nat) (m : Word) :
    (x.acceptAll1 w m).dtag = x.dtag := rfl
@[simp] theorem RxSlot.acceptAll1_rcvd (x : RxSlot) (w : Nat) (m : Word) :
    (x.acceptAll1 w m).rcvd = x.rcvd := rfl
@[simp] theorem RxSlot.acceptAll1_tile (x : RxSlot) (w : Nat) (m : Word) :
    (x.acceptAll1 w m).tile = x.tile := rfl
@[simp] theorem RxSlot.acceptAll1_all1 (x : RxSlot) (w : Nat) (m : Word) :
    (x.acceptAll1 w m).all1 = true := rfl
@[simp] theorem RxSlot.acceptAll1_wl (x : RxSlot) (w : Nat) (m : Word) :
    (x.acceptAll1 w m).wl = BitVec.ofNat 8 w := rfl
@[simp] theorem RxSlot.acceptAll1_mic (x : RxSlot) (w : Nat) (m : Word) :
    (x.acceptAll1 w m).mic = m := rfl
@[simp] theorem RxSlot.acceptAll1_nAppend (x : RxSlot) (w : Nat) (m : Word) :
    (x.acceptAll1 w m).nAppend = x.nAppend := rfl
@[simp] theorem RxSlot.acceptAll1_micRounds (x : RxSlot) (w : Nat) (m : Word) :
    (x.acceptAll1 w m).micRounds = x.micRounds := rfl
@[simp] theorem RxSlot.acceptAll1_armed (x : RxSlot) (w : Nat) (m : Word) :
    (x.acceptAll1 w m).armed = x.armed := rfl
@[simp] theorem RxSlot.acceptAll1_gen (x : RxSlot) (w : Nat) (m : Word) :
    (x.acceptAll1 w m).gen = x.gen := rfl

@[simp] theorem RxSlot.opened_state (x : RxSlot) (ri dt : Nat) :
    (x.opened ri dt).state = .recv := rfl
@[simp] theorem RxSlot.opened_rule (x : RxSlot) (ri dt : Nat) :
    (x.opened ri dt).rule = BitVec.ofNat 8 ri := rfl
@[simp] theorem RxSlot.opened_dtag (x : RxSlot) (ri dt : Nat) :
    (x.opened ri dt).dtag = BitVec.ofNat 8 dt := rfl
@[simp] theorem RxSlot.opened_rcvd (x : RxSlot) (ri dt : Nat) :
    (x.opened ri dt).rcvd = x.rcvd := rfl
@[simp] theorem RxSlot.opened_tile (x : RxSlot) (ri dt : Nat) :
    (x.opened ri dt).tile = x.tile := rfl
@[simp] theorem RxSlot.opened_all1 (x : RxSlot) (ri dt : Nat) :
    (x.opened ri dt).all1 = x.all1 := rfl
@[simp] theorem RxSlot.opened_wl (x : RxSlot) (ri dt : Nat) : (x.opened ri dt).wl = x.wl := rfl
@[simp] theorem RxSlot.opened_mic (x : RxSlot) (ri dt : Nat) : (x.opened ri dt).mic = x.mic := rfl
@[simp] theorem RxSlot.opened_nAppend (x : RxSlot) (ri dt : Nat) :
    (x.opened ri dt).nAppend = x.nAppend := rfl
@[simp] theorem RxSlot.opened_micRounds (x : RxSlot) (ri dt : Nat) :
    (x.opened ri dt).micRounds = x.micRounds := rfl
@[simp] theorem RxSlot.opened_armed (x : RxSlot) (ri dt : Nat) :
    (x.opened ri dt).armed = x.armed := rfl
@[simp] theorem RxSlot.opened_gen (x : RxSlot) (ri dt : Nat) : (x.opened ri dt).gen = x.gen := rfl

end Sys2Proof.Machine
end

