-- ==== Sys2Proof/Laws/Store.lean ====
section
/-!
SUPPORT. Laws of the sparse stores and of CBUF (Machine/Ops.lean): a read after a write, the
canonical form, and the addresses listed.
-/

namespace Sys2Proof.Machine

/-! ### Sparse stores -/

section
variable {β : Type} (d : β)

@[simp] theorem Store.read_nil (a : Nat) : Store.read d [] a = d := rfl

@[simp] theorem Store.wf_nil : Store.Wf d ([] : List (Nat × β)) :=
  ⟨List.Pairwise.nil, by simp⟩

theorem Store.wf_tail {e : Nat × β} {m : List (Nat × β)} (h : Store.Wf d (e :: m)) :
    Store.Wf d m := by
  obtain ⟨h1, h2⟩ := h
  exact ⟨(List.pairwise_cons.1 h1).2, fun x hx => h2 x (List.mem_cons_of_mem _ hx)⟩

/-- Nothing is listed below the first address. -/
theorem Store.read_of_lt {m : List (Nat × β)} {a : Nat} (h : ∀ e ∈ m, a < e.1) :
    Store.read d m a = d := by
  induction m with
  | nil => rfl
  | cons e m ih =>
    have h1 := h e (List.mem_cons_self ..)
    rw [Store.read, if_neg (by omega), ih (fun x hx => h x (List.mem_cons_of_mem _ hx))]

variable [DecidableEq β]

theorem Store.mem_write {m : List (Nat × β)} {a : Nat} {v : β} {e : Nat × β}
    (h : e ∈ Store.write d m a v) : e = (a, v) ∨ e ∈ m := by
  induction m with
  | nil => simp only [Store.write] at h; split at h <;> simp_all
  | cons x m ih =>
    simp only [Store.write] at h
    split at h
    · split at h <;> simp_all
    · split at h
      · split at h <;> simp_all
        tauto
      · rcases List.mem_cons.1 h with rfl | h
        · exact .inr (List.mem_cons_self ..)
        · rcases ih h with h | h
          · exact .inl h
          · exact .inr (List.mem_cons_of_mem _ h)

/-- A write keeps the canonical form. -/
theorem Store.wf_write {m : List (Nat × β)} (h : Store.Wf d m) (a : Nat) (v : β) :
    Store.Wf d (Store.write d m a v) := by
  induction m with
  | nil =>
    simp only [Store.write]
    split
    · exact h
    · exact ⟨List.pairwise_singleton .., by simpa⟩
  | cons x m ih =>
    have ht := Store.wf_tail d h
    obtain ⟨h1, h2⟩ := h
    have hx := (List.pairwise_cons.1 h1).1
    simp only [Store.write]
    split
    · split
      · exact ⟨h1, h2⟩
      · refine ⟨List.pairwise_cons.2 ⟨fun e he => ?_, h1⟩, fun e he => ?_⟩
        · rcases List.mem_cons.1 he with rfl | he
          · assumption
          · exact lt_trans (by assumption) (hx e he)
        · rcases List.mem_cons.1 he with rfl | he
          · assumption
          · exact h2 e he
    · split
      · split
        · exact ht
        · refine ⟨List.pairwise_cons.2 ⟨fun e he => ?_, ht.1⟩, fun e he => ?_⟩
          · simp only; rename_i h3 _; rw [h3]; exact hx e he
          · rcases List.mem_cons.1 he with rfl | he
            · assumption
            · exact ht.2 e he
      · refine ⟨List.pairwise_cons.2 ⟨fun e he => ?_, (ih ht).1⟩, fun e he => ?_⟩
        · rcases Store.mem_write d he with rfl | he
          · simp only; omega
          · exact hx e he
        · rcases List.mem_cons.1 he with rfl | he
          · exact h2 _ (List.mem_cons_self ..)
          · exact (ih ht).2 e he

/-- A read after a write (canonical stores): the value written there, what was there elsewhere. -/
theorem Store.read_write {m : List (Nat × β)} (h : Store.Wf d m) (a b : Nat) (v : β) :
    Store.read d (Store.write d m a v) b = if b = a then v else Store.read d m b := by
  induction m with
  | nil =>
    simp only [Store.write]
    split
    · simp_all
    · simp [Store.read, eq_comm]
  | cons x m ih =>
    have hx := (List.pairwise_cons.1 h.1).1
    have ht := Store.wf_tail d h
    simp only [Store.write]
    split
    · have hlo : Store.read d (x :: m) a = d := Store.read_of_lt d (fun e he => by
        rcases List.mem_cons.1 he with rfl | he
        · assumption
        · exact lt_trans (by assumption) (hx e he))
      split
      · by_cases hb : b = a
        · subst hb; simp_all
        · simp [hb]
      · by_cases hb : b = a
        · subst hb; simp [Store.read]
        · simp [hb, Store.read, Ne.symm hb]
    · split
      · have hlo : Store.read d m a = d := Store.read_of_lt d (fun e he => by
          rename_i h3; rw [h3]; exact hx e he)
        split
        · by_cases hb : b = a
          · subst hb; simp_all
          · rename_i h3 _
            simp [hb, Store.read, ← h3, Ne.symm hb]
        · rename_i h3 _
          by_cases hb : b = a
          · subst hb; simp [Store.read]
          · simp [hb, Store.read, ← h3, Ne.symm hb]
      · simp only [Store.read, ih ht]
        by_cases hb : b = a
        · subst hb; rename_i h3; simp [Ne.symm h3]
        · simp [hb]

end

/-! ### CBUF -/

theorem setBit_getLsbD (b : Byte) (i j : Nat) (v : Bool) (hi : i < 8) :
    (setBit b i v).getLsbD j = if j = i then v else b.getLsbD j := by
  unfold setBit
  by_cases hj : j < 8
  · have h1 : (1#8 <<< i).getLsbD j = decide (j = i) := by
      rw [BitVec.getLsbD_shiftLeft, BitVec.getLsbD_one]
      by_cases h : j = i
      · simp [h, hi]
      · simp only [h, decide_false]
        by_cases h2 : j < i
        · simp [h2]
        · simp [show ¬ j - i = 0 by omega]
    cases v
    · rw [if_neg (by simp), BitVec.getLsbD_and, BitVec.getLsbD_not, h1]
      by_cases h : j = i <;> simp [h, hj]
    · rw [if_pos rfl, BitVec.getLsbD_or, h1]
      by_cases h : j = i <;> simp [h]
  · have : j ≠ i := by omega
    rw [if_neg this, BitVec.getLsbD_of_ge _ _ (by omega), BitVec.getLsbD_of_ge _ _ (by omega)]

/-- CBUF after reset is in canonical form. -/
theorem Memory.wf_reset (cfg : Config) : Memory.wf (State.resetWith cfg).cod.cbuf :=
  Store.wf_nil _

/-- A byte write keeps CBUF's canonical form. -/
theorem Memory.wf_writeByte {m : List Host.Cell} (h : Memory.wf m) (a : Nat) (v : Byte) :
    Memory.wf (Memory.writeByte m a v) := Store.wf_write _ h a v

/-- A byte read after a byte written (canonical CBUF). -/
theorem Memory.readByte_writeByte {m : List Host.Cell} (h : Memory.wf m) (a b : Nat) (v : Byte) :
    Memory.readByte (Memory.writeByte m a v) b = if b = a then v else Memory.readByte m b :=
  Store.read_write _ h a b v

/-- A bit read after a bit written (canonical CBUF). -/
theorem Memory.bit_setBitAt {m : List Host.Cell} (h : Memory.wf m) (p q : Nat) (v : Bool) :
    Memory.bit (Memory.setBitAt m p v) q = if q = p then v else Memory.bit m q := by
  unfold Memory.bit Memory.setBitAt Memory.writeByte Memory.readByte
  rw [Store.read_write _ h]
  by_cases hb : q / 8 = p / 8
  · rw [if_pos hb, setBit_getLsbD _ _ _ _ (by omega)]
    by_cases hq : q = p
    · simp [hq]
    · rw [if_neg (by omega), if_neg hq, hb]
  · rw [if_neg hb, if_neg (by rintro rfl; exact hb rfl)]

theorem Memory.wf_setBitAt {m : List Host.Cell} (h : Memory.wf m) (p : Nat) (v : Bool) :
    Memory.wf (Memory.setBitAt m p v) := Store.wf_write _ h _ _

/-- Every write of CBUF keeps its canonical form. -/
theorem Memory.wf_bitWrite {m : List Host.Cell} (h : Memory.wf m) (p : Nat) (s : Bits) :
    Memory.wf (Memory.bitWrite m p s) := by
  induction s generalizing m p with
  | nil => exact h
  | cons b s ih => exact ih (Memory.wf_setBitAt h p b) (p + 1)

/-- A bit read after a bit string written (canonical CBUF). -/
theorem Memory.bit_bitWrite {m : List Host.Cell} (h : Memory.wf m) (p q : Nat) (s : Bits) :
    Memory.bit (Memory.bitWrite m p s) q =
      if p ≤ q ∧ q < p + s.length then s.getD (q - p) false else Memory.bit m q := by
  induction s generalizing m p with
  | nil =>
    rw [if_neg (by simp only [List.length_nil]; omega)]
    rfl
  | cons b s ih =>
    rw [Memory.bitWrite, ih (Memory.wf_setBitAt h p b), Memory.bit_setBitAt h]
    simp only [List.length_cons]
    rcases lt_trichotomy q p with hq | rfl | hq
    · rw [if_neg (by omega), if_neg (by omega), if_neg (by omega)]
    · rw [if_neg (by omega), if_pos rfl, if_pos (by omega)]
      simp
    · rw [if_neg (show q ≠ p by omega)]
      by_cases h2 : q < p + (s.length + 1)
      · rw [if_pos (by omega), if_pos (by omega)]
        obtain ⟨k, hk⟩ : ∃ k, q - p = k + 1 := ⟨q - p - 1, by omega⟩
        rw [hk, List.getD_cons_succ]
        congr 1
        omega
      · rw [if_neg (by omega), if_neg (by omega)]

@[simp] theorem Memory.bitRead_length (m : List Host.Cell) (p n : Nat) :
    (Memory.bitRead m p n).length = n := by
  induction n generalizing p with
  | zero => rfl
  | succ n ih => simp [Memory.bitRead, ih]

theorem Memory.bitRead_getElem (m : List Host.Cell) (p n j : Nat)
    (h : j < (Memory.bitRead m p n).length) :
    (Memory.bitRead m p n)[j] = Memory.bit m (p + j) := by
  induction n generalizing p j with
  | zero => simp at h
  | succ n ih =>
    cases j with
    | zero => simp [Memory.bitRead]
    | succ j =>
      simp only [Memory.bitRead, List.getElem_cons_succ]
      rw [ih]
      congr 1
      omega

theorem Memory.bitRead_congr {m m' : List Host.Cell} {p n : Nat}
    (h : ∀ q, p ≤ q → q < p + n → Memory.bit m q = Memory.bit m' q) :
    Memory.bitRead m p n = Memory.bitRead m' p n := by
  apply List.ext_getElem (by simp)
  intro j h1 h2
  have : j < n := by simpa using h1
  rw [Memory.bitRead_getElem, Memory.bitRead_getElem, h _ (by omega) (by omega)]

/-- What was written is read back (canonical CBUF). -/
theorem Memory.bitRead_bitWrite {m : List Host.Cell} (h : Memory.wf m) (p : Nat) (s : Bits) :
    Memory.bitRead (Memory.bitWrite m p s) p s.length = s := by
  apply List.ext_getElem (by simp)
  intro j h1 h2
  rw [Memory.bitRead_getElem, Memory.bit_bitWrite h, if_pos (by omega)]
  simp [List.getElem?_eq_getElem h2]

/-- The bytes a write lists are listed before, or hold a bit written. -/
theorem Memory.mem_bitWrite {m : List Host.Cell} {p : Nat} {s : Bits} {e : Host.Cell}
    (h : e ∈ Memory.bitWrite m p s) : e ∈ m ∨ (p / 8 ≤ e.1 ∧ 8 * e.1 < p + s.length) := by
  induction s generalizing m p with
  | nil => exact .inl h
  | cons b s ih =>
    simp only [List.length_cons]
    rcases ih h with h | ⟨h1, h2⟩
    · rcases Store.mem_write _ h with rfl | h
      · right; simp only; omega
      · exact .inl h
    · right; omega

theorem Memory.mem_ofBytes {a : Nat} {d : List Byte} {e : Host.Cell}
    (h : e ∈ Memory.ofBytes a d) : a ≤ e.1 ∧ e.1 < a + d.length ∧ e.2 ≠ unlistedByte := by
  induction d generalizing a with
  | nil => simp [Memory.ofBytes] at h
  | cons b d ih =>
    simp only [Memory.ofBytes] at h
    simp only [List.length_cons]
    split at h
    · obtain ⟨h1, h2, h3⟩ := ih h
      exact ⟨by omega, by omega, h3⟩
    · rcases List.mem_cons.1 h with rfl | h
      · exact ⟨le_refl _, by simp only; omega, by assumption⟩
      · obtain ⟨h1, h2, h3⟩ := ih h
        exact ⟨by omega, by omega, h3⟩

/-- CB_LOAD's contents are in canonical form. -/
theorem Memory.wf_ofBytes (a : Nat) (d : List Byte) : Memory.wf (Memory.ofBytes a d) := by
  refine ⟨?_, fun e he => (Memory.mem_ofBytes he).2.2⟩
  induction d generalizing a with
  | nil => simp [Memory.ofBytes]
  | cons b d ih =>
    simp only [Memory.ofBytes]
    split
    · exact ih _
    · refine List.pairwise_cons.2 ⟨fun e he => ?_, ih _⟩
      have := (Memory.mem_ofBytes he).1
      simp only
      omega

theorem Memory.readByte_ofBytes (a : Nat) (d : List Byte) (b : Nat) (h : a ≤ b) :
    Memory.readByte (Memory.ofBytes a d) b = d.getD (b - a) unlistedByte := by
  induction d generalizing a with
  | nil => simp [Memory.ofBytes, Memory.readByte]
  | cons x d ih =>
    simp only [Memory.ofBytes]
    rcases Nat.eq_or_lt_of_le h with rfl | h1
    · split
      · rename_i hx
        have : Memory.readByte (Memory.ofBytes (a + 1) d) a = unlistedByte :=
          Store.read_of_lt _ (fun e he => by have := (Memory.mem_ofBytes he).1; omega)
        simp [this, hx]
      · simp [Memory.readByte, Store.read]
    · obtain ⟨k, hk⟩ : ∃ k, b - a = k + 1 := ⟨b - a - 1, by omega⟩
      have hk' : b - (a + 1) = k := by omega
      have := ih (a + 1) (by omega)
      rw [hk'] at this
      rw [hk, List.getD_cons_succ, ← this]
      split
      · rfl
      · simp only [Memory.readByte, Store.read]
        rw [if_neg (by omega)]

end Sys2Proof.Machine
end

