-- ==== Sys2Proof/Laws/Ops.lean ====
section
/-!
SUPPORT. What the shared operations of Machine/Flags.lean and Machine/Ops.lean can do, once each: how
a command ends, CBUF after a write, slots after a replacement, timers.
-/

namespace Sys2Proof.Machine

/-! ### How a command ends -/

theorem reply_next {s t : State} {r : CmdResult} : reply s r = .next t ↔ withResult s r = t := by
  simp [reply]

theorem raise_next {s t : State} {st : Status} :
    raise s st = .next t ↔ withResult s (CmdResult.plain st) = t := by
  simp [raise, reply]

@[simp] theorem plain_status (st : Status) : (CmdResult.plain st).status = st := rfl
@[simp] theorem plain_r0 (st : Status) : (CmdResult.plain st).r0 = 0 := rfl
@[simp] theorem plain_r1 (st : Status) : (CmdResult.plain st).r1 = 0 := rfl
@[simp] theorem plain_dataOut (st : Status) : (CmdResult.plain st).dataOut = [] := rfl
@[simp] theorem plain_events (st : Status) : (CmdResult.plain st).events = [] := rfl

@[simp] theorem slotResult_status (st : Status) (i : Nat) (evs : List Event) :
    (slotResult st i evs).status = st := rfl
@[simp] theorem slotResult_r0 (st : Status) (i : Nat) (evs : List Event) :
    (slotResult st i evs).r0 = slotWord i := rfl
@[simp] theorem slotResult_r1 (st : Status) (i : Nat) (evs : List Event) :
    (slotResult st i evs).r1 = 0 := rfl
@[simp] theorem slotResult_dataOut (st : Status) (i : Nat) (evs : List Event) :
    (slotResult st i evs).dataOut = [] := rfl
@[simp] theorem slotResult_events (st : Status) (i : Nat) (evs : List Event) :
    (slotResult st i evs).events = evs := rfl

/-! ### CBUF at POS -/

/-- CBUF after WriteAtPos (R121): the bits written, and every other bit as before. -/
theorem bit_writeAtPos {s : State} (h : Memory.wf s.cod.cbuf) (bs : Bits) (p : Nat) :
    Memory.bit (writeAtPos s bs).cod.cbuf p =
      if s.cod.pos.toNat ≤ p ∧ p < s.cod.pos.toNat + bs.length
      then bs.getD (p - s.cod.pos.toNat) false else Memory.bit s.cod.cbuf p := by
  simp [Memory.bit_bitWrite h]

theorem writeAtPos_pos_toNat {s : State} {bs : Bits}
    (h : s.cod.pos.toNat + bs.length < 2 ^ 32) :
    (writeAtPos s bs).cod.pos.toNat = s.cod.pos.toNat + bs.length := by
  simpa using h

theorem writeAtPos_cbLen_toNat {s : State} {bs : Bits}
    (h : s.cod.pos.toNat + bs.length < 2 ^ 32) :
    (writeAtPos s bs).cod.cbLen.toNat = max s.cod.cbLen.toNat (s.cod.pos.toNat + bs.length) := by
  simp only [writeAtPos_cod_cbLen, BitVec.toNat_ofNat]
  apply Nat.mod_eq_of_lt
  have := s.cod.cbLen.isLt
  omega

theorem advancePos_pos_toNat {s : State} {n : Nat} (h : s.cod.pos.toNat + n < 2 ^ 32) :
    (advancePos s n).cod.pos.toNat = s.cod.pos.toNat + n := by
  simpa using h

/-! ### Slots -/

theorem rxSlot_eq_getElem {s : State} {i : Nat} (h : i < s.rx.length) :
    rxSlot s i = s.rx[i] := by
  simp [rxSlot, h]

theorem rxSlot_mem {s : State} {i : Nat} (h : i < s.rx.length) : rxSlot s i ∈ s.rx := by
  rw [rxSlot_eq_getElem h]; exact List.getElem_mem h

/-- An index beyond the slots reads as a slot at reset. -/
theorem rxSlot_of_le {s : State} {i : Nat} (h : s.rx.length ≤ i) : rxSlot s i = RxSlot.reset := by
  simp [rxSlot, h]

theorem setRx_length (s : State) (i : Nat) (x : RxSlot) : (setRx s i x).rx.length = s.rx.length := by
  simp

theorem rxSlot_setRx_self {s : State} {i : Nat} (x : RxSlot) (h : i < s.rx.length) :
    rxSlot (setRx s i x) i = x := by
  simp [rxSlot, h]

theorem rxSlot_setRx_ne {s : State} {i j : Nat} (x : RxSlot) (h : j ≠ i) :
    rxSlot (setRx s i x) j = rxSlot s j := by
  simp [rxSlot, List.getElem?_set_ne (Ne.symm h)]

theorem mem_setRx {s : State} {i : Nat} {x y : RxSlot} (h : y ∈ (setRx s i x).rx) :
    y = x ∨ y ∈ s.rx := by
  rcases List.mem_or_eq_of_mem_set h with h | h
  · exact .inr h
  · exact .inl h

/-- A slot replaced by itself is no change. -/
theorem setRx_rxSlot (s : State) (i : Nat) : setRx s i (rxSlot s i) = s := by
  by_cases h : i < s.rx.length
  · rw [rxSlot_eq_getElem h]; simp [setRx]
  · simp [setRx, List.set_eq_of_length_le (Nat.le_of_not_lt h)]

theorem setRx_setRx (s : State) (i : Nat) (x y : RxSlot) :
    setRx (setRx s i x) i y = setRx s i y := by
  simp [setRx]

/-- Find (R213) names a slot that is there and is the connection. -/
theorem findConn_some {s : State} {ri dt i : Nat} (h : findConn s ri dt = some i) :
    i < s.rx.length ∧ isConn ri dt (rxSlot s i) ∧ ∀ j < i, ¬ isConn ri dt (rxSlot s j) := by
  obtain ⟨hi, h1, h2⟩ := List.findIdx?_eq_some_iff_getElem.1 h
  refine ⟨hi, by rw [rxSlot_eq_getElem hi]; simpa using h1, fun j hj => ?_⟩
  rw [rxSlot_eq_getElem (by omega)]
  simpa using h2 j hj

/-- Find (R213) answers none when no slot is the connection. -/
theorem findConn_none {s : State} {ri dt : Nat} :
    findConn s ri dt = none ↔ ∀ x ∈ s.rx, ¬ isConn ri dt x := by
  simp [findConn]

theorem findFree_some {s : State} {i : Nat} (h : findFree s = some i) :
    i < s.rx.length ∧ (rxSlot s i).state = .free ∧ ∀ j < i, (rxSlot s j).state ≠ .free := by
  obtain ⟨hi, h1, h2⟩ := List.findIdx?_eq_some_iff_getElem.1 h
  refine ⟨hi, by rw [rxSlot_eq_getElem hi]; simpa using h1, fun j hj => ?_⟩
  rw [rxSlot_eq_getElem (by omega)]
  simpa using h2 j hj

theorem findFree_none {s : State} : findFree s = none ↔ ∀ x ∈ s.rx, x.state ≠ .free := by
  simp [findFree]

/-! ### Stores of a slot -/

/-- RX_RCVD after a tile is stored (canonical stores). -/
theorem RxSlot.rcvdBit_store {x : RxSlot} (h : Store.Wf false x.rcvd) (p q : Nat) (t : Bits) :
    (x.store p t).rcvdBit q = if q = p then true else x.rcvdBit q := by
  simp [RxSlot.rcvdBit, Store.read_write _ h]

/-- RX_TILE after a tile is stored (canonical stores). -/
theorem RxSlot.tileAt_store {x : RxSlot} (h : Store.Wf [] x.tile) (p q : Nat) (t : Bits) :
    (x.store p t).tileAt q = if q = p then t else x.tileAt q := by
  simp [RxSlot.tileAt, Store.read_write _ h]

/-- What accepting a tile (R216) leaves of a slot: either nothing is stored, or the tile is. -/
theorem RxSlot.accept_cases (x : RxSlot) (r : FragRule) (p : Nat) (t : Bits) :
    (noAck0 r ∧ x.accept r p t = { x.store p t with nAppend := x.nAppend + 1 }) ∨
    (¬ noAck0 r ∧ x.rcvdBit p = true ∧ x.accept r p t = x) ∨
    (¬ noAck0 r ∧ x.rcvdBit p = false ∧ x.accept r p t = x.store p t) := by
  unfold RxSlot.accept
  by_cases h : noAck0 r
  · exact .inl ⟨h, if_pos h⟩
  · rw [if_neg h]
    cases hb : x.rcvdBit p
    · exact .inr (.inr ⟨h, rfl, by simp⟩)
    · exact .inr (.inl ⟨h, rfl, by simp⟩)

end Sys2Proof.Machine
end

