-- ==== Sys2Proof/Laws/Tx.lean ====
section
/-!
SUPPORT. What the TX commands can do, once each (spec/41_tx.md R179 to R186): every next state they
answer, with its guards.
-/

namespace Sys2Proof.Machine

/-- TX_OUTPUT (R179) answers a status alone, or starts an exchange under a rule that passed every
check. -/
theorem execTxOutput_cases {a : Byte} {d : List Byte} {s t : State}
    (h : execTxOutput a d s = .next t) :
    (∃ st, st ≠ .success ∧ t = withResult s (CmdResult.plain st)) ∨
    ∃ r, s.tx.state ≠ .wait ∧ s.cfg.ctx.frag[a.toNat]? = some r ∧ serves r s.cfg.par.txDir ∧
      fragRuleOk r ∧ mtuFits s.cfg.par.mtu r ∧ s.cfg.par.mtu ≤ d.length ∧
      d.length ≤ s.cfg.par.txMaxBytes ∧ ¬ tooManyWindows s.cfg.par.mtu r d.length ∧
      txLaunch r (txLoad s a r d) = .next t := by
  unfold execTxOutput at h
  split at h
  · exact .inl ⟨_, by simp, (reply_next.1 h).symm⟩
  split at h
  · exact .inl ⟨_, by simp, (raise_next.1 h).symm⟩
  split at h
  · exact .inl ⟨_, by simp, (raise_next.1 h).symm⟩
  rename_i hl hb _ r hr
  split at h
  · exact .inl ⟨_, by simp, (raise_next.1 h).symm⟩
  rename_i hs
  split at h
  · exact .inl ⟨_, by simp, (raise_next.1 h).symm⟩
  rename_i hok
  split at h
  · exact .inl ⟨_, by simp, (raise_next.1 h).symm⟩
  rename_i hm
  split at h
  · exact .inl ⟨_, by simp, (raise_next.1 h).symm⟩
  rename_i hw
  rw [not_not] at hs hok
  exact .inr ⟨r, hb, hr, hs, hok.1, hok.2, by omega, by omega, hw, h⟩

/-- TX_OUTPUT from the mode on (R179): one result per mode. -/
theorem txLaunch_cases {r : FragRule} {s t : State} (h : txLaunch r s = .next t) :
    (isNoAck r ∧ t = withResult (txGoto s s.tx.wl .ended)
      { CmdResult.plain .success with events := sendAll s r }) ∨
    (¬ isNoAck r ∧ isAckAlways r ∧ t = withResult (armTx (txGoto s 0 .wait))
      { CmdResult.plain .success with events := sendWindow s r 0 ++ armTxEvents s }) ∨
    (¬ isNoAck r ∧ ¬ isAckAlways r ∧ t = withResult (armTx (txGoto s s.tx.wl .wait))
      { CmdResult.plain .success with events := sendAll s r ++ armTxEvents s }) := by
  unfold txLaunch at h
  split at h
  · exact .inl ⟨by assumption, (reply_next.1 h).symm⟩
  split at h
  · exact .inr (.inl ⟨by assumption, by assumption, (reply_next.1 h).symm⟩)
  · exact .inr (.inr ⟨by assumption, by assumption, (reply_next.1 h).symm⟩)

/-- NonFinalAck (R182): resend and re-arm, advance and re-arm, or nothing. -/
theorem nonFinalAck_cases {s t : State} {r : FragRule} {m : AckMsg}
    (h : nonFinalAck s r m = .next t) :
    (∃ evs, t = withResult (armTx s) (ackWait (evs ++ armTxEvents s)) ∧
      ∀ e ∈ evs, ∃ b, e = Event.send b) ∨
    (isAckAlways r ∧ t = withResult
      (armTx { s with tx := { s.tx with win := BitVec.ofNat 8 (m.w + 1) } })
      (ackWait (sendWindow s r (m.w + 1) ++ armTxEvents s))) ∨
    (¬ isAckAlways r ∧ t = withResult s (ackWait [])) := by
  unfold nonFinalAck at h
  simp only at h
  split at h
  · refine .inl ⟨_, (reply_next.1 h).symm, fun e he => ?_⟩
    simp only [List.mem_append, List.mem_map, List.mem_singleton] at he
    rcases he with ⟨q, -, rfl⟩ | rfl <;> exact ⟨_, rfl⟩
  split at h
  · exact .inr (.inl ⟨by assumption, (reply_next.1 h).symm⟩)
  · exact .inr (.inr ⟨by assumption, (reply_next.1 h).symm⟩)

/-- MicRound (R184): the one retransmission round, by mode, or the exchange given up. -/
theorem micRound_cases {s t : State} {r : FragRule} (h : micRound s r = .next t) :
    (s.tx.micRounds = false ∧ isAckAlways r ∧ t = withResult
      (armTx { s with tx := { s.tx with micRounds := true, win := 0 } })
      (ackWait (sendWindow s r 0 ++ armTxEvents s))) ∨
    (s.tx.micRounds = false ∧ ¬ isAckAlways r ∧ t = withResult
      (armTx { s with tx := { s.tx with micRounds := true } })
      (ackWait (sendAll s r ++ armTxEvents s))) ∨
    (s.tx.micRounds = true ∧ t = withResult (leaveTx s .aborted)
      { CmdResult.plain .txMicFailed with
        r0 := TxPhase.aborted.code, events := cancelEvents .tx s.tx.armed }) := by
  unfold micRound at h
  split at h
  · split at h
    · exact .inl ⟨by assumption, by assumption, (reply_next.1 h).symm⟩
    · exact .inr (.inl ⟨by assumption, by assumption, (reply_next.1 h).symm⟩)
  · exact .inr (.inr ⟨by simpa using ‹¬ s.tx.micRounds = false›, (reply_next.1 h).symm⟩)

/-- FinalAck (R183): the end, resend and re-arm, or MicRound. -/
theorem finalAck_cases {s t : State} {r : FragRule} {m : AckMsg}
    (h : finalAck s r m = .next t) :
    (m.c = true ∧ t = withResult (leaveTx s .ended) { CmdResult.plain .ackHandled with
      r0 := TxPhase.ended.code, events := cancelEvents .tx s.tx.armed }) ∨
    (∃ evs, t = withResult (armTx s) (ackWait (evs ++ armTxEvents s)) ∧
      ∀ e ∈ evs, ∃ b, e = Event.send b) ∨
    micRound s r = .next t := by
  unfold finalAck at h
  split at h
  · exact .inl ⟨by assumption, (reply_next.1 h).symm⟩
  simp only at h
  split at h
  · refine .inr (.inl ⟨_, (reply_next.1 h).symm, fun e he => ?_⟩)
    simp only [List.mem_append, List.mem_map, List.mem_singleton] at he
    rcases he with ⟨q, -, rfl⟩ | rfl <;> exact ⟨_, rfl⟩
  · exact .inr (.inr h)

/-- TX_ACK_INPUT (R181): a contract error in INIT, ignored, or the handling of an accepted ACK. -/
theorem execTxAckInput_cases {d : List Byte} {s t : State} (h : execTxAckInput d s = .next t) :
    (s.tx.state = .init ∧ t = withResult s (CmdResult.plain .errContract)) ∨
    (s.tx.state ≠ .init ∧ t = withResult s (ackIgnored s)) ∨
    ∃ r, s.tx.state = .wait ∧ txRule s = some r ∧ ackAccepted s r (unpack d) ∧
      (((ackFields r (unpack d)).w < s.tx.wl.toNat ∧
        nonFinalAck (txAttempts0 s) r (ackFields r (unpack d)) = .next t) ∨
      ((ackFields r (unpack d)).w = s.tx.wl.toNat ∧
        finalAck (txAttempts0 s) r (ackFields r (unpack d)) = .next t)) := by
  unfold execTxAckInput at h
  split at h
  · exact .inl ⟨by assumption, (raise_next.1 h).symm⟩
  rename_i hi
  split at h
  · exact .inr (.inl ⟨hi, (reply_next.1 h).symm⟩)
  rename_i hw
  rw [not_not] at hw
  split at h
  · cases h
  rename_i r hr
  split at h
  · exact .inr (.inl ⟨hi, (reply_next.1 h).symm⟩)
  rename_i ha
  rw [not_not] at ha
  split at h
  · exact .inr (.inr ⟨r, hw, hr, ha, .inl ⟨by assumption, h⟩⟩)
  · have h4 := ha.2.2.2.1
    exact .inr (.inr ⟨r, hw, hr, ha, .inr ⟨by omega, h⟩⟩)

/-- TX_TIMER_FIRE (R185): stale, not waiting, resent, or timed out. -/
theorem execTxTimerFire_cases {g : Word} {s t : State} (h : execTxTimerFire g s = .next t) :
    ((s.tx.armed = false ∨ g ≠ s.tx.gen) ∧ t = withResult s (CmdResult.plain .ignored)) ∨
    (s.tx.armed = true ∧ g = s.tx.gen ∧ s.tx.state ≠ .wait ∧
      t = withResult (txDisarm s) (CmdResult.plain .ignored)) ∨
    (∃ r, s.tx.armed = true ∧ g = s.tx.gen ∧ s.tx.state = .wait ∧
      s.tx.attempts.toNat < s.cfg.par.maxAckReq ∧ txRule s = some r ∧
      t = withResult
        (armTx { s with tx := { s.tx with armed := false, attempts := s.tx.attempts + 1 } })
        { CmdResult.plain .resent with
          events := [sendTerminal s r s.tx.win.toNat,
            .sched .tx s.cfg.par.retxDelay (s.tx.gen + 1)] }) ∨
    (s.tx.armed = true ∧ g = s.tx.gen ∧ s.tx.state = .wait ∧
      s.cfg.par.maxAckReq ≤ s.tx.attempts.toNat ∧
      t = withResult (leaveTx s .aborted) (CmdResult.plain .txTimeout)) := by
  unfold execTxTimerFire at h
  split at h
  · exact .inl ⟨by assumption, (reply_next.1 h).symm⟩
  rename_i hc
  rw [not_or, not_not] at hc
  have ha : s.tx.armed = true := by simpa using hc.1
  split at h
  · exact .inr (.inl ⟨ha, hc.2, by assumption, (reply_next.1 h).symm⟩)
  rename_i hw
  rw [not_not] at hw
  split at h
  · rename_i hm
    split at h
    · cases h
    · rename_i r hr
      exact .inr (.inr (.inl ⟨r, ha, hc.2, hw, hm, hr, (reply_next.1 h).symm⟩))
  · exact .inr (.inr (.inr ⟨ha, hc.2, hw, by omega, (reply_next.1 h).symm⟩))

/-! ### Sizes of an exchange -/

/-- A tile has at least one bit (R171, R179). -/
theorem tileBits_pos {mtu : Nat} {r : FragRule} (h : mtuFits mtu r) : 1 ≤ tileBits mtu r := by
  unfold tileBits
  have := h.1
  omega

/-- The message's bits fill `k` tiles, the last not empty (R171). -/
theorem tileCount_spec {mtu : Nat} {r : FragRule} (len : Nat) (h : mtuFits mtu r) :
    8 * len ≤ tileCount mtu r len * tileBits mtu r ∧
    (1 ≤ len → (tileCount mtu r len - 1) * tileBits mtu r < 8 * len) := by
  have hp := tileBits_pos h
  unfold tileCount ceilDiv
  generalize tileBits mtu r = tb at hp ⊢
  have h1 := Nat.div_add_mod (8 * len + tb - 1) tb
  have h2 := Nat.mod_lt (8 * len + tb - 1) (show 0 < tb by omega)
  generalize (8 * len + tb - 1) / tb = q at h1 ⊢
  rw [Nat.mul_comm] at h1
  refine ⟨by omega, fun hl => ?_⟩
  rw [Nat.sub_mul, Nat.one_mul]
  omega

/-- A rule with windows numbers them in its W field, so TX_K and TX_WL hold their numbers (R179). -/
theorem windows_fit {mtu len : Nat} {r : FragRule} (hr : fragRuleOk r) (hm : 1 ≤ r.m)
    (hw : ¬ tooManyWindows mtu r len) :
    tileCount mtu r len / r.ws < 2 ^ r.m ∧ tileCount mtu r len / r.ws < 2 ^ 8 ∧
    tileCount mtu r len < 2 ^ 32 := by
  obtain ⟨-, -, -, -, ⟨-, hn⟩, ⟨hws, hws'⟩, hm8, -, -⟩ := hr
  have h1 : tileCount mtu r len / r.ws + 1 ≤ 2 ^ r.m := by
    by_contra hc
    exact hw ⟨hm, by omega⟩
  have h2 : 2 ^ r.m ≤ 2 ^ 8 := Nat.pow_le_pow_right (by omega) hm8
  have h3 : 2 ^ r.n ≤ 2 ^ 8 := Nat.pow_le_pow_right (by omega) hn
  refine ⟨by omega, by omega, ?_⟩
  have h4 := Nat.lt_mul_div_succ (tileCount mtu r len) (show 0 < r.ws by omega)
  have h5 : r.ws * (tileCount mtu r len / r.ws + 1) ≤ 2 ^ 8 * 2 ^ 8 :=
    Nat.mul_le_mul (by omega) (by omega)
  omega

end Sys2Proof.Machine
end

