-- ==== Sys2Proof/Laws/Messages.lean ====
section
/-!
SUPPORT. The messages the TX path emits are those of spec/41_tx.md R171 to R175, by bit position.
-/

namespace Sys2Proof.Machine

open Sys2Proof.Safety

theorem unpack_getD (d : List Byte) (p : Nat) : (unpack d).getD p false = byteBit d p := by
  induction d generalizing p with
  | nil => simp [byteBit, unpack]
  | cons b d ih =>
    rw [unpack_cons, List.getD_eq_getElem?_getD, List.getElem?_append]
    by_cases hp : p < 8
    · have hl : p < (bitsOf 8 b.toNat).length := by simpa using hp
      have h0 : p / 8 = 0 := Nat.div_eq_of_lt hp
      have h1 : p % 8 = p := Nat.mod_eq_of_lt hp
      simp only [bitsOf_length, hp, if_true, List.getElem?_eq_getElem hl, Option.getD_some,
        bitsOf_getElem]
      simp [byteBit, h0, h1, BitVec.getLsbD]
    · have h0 : p / 8 = (p - 8) / 8 + 1 := by omega
      have h1 : p % 8 = (p - 8) % 8 := by omega
      simp only [bitsOf_length, hp, if_false, ← List.getD_eq_getElem?_getD, ih]
      simp [byteBit, h0, h1]

/-- R171: a tile as a cut of the message's bits. -/
theorem tileOf_eq_tile (mtu : Nat) (r : FragRule) (d : List Byte) (j : Nat) :
    tileOf (tileBits mtu r) d j = tile mtu r d j := by
  apply List.ext_getElem
  · simp only [tileOf, tile, tileBits, List.length_take, List.length_drop, unpack_length,
      List.length_map, List.length_range, Nat.succ_mul]
    omega
  · intro n h1 h2
    have h3 : j * tileBits mtu r + n < (unpack d).length := by
      simp only [tileOf, List.length_take, List.length_drop] at h1
      omega
    rw [show (tile mtu r d j)[n] = byteBit d (j * tileBits mtu r + n) by
      simp [tile, tileBits]]
    rw [← unpack_getD, List.getD_eq_getElem?_getD, List.getElem?_eq_getElem h3, Option.getD_some]
    simp [tileOf]

/-- R172, R173: `Send(Frag(j))` of the model. -/
theorem sendFrag_eq (s : State) (r : FragRule) (j : Nat) : sendFrag s r j = txFragment s r j := by
  simp [sendFrag, txFragment, fragment, fragBits, fragHeader, tileOf_eq_tile, bitsOf_mod]

/-- R174: `Send(All1)` of the model. -/
theorem sendAll1_eq (s : State) (r : FragRule) : sendAll1 s r = txAll1 s r := by
  simp [sendAll1, txAll1, all1Message, all1Bits, fragHeader, bitsOf_mod, micW]

/-- R175: `SendAll` of the model. -/
theorem sendAll_eq (s : State) (r : FragRule) : sendAll s r = txAll s r := by
  simp [sendAll, txAll, sendRange, sendAll1_eq, List.range_eq_range', sendFrag_eq]

theorem filter_range_window (k w ws : Nat) (h : 1 ≤ ws) :
    (List.range k).filter (fun j => j / ws = w) =
      List.range' (w * ws) (min ((w + 1) * ws) k - w * ws) := by
  induction k with
  | zero => simp
  | succ k ih =>
    rw [List.range_succ, List.filter_append, ih]
    have hd : k / ws = w ↔ w * ws ≤ k ∧ k < (w + 1) * ws := by
      rw [Nat.div_eq_iff (by omega)]
      rw [Nat.succ_mul]
      constructor <;> intro hh <;> omega
    by_cases hk : k / ws = w
    · obtain ⟨h1, h2⟩ := hd.mp hk
      rw [show min ((w + 1) * ws) (k + 1) - w * ws = (k - w * ws) + 1 by omega,
        show min ((w + 1) * ws) k - w * ws = k - w * ws by omega, List.range'_concat]
      simp [hk]
      omega
    · have : min ((w + 1) * ws) (k + 1) - w * ws = min ((w + 1) * ws) k - w * ws := by
        have : ¬ (w * ws ≤ k ∧ k < (w + 1) * ws) := fun hh => hk (hd.mpr hh)
        have : w * ws ≤ (w + 1) * ws := Nat.mul_le_mul_right _ (by omega)
        omega
      simp [hk, this]

/-- R175: `SendWindow(w)` of the model. -/
theorem sendWindow_eq (s : State) (r : FragRule) (w : Nat) (h : 1 ≤ r.ws) :
    sendWindow s r w = txWindow s r w := by
  simp only [sendWindow, txWindow, sendRange, filter_range_window _ _ _ h, sendAll1_eq,
    show sendFrag s r = txFragment s r from funext (sendFrag_eq s r)]

/-- R175: `Terminal(w)` of the model. -/
theorem sendTerminal_eq (s : State) (r : FragRule) (w : Nat) :
    sendTerminal s r w =
      if w = s.tx.wl.toNat then txAll1 s r else txFragment s r (w * r.ws + r.ws - 1) := by
  simp only [sendTerminal, sendAll1_eq, sendFrag_eq]

end Sys2Proof.Machine
end

