-- ==== Sys2Proof/Laws/PerInstr.lean ====
section
/-!
SUPPORT. Statements made of every instruction as syntax, one lemma per constructor.
-/

namespace Sys2Proof.Laws.EncodedFields

/-- The encoding of an instruction carries its opcode, operands and DATA_IN in the fields of R80, with
the reserved byte 0. -/
def Statement (i : Instr) : Prop :=
  fieldRsv (encode i).w0 = 0 ∧ fieldOpc (encode i).w0 = opcodeOf i ∧
  fieldA (encode i).w0 = i.operandA ∧ fieldB (encode i).w0 = i.operandB ∧
  (encode i).w1 = i.immediate ∧ (encode i).data = i.dataIn

theorem statement (i : Instr) : Statement i :=
  ⟨fieldRsv_packW0 _ _ _, fieldOpc_packW0 _ _ _, fieldA_packW0 _ _ _, fieldB_packW0 _ _ _, rfl, rfl⟩

theorem nop : Statement .nop := statement _
theorem txOutput (a : Byte) (d : List Byte) : Statement (.txOutput a d) := statement _
theorem txAckInput (d : List Byte) : Statement (.txAckInput d) := statement _
theorem txTimerFire (g : Word) : Statement (.txTimerFire g) := statement _
theorem txAbort : Statement .txAbort := statement _
theorem txQuery : Statement .txQuery := statement _
theorem rxFragInput (d : List Byte) : Statement (.rxFragInput d) := statement _
theorem rxTimerFire (a : Byte) (g : Word) : Statement (.rxTimerFire a g) := statement _
theorem rxAbort (a : Byte) : Statement (.rxAbort a) := statement _
theorem rxQuery (a : Byte) : Statement (.rxQuery a) := statement _
theorem cbLoad (d : List Byte) : Statement (.cbLoad d) := statement _
theorem cbClear : Statement .cbClear := statement _
theorem cbSeek (p : Word) : Statement (.cbSeek p) := statement _
theorem cbWrite (a : Byte) (v : Word) : Statement (.cbWrite a v) := statement _
theorem cbRead (a : Byte) : Statement (.cbRead a) := statement _
theorem cbUnload : Statement .cbUnload := statement _
theorem cbAppend (d : List Byte) : Statement (.cbAppend d) := statement _
theorem cbTail : Statement .cbTail := statement _
theorem fvLoad (d : List Byte) : Statement (.fvLoad d) := statement _
theorem fvStore (a : Byte) : Statement (.fvStore a) := statement _
theorem fdMatch (a : Byte) (b : Byte) : Statement (.fdMatch a b) := statement _
theorem fdEncode (a : Byte) (b : Byte) : Statement (.fdEncode a b) := statement _
theorem fdDecode (a : Byte) (b : Byte) : Statement (.fdDecode a b) := statement _
theorem ridWrite (a : Byte) (b : Byte) : Statement (.ridWrite a b) := statement _
theorem ridLookup (b : Byte) : Statement (.ridLookup b) := statement _

end Sys2Proof.Laws.EncodedFields
end

