-- ==== Sys2Proof/Laws/Rx.lean ====
section
/-!
SUPPORT. What RX_FRAG_INPUT and its steps can do, once each (spec/42_rx.md R211 to R224): every next
state they answer, with the slot they leave and the events they add.
-/

namespace Sys2Proof.Machine

/-- Every event of a list is a SEND. -/
def SendsOnly (l : List Event) : Prop := ∀ e ∈ l, ∃ b, e = Event.send b

theorem sendsOnly_nil : SendsOnly [] := by simp [SendsOnly]

theorem sendsOnly_sendAck (r : FragRule) (dtag : Byte) (w : Nat) (bm : Bits) (c : Option Bool) :
    SendsOnly [sendAck r dtag w bm c] := by
  intro e he
  exact ⟨_, List.mem_singleton.1 he⟩

/-- How an evaluation of slot `i` ends: the slot is one of `ys` and only SENDs are added, or the slot
is released and the CANCEL of its timer comes last. No evaluation ends in an error. -/
def Ends (s t : State) (i : Nat) (evs : List Event) (ys : List RxSlot) : Prop :=
  ∃ y res l, t = withResult (setRx s i y) res ∧ ¬ res.status.isError ∧ SendsOnly l ∧
    ((y ∈ ys ∧ res.events = evs ++ l) ∨
     (y = (rxSlot s i).released ∧
       res.events = evs ++ (l ++ cancelEvents (.rx i) (rxSlot s i).armed)))

theorem Ends.mono {s t : State} {i : Nat} {evs : List Event} {ys zs : List RxSlot}
    (h : Ends s t i evs ys) (hsub : ∀ y ∈ ys, y ∈ zs) : Ends s t i evs zs := by
  obtain ⟨y, res, l, h1, h2, h3, h4⟩ := h
  refine ⟨y, res, l, h1, h2, h3, ?_⟩
  rcases h4 with ⟨h4, h5⟩ | h4
  · exact .inl ⟨hsub y h4, h5⟩
  · exact .inr h4

/-- An evaluation that keeps the slot (R219, R220). -/
theorem ends_keep {s t : State} {i : Nat} {evs l : List Event} {st : Status}
    (h : reply s (slotResult st i (evs ++ l)) = .next t) (hst : ¬ st.isError)
    (hl : SendsOnly l) : Ends s t i evs [rxSlot s i] := by
  refine ⟨rxSlot s i, slotResult st i (evs ++ l), l, ?_, hst, hl, .inl ⟨by simp, rfl⟩⟩
  rw [setRx_rxSlot]
  exact (reply_next.1 h).symm

/-- WindowEval (R219) keeps the slot. -/
theorem windowEval_ends {r : FragRule} {i w : Nat} {evs : List Event} {s t : State}
    (h : windowEval r i w evs s = .next t) : Ends s t i evs [rxSlot s i] := by
  unfold windowEval at h
  simp only at h
  split at h
  · exact ends_keep h (by decide) (sendsOnly_sendAck _ _ _ _ _)
  · exact ends_keep (l := []) (by rw [List.append_nil]; exact h) (by decide) sendsOnly_nil

/-- MicDiscard (R224) empties the slot once, then releases it. -/
theorem micDiscard_ends {i : Nat} {evs l : List Event} {s t : State} (hl : SendsOnly l)
    (h : micDiscard i (evs ++ l) s = .next t) : Ends s t i evs [(rxSlot s i).discarded] := by
  unfold micDiscard at h
  simp only at h
  split at h
  · exact ⟨_, _, l, (reply_next.1 h).symm, by simp [Status.isError, Status.code], hl, .inl ⟨by simp, rfl⟩⟩
  · exact ⟨_, _, l, (reply_next.1 h).symm, by simp [Status.isError, Status.code], hl, .inr ⟨rfl, List.append_assoc ..⟩⟩

/-- FinalEval (R220) keeps, completes, empties or releases the slot. -/
theorem finalEval_ends {r : FragRule} {i : Nat} {evs : List Event} {s t : State}
    (h : finalEval r i evs s = .next t) :
    Ends s t i evs [rxSlot s i, (rxSlot s i).completed, (rxSlot s i).discarded] := by
  unfold finalEval at h
  simp only at h
  split at h
  · exact (ends_keep h (by decide) (sendsOnly_sendAck _ _ _ _ _)).mono (by simp)
  split at h
  · exact (ends_keep h (by decide) (sendsOnly_sendAck _ _ _ _ _)).mono (by simp)
  split at h
  · exact ⟨_, _, _, (reply_next.1 h).symm, by simp [Status.isError, Status.code], sendsOnly_sendAck _ _ _ _ _,
      .inl ⟨by simp, rfl⟩⟩
  · exact (micDiscard_ends (sendsOnly_sendAck _ _ _ _ _) h).mono (by simp)

/-- The release of NoAckFinal (R223). -/
theorem micFail_ends {i : Nat} {evs : List Event} {s t : State}
    (h : micFail i evs s = .next t) : Ends s t i evs [] :=
  ⟨_, _, [], (reply_next.1 h).symm, by simp [Status.isError, Status.code], sendsOnly_nil, .inr ⟨rfl, rfl⟩⟩

/-- NoAckFinal (R223) completes or releases the slot. -/
theorem noAckFinal_ends {r : FragRule} {i : Nat} {evs : List Event} {s t : State}
    (h : noAckFinal r i evs s = .next t) : Ends s t i evs [(rxSlot s i).completed] := by
  unfold noAckFinal at h
  dsimp only at h
  generalize (if r.m = 0 then _ else _ : List Byte) = m at h
  split at h
  · exact (micFail_ends h).mono (by simp)
  split at h
  · exact ⟨_, _, [], (reply_next.1 h).symm, by simp [Status.isError, Status.code], sendsOnly_nil, .inl ⟨by simp, by simp⟩⟩
  · exact (micFail_ends h).mono (by simp)

/-- The slot a fragment's acceptance leaves before any evaluation (R216, R217). -/
def RxSlot.afterFrag (x : RxSlot) (f : Frag) : RxSlot :=
  match f.body with
  | .reg q t => (x.accept f.rule (tilePos f.rule x f.w q) t).arm
  | .all1 mic => (x.acceptAll1 f.w mic).arm

/-- The fragment's tile fits the slot's storage; an All-1 has none (R216). -/
def fragFits (s : State) (i : Nat) (f : Frag) : Prop :=
  match f.body with
  | .reg q t => ¬ beyondStorage s (tilePos f.rule (rxSlot s i) f.w q) t
  | .all1 _ => True

/-- A fragment on slot `i` (R211, R216, R217): ignored, or the slot released for want of storage, or
the fragment accepted, the timer armed and the slot evaluated. -/
theorem rxDeliver_cases {f : Frag} {i : Nat} {evs : List Event} {s t : State}
    (hi : i < s.rx.length) (h : rxDeliver f i evs s = .next t) :
    t = withResult s (slotResult .ignored i evs) ∨
    t = withResult (releaseRx s i) (slotResult .rxResourceFail i
      (evs ++ cancelEvents (.rx i) (rxSlot s i).armed)) ∨
    (fragFits s i f ∧
      Ends (setRx s i ((rxSlot s i).afterFrag f)) t i (evs ++ armRxEvents s i (rxSlot s i))
        [(rxSlot s i).afterFrag f, ((rxSlot s i).afterFrag f).completed,
         ((rxSlot s i).afterFrag f).discarded]) := by
  have hslot : ∀ y, rxSlot (setRx s i y) i = y := fun y => rxSlot_setRx_self y hi
  unfold rxDeliver at h
  cases hb : f.body with
  | reg q tl =>
    simp only [hb] at h
    unfold rxRegular at h
    simp only at h
    split at h
    · exact .inl (reply_next.1 h).symm
    split at h
    · exact .inr (.inl (reply_next.1 h).symm)
    rename_i hst
    have hy : (rxSlot s i).afterFrag f =
        ((rxSlot s i).accept f.rule (tilePos f.rule (rxSlot s i) f.w q) tl).arm := by
      simp [RxSlot.afterFrag, hb]
    refine .inr (.inr ⟨by simpa only [fragFits, hb] using hst, ?_⟩)
    rw [hy]
    split at h
    · refine (ends_keep (l := []) (by rw [List.append_nil]; exact h) (by decide)
        sendsOnly_nil).mono ?_
      simp [hslot]
    split at h
    · split at h
      · have := finalEval_ends h
        simpa only [hslot] using this
      · refine (windowEval_ends h).mono ?_
        simp [hslot]
    · refine (ends_keep (l := []) (by rw [List.append_nil]; exact h) (by decide)
        sendsOnly_nil).mono ?_
      simp [hslot]
  | all1 mic =>
    simp only [hb] at h
    unfold rxAllOne at h
    simp only at h
    split at h
    · exact .inl (reply_next.1 h).symm
    have hy : (rxSlot s i).afterFrag f = ((rxSlot s i).acceptAll1 f.w mic).arm := by
      simp [RxSlot.afterFrag, hb]
    refine .inr (.inr ⟨by simp [fragFits, hb], ?_⟩)
    rw [hy]
    split at h
    · refine (noAckFinal_ends h).mono ?_
      simp [hslot]
    · have := finalEval_ends h
      simpa only [hslot] using this

/-- RX_FRAG_INPUT (R211): a status alone, a duplicate answered, a fragment on a live slot, a new
connection, or one that supersedes a DONE slot. -/
theorem execRxFragInput_cases {d : List Byte} {s t : State}
    (h : execRxFragInput d s = .next t) :
    (∃ st, t = withResult s (CmdResult.plain st)) ∨
    ∃ f, parseFrag s.cfg (unpack d) = .ok (some f) ∧
      ((∃ i, findConn s f.ri f.dt = some i ∧ (rxSlot s i).state = .done ∧
          isDuplicate s i f = true ∧
          t = withResult s (slotResult .stayAlive i (doneReply s i f))) ∨
       (∃ i, findConn s f.ri f.dt = some i ∧ (rxSlot s i).state = .recv ∧
          rxDeliver f i [] s = .next t) ∨
       (∃ i, findConn s f.ri f.dt = none ∧ findFree s = some i ∧ firstTooBig s f = false ∧
          rxDeliver f i [] (setRx s i ((rxSlot s i).opened f.ri f.dt)) = .next t) ∨
       (∃ i j, findConn s f.ri f.dt = some j ∧ (rxSlot s j).state = .done ∧
          isDuplicate s j f = false ∧ findFree (releaseRx s j) = some i ∧
          firstTooBig s f = false ∧
          rxDeliver f i (cancelEvents (.rx j) (rxSlot s j).armed)
            (setRx (releaseRx s j) i ((rxSlot (releaseRx s j) i).opened f.ri f.dt)) = .next t)) := by
  unfold execRxFragInput at h
  split at h
  · exact .inl ⟨_, (raise_next.1 h).symm⟩
  · exact .inl ⟨_, (reply_next.1 h).symm⟩
  rename_i f hf
  unfold rxAccept at h
  split at h
  · rename_i hn
    unfold rxCreate at h
    split at h
    · exact .inl ⟨_, (raise_next.1 h).symm⟩
    split at h
    · exact .inl ⟨_, (raise_next.1 h).symm⟩
    rename_i hbig
    unfold rxOpen at h
    split at h
    · exact .inl ⟨_, (raise_next.1 h).symm⟩
    · rename_i i hi
      exact .inr ⟨f, hf, .inr (.inr (.inl ⟨i, hn, hi, by simpa using hbig, h⟩))⟩
  · rename_i j hj
    split at h
    · rename_i hd
      split at h
      · exact .inr ⟨f, hf, .inl ⟨j, hj, hd, by assumption, (reply_next.1 h).symm⟩⟩
      rename_i hdup
      unfold rxSupersede at h
      split at h
      · exact .inl ⟨_, (raise_next.1 h).symm⟩
      rename_i hbig
      unfold rxOpen at h
      split at h
      · rename_i hnone
        have hlt := (findConn_some hj).1
        rw [findFree_none] at hnone
        refine absurd ?_ (hnone (rxSlot s j).released ?_)
        · simp
        · exact List.mem_of_getElem? (i := j) (by simp [hlt])
      · rename_i i hi
        exact .inr ⟨f, hf, .inr (.inr (.inr
          ⟨i, j, hj, hd, by simpa using hdup, hi, by simpa using hbig, h⟩))⟩
    · rename_i hd
      have hr : (rxSlot s j).state = .recv := by
        have h1 := (findConn_some hj).2.1.1
        cases hs : (rxSlot s j).state <;> simp_all
      exact .inr ⟨f, hf, .inr (.inl ⟨j, hj, hr, h⟩)⟩

/-! ### What a parsed fragment says -/

/-- A parsed fragment's rule, DTAG, window and position are within their fields (R212). -/
theorem parseFrag_some {cfg : Config} {b : Bits} {f : Frag}
    (h : parseFrag cfg b = .ok (some f)) :
    cfg.ctx.frag[f.ri]? = some f.rule ∧ opensWith (otherDir cfg.par.txDir) b f.rule ∧
    fragRuleOk f.rule ∧ hdrBits f.rule ≤ b.length ∧ f.dt = valAt b f.rule.rid.ridw f.rule.t ∧
    f.w = valAt b (f.rule.rid.ridw + f.rule.t) f.rule.m ∧ parseBody f.rule b = some f.body := by
  unfold parseFrag at h
  split at h
  · cases h
  rename_i ri hri
  obtain ⟨hlt, hop, -⟩ := List.findIdx?_eq_some_iff_getElem.1 hri
  split at h
  · cases h
  rename_i r hr
  split at h
  · cases h
  rename_i hok
  rw [not_not] at hok
  split at h
  · cases h
  rename_i hlen
  simp only [Except.ok.injEq, Option.map_eq_some_iff] at h
  obtain ⟨body, hbody, rfl⟩ := h
  rw [List.getElem?_eq_getElem hlt, Option.some.injEq] at hr
  rw [hr] at hop
  exact ⟨by simp [List.getElem?_eq_getElem hlt, hr], of_decide_eq_true hop, hok,
    Nat.le_of_not_lt hlen, rfl, rfl, hbody⟩

/-- The position of a regular fragment is one of its window's (R212). -/
theorem parseBody_reg {r : FragRule} {b : Bits} {q : Nat} {t : Bits} (hr : fragRuleOk r)
    (h : parseBody r b = some (.reg q t)) : q < r.ws ∧ t ≠ [] ∧ t = b.drop (hdrBits r) := by
  have hws := hr.2.2.2.2.2.1
  unfold parseBody at h
  simp only at h
  split at h
  · split at h <;> simp at h
  split at h
  · split at h
    · cases h
    · simp only [Option.some.injEq, FragBody.reg.injEq] at h
      obtain ⟨rfl, rfl⟩ := h
      exact ⟨by omega, by assumption, rfl⟩
  · cases h

end Sys2Proof.Machine
end

