-- ==== Sys2Proof/Laws/Step.lean ====
section
/-!
SUPPORT. What a step can do (spec/00_scope.md R13, spec/30_encoding.md R86,
spec/70_reset_and_hazards.md R310).
-/

namespace Sys2Proof.Machine

/-- A delivered command runs its meaning, or ends in the status of the dispatch check it failed. -/
theorem runCommand_cases {c : Command} {s t : State} (h : runCommand c s = .next t) :
    (∃ i, decode s.cfg.par.maxInBytes c = .ok i ∧ exec i s = .next t) ∨
    (∃ e, decode s.cfg.par.maxInBytes c = .error e ∧
      t = withResult s (CmdResult.plain (decodeStatus e))) := by
  unfold runCommand at h
  split at h
  · refine .inr ⟨_, by assumption, ?_⟩
    unfold raise reply at h
    exact (Host.Outcome.next.inj h).symm
  · exact .inl ⟨_, by assumption, h⟩

/-- Under a configuration within the spec a step holds the state, resets it, or takes a command. -/
theorem step_of_ok {s : State} (h1 : paramsOk s.cfg.par) (h2 : ctxOk s.cfg.ctx) :
    step s = match s.port with
      | [] => .next s
      | .reset :: rest => .next (resetInput s rest)
      | .command c :: rest => runCommand c (withPort s rest) := by
  unfold step
  exact (if_neg (not_not.2 h1)).trans ((if_neg (not_not.2 h2)).trans rfl)

/-- Every next state a step answers. -/
theorem step_cases {s t : State} (h : step s = .next t) :
    paramsOk s.cfg.par ∧ ctxOk s.cfg.ctx ∧
    ((s.port = [] ∧ t = s) ∨
     (∃ rest, s.port = .reset :: rest ∧ t = resetInput s rest) ∨
     (∃ c rest, s.port = .command c :: rest ∧
        runCommand c (withPort s rest) = .next t)) := by
  unfold step at h
  split at h
  · cases h
  split at h
  · cases h
  rename_i h1 h2
  refine ⟨not_not.1 h1, not_not.1 h2, ?_⟩
  split at h
  · exact .inl ⟨by assumption, (Host.Outcome.next.inj h).symm⟩
  · exact .inr (.inl ⟨_, by assumption, (Host.Outcome.next.inj h).symm⟩)
  · exact .inr (.inr ⟨_, _, by assumption, h⟩)

end Sys2Proof.Machine
end

