-- ==== Sys2Proof/Tests/Slice0.lean ====
section
/-!
SUPPORT. The model's own tests: ill-formed commands refused, one encoding per command written out from
spec/30_encoding.md R80 and R85, one or two steps per command with the results of spec/95_test_vectors.md
and of the examples of the rules. The states that meet the hypotheses of the statements are in
Tests/Witnesses.lean.
-/

namespace Sys2Proof.Tests

open Sys2Proof.Machine Sys2Proof.Safety

-- One theorem at a time: elaborated side by side, each kernel evaluation holds a thread and its stack.
set_option Elab.async false

/-! ### Small states -/

/-- The result a command answers. -/
def resultOf (o : Answer) : Option CmdResult :=
  match o with
  | .next t => t.result
  | .fault _ => none
  | .refused _ => none

/-- The status a command answers. -/
def statusOf (o : Answer) : Option Status := (resultOf o).map (·.status)

/-- The DATA_OUT a command answers. -/
def dataOf (o : Answer) : Option (List Byte) := (resultOf o).map (·.dataOut)

/-- The events a command answers. -/
def eventsOf (o : Answer) : Option (List Event) := (resultOf o).map (·.events)

/-- R0 and R1 a command answers. -/
def wordsOf (o : Answer) : Option (Word × Word) := (resultOf o).map (fun r => (r.r0, r.r1))

/-- Something of the next state. -/
def after {α : Type} (o : Answer) (f : State → α) : Option α :=
  match o with
  | .next t => some (f t)
  | .fault _ => none
  | .refused _ => none

/-- `CTX_AA` of the vectors. -/
def ruleAA : FragRule :=
  { rid := ⟨3, 3⟩, mode := 1, dir := 3, n := 2, ws := 2, m := 2, t := 1 }
/-- `CTX_AE`. -/
def ruleAE : FragRule := { ruleAA with mode := 2 }
/-- `CTX_NA2`. -/
def ruleNA2 : FragRule := { ruleAA with mode := 0 }
/-- `CTX_NA`. -/
def ruleNA : FragRule :=
  { rid := ⟨5, 4⟩, mode := 0, dir := 3, n := 1, ws := 1, m := 0, t := 0 }

/-- The state from reset with one list of fragmentation rules and a direction. -/
def instWith (dir : Direction) (l : List FragRule) : State :=
  State.resetWith ⟨{ Params.vectors with txDir := dir }, { Ctx.vectors with frag := l }⟩

/-- The message `A0 .. AB`. -/
def msg12 : List Byte := [0xA0, 0xA1, 0xA2, 0xA3, 0xA4, 0xA5, 0xA6, 0xA7, 0xA8, 0xA9, 0xAA, 0xAB]

/-- Its fragments under a rule of DTAG 0 (S12): tiles 0, 1, 2 and the All-1. -/
def frag0 : List Byte := [0x61, 0xA0, 0xA1, 0xA2, 0xA3, 0xA4]
def frag1 : List Byte := [0x60, 0xA5, 0xA6, 0xA7, 0xA8, 0xA9]
def frag2 : List Byte := [0x65, 0xAA, 0xAB]
def fragL : List Byte := [0x67, 0x3E, 0x18, 0xAE, 0xF6]

/-- The sender of P2 or P3 that awaits the ACK of window `win`. -/
def waiting (r : FragRule) (win : Byte) : State :=
  { instWith .up [r] with
    tx := { TxConn.reset with
      state := .wait, msg := msg12, k := 3, wl := 1, win := win, armed := true, gen := 1 }
    dtagNext := 1 }

/-- A receiver whose slot 0 holds the tiles `l` of `A0 .. AB` by position, with generation 3. -/
def receiving (r : FragRule) (l : List (Nat × Bits)) (all1 : Bool) : State :=
  let s := instWith .down [r]
  setRx s 0 { RxSlot.reset with
    state := .recv, rcvd := l.map (fun e => (e.1, true)), tile := l
    all1 := all1, wl := if all1 then 1 else 0, mic := if all1 then 0x3E18AEF6 else 0
    armed := true, gen := 3 }

def tile0 : Bits := unpack [0xA0, 0xA1, 0xA2, 0xA3, 0xA4]
def tile1 : Bits := unpack [0xA5, 0xA6, 0xA7, 0xA8, 0xA9]
def tile2 : Bits := unpack [0xAA, 0xAB]

/-- A receiver that has completed `A0 .. AB` on slot 0. -/
def completed (r : FragRule) : State :=
  let s := receiving r [(0, tile0), (1, tile1), (2, tile2)] true
  setRx s 0 { rxSlot s 0 with state := .done }

/-- The codec datapath after `CB_LOAD d`, with POS and FV set. -/
def loaded (d : List Byte) (pos : Word) (fv : Nat) : State :=
  { State.reset with cod :=
      { cbuf := Memory.ofBytes 0 d, cbLen := BitVec.ofNat 32 (8 * d.length), pos := pos, fv := fv } }

/-! ### Well-formedness -/

/-- R82: one byte more than `MAX_IN_BYTES`. -/
theorem test_wellFormed_refuses_long_data :
    wellFormed 4 (.cbLoad [0, 0, 0, 0, 0]) = false ∧ wellFormed 4 (.cbLoad [0, 0, 0, 0]) = true := by
  decide

/-- R87: a term outside each operand value set, beside the last one inside it. -/
theorem test_operandsLegal_refuses :
    let ok := operandsLegal Params.vectors
    ok (.cbWrite 33 0) = false ∧ ok (.cbWrite 32 0) = true ∧
    ok (.cbRead 33) = false ∧ ok (.cbRead 32) = true ∧
    ok (.fdMatch 0 0) = false ∧ ok (.fdMatch 0 3) = false ∧ ok (.fdMatch 0 2) = true ∧
    ok (.fdEncode 0 3) = false ∧ ok (.fdDecode 0 3) = false ∧
    ok (.ridWrite 0 3) = false ∧ ok (.ridWrite 0 2) = true ∧
    ok (.ridLookup 0) = false ∧ ok (.ridLookup 8) = false ∧ ok (.ridLookup 7) = true ∧
    ok (.rxTimerFire 2 0) = false ∧ ok (.rxTimerFire 1 0) = true ∧
    ok (.rxAbort 2) = false ∧ ok (.rxQuery 2) = false ∧ ok (.rxQuery 1) = true := by decide

/-! ### Decoding: words from R80 and R85 -/

theorem test_decode_control_and_tx :
    decodeTableWord 32 0x00000000 = some .nop ∧
    decodeTableWord 32 0x00000501 = some (.txOutput 5 []) ∧
    decodeTableWord 32 0x00000002 = some (.txAckInput []) ∧
    decodeTableWord 64 0x0000000900000003 = some (.txTimerFire 9) ∧
    decodeTableWord 32 0x00000004 = some .txAbort ∧
    decodeTableWord 32 0x00000005 = some .txQuery := by decide

theorem test_decode_rx :
    decodeTableWord 32 0x00000008 = some (.rxFragInput []) ∧
    decodeTableWord 64 0x0000000700000109 = some (.rxTimerFire 1 7) ∧
    decodeTableWord 32 0x0000050A = some (.rxAbort 5) ∧
    decodeTableWord 32 0x0000050B = some (.rxQuery 5) := by decide

theorem test_decode_bitBuffer :
    decodeTableWord 32 0x00000010 = some (.cbLoad []) ∧
    decodeTableWord 32 0x00000011 = some .cbClear ∧
    decodeTableWord 64 0x0000000900000012 = some (.cbSeek 9) ∧
    decodeTableWord 64 0x00000ABC00000C13 = some (.cbWrite 12 0xABC) ∧
    decodeTableWord 32 0x00000314 = some (.cbRead 3) ∧
    decodeTableWord 32 0x00000015 = some .cbUnload ∧
    decodeTableWord 32 0x00000016 = some (.cbAppend []) ∧
    decodeTableWord 32 0x00000017 = some .cbTail := by decide

theorem test_decode_fieldCodec :
    decodeTableWord 32 0x00000020 = some (.fvLoad []) ∧
    decodeTableWord 32 0x00000221 = some (.fvStore 2) ∧
    decodeTableWord 32 0x00010322 = some (.fdMatch 3 1) ∧
    decodeTableWord 32 0x00010323 = some (.fdEncode 3 1) ∧
    decodeTableWord 32 0x00020324 = some (.fdDecode 3 2) ∧
    decodeTableWord 32 0x00020025 = some (.ridWrite 0 2) ∧
    decodeTableWord 32 0x00070026 = some (.ridLookup 7) := by decide

/-- E1 to E4: the reserved byte, every end of an unassigned range, an unused operand. -/
theorem test_decode_reserved :
    ([0x01000000, 0x06, 0x07, 0x0C, 0x0F, 0x18, 0x1F, 0x27, 0x30, 0xFF, 0x00000100, 0x00010001].all
      fun w => (decodeTableWord 32 w).isNone) = true := by decide

/-- E5, E10, E11: DATA_IN where none is taken, and around `MAX_IN_BYTES`. -/
theorem test_decode_data :
    decode 4 { w0 := 0, w1 := 0, data := [0] } = .error .dataRefused ∧
    decode 4 { w0 := 0x10, w1 := 0, data := [0, 0, 0, 0, 0] } = .error .dataTooLong ∧
    decode 4 { w0 := 0x10, w1 := 0, data := [0, 0, 0, 0] } = .ok (.cbLoad [0, 0, 0, 0]) := by decide

/-! ### Steps -/

/-- E6. -/
theorem test_nop_ignores_imm :
    resultOf (step { State.reset with
      port := [.command { w0 := 0, w1 := 0xFFFFFFFF, data := [] }] }) =
      some (CmdResult.plain .ok) := by decide +kernel

/-- P2 step 1. -/
theorem test_txOutput_ackAlways :
    eventsOf (exec (.txOutput 0 msg12) (instWith .up [ruleAA])) =
      some [.send frag0, .send frag1, .sched .tx 0 1] := by decide +kernel

/-- P1 step 1, with the MIC 0x456CD746. -/
theorem test_txOutput_noAck :
    eventsOf (exec (.txOutput 0 [0, 1, 2, 3, 4, 5, 6, 7, 8, 9]) (instWith .up [ruleNA])) =
      some [.send [0x50, 0x00, 0x08, 0x10, 0x18, 0x20], .send [0x51, 0x41, 0x81, 0xC2, 0x02, 0x40],
        .send [0x5A, 0x2B, 0x66, 0xBA, 0x30]] := by decide +kernel

/-- P2 step 3: ACK `62` resends position 0 and the All-0. -/
theorem test_txAckInput_resends :
    eventsOf (exec (.txAckInput [0x62]) (waiting ruleAA 0)) =
      some [.send frag0, .send frag1, .cancel .tx, .sched .tx 0 2] := by decide +kernel

/-- P2 step 9: the final ACK `6480` ends the exchange. -/
theorem test_txAckInput_ends :
    resultOf (exec (.txAckInput [0x64, 0x80]) (waiting ruleAA 1)) =
      some { CmdResult.plain .ackHandled with r0 := 2, events := [.cancel .tx] } := by
  decide +kernel

/-- S4c step 1: the All-0 again, TX_ATTEMPTS counted. -/
theorem test_txTimerFire_resends :
    after (exec (.txTimerFire 1) (waiting ruleAA 0)) (fun t => (t.result.map (·.events), t.tx.attempts)) =
      some (some [.send frag1, .sched .tx 0 2], 1) := by decide +kernel

/-- T17: the fire after `MAX_ACK_REQ = 3` resends. -/
theorem test_txTimerFire_times_out :
    let s := waiting ruleAA 0
    after (exec (.txTimerFire 1) { s with tx := { s.tx with attempts := 3 } })
      (fun t => (t.result, t.tx.state, t.tx.armed)) =
      some (some (CmdResult.plain .txTimeout), .aborted, false) := by decide +kernel

/-- R186's example. -/
theorem test_txAbort_cancels :
    after (exec .txAbort (waiting ruleAA 0)) (fun t => (t.result.map (·.events), t.tx.state)) =
      some (some [.cancel .tx], .init) := by decide +kernel

/-- R187's example. -/
theorem test_txQuery_waiting : wordsOf (exec .txQuery (waiting ruleAA 0)) = some (1, 1) := by
  decide +kernel

/-- R211's example: the All-0 into a fresh RX sends the ACK `62`. -/
theorem test_rxFragInput_window :
    resultOf (exec (.rxFragInput frag1) (instWith .down [ruleAA])) =
      some { CmdResult.plain .ongoing with events := [.sched (.rx 0) 0 1, .send [0x62]] } := by
  decide +kernel

/-- P2 step 8: the All-1 completes the message. -/
theorem test_rxFragInput_completes :
    resultOf (exec (.rxFragInput fragL)
      (receiving ruleAA [(0, tile0), (1, tile1), (2, tile2)] false)) =
      some { CmdResult.plain .completed with
        dataOut := msg12
        events := [.cancel (.rx 0), .sched (.rx 0) 0 4, .send [0x64, 0x80]] } := by
  decide +kernel

/-- L12: a current fire abandons the reassembly and emits nothing. -/
theorem test_rxTimerFire_abandons :
    after (exec (.rxTimerFire 0 3) (receiving ruleAA [(0, tile0)] false))
      (fun t => (t.result, (rxSlot t 0).state, (rxSlot t 0).gen)) =
      some (some (CmdResult.plain .abandoned), .free, 3) := by decide +kernel

/-- L11, E15: a stale fire; a slot that does not exist. -/
theorem test_rxTimerFire_stale :
    let s := receiving ruleAA [(0, tile0)] false
    statusOf (exec (.rxTimerFire 0 2) s) = some .ignored ∧
    statusOf (exec (.rxTimerFire 2 1) s) = some .errRange := by decide +kernel

/-- L17 and L18. -/
theorem test_rxAbort_cancels :
    eventsOf (exec (.rxAbort 0) (receiving ruleAA [(0, tile0)] false)) = some [.cancel (.rx 0)] ∧
    eventsOf (exec (.rxAbort 0) (instWith .down [ruleAA])) = some [] := by decide +kernel

/-- L8: R1 shows ALL1 at bit 16. -/
theorem test_rxQuery_done :
    wordsOf (exec (.rxQuery 0) (completed ruleAA)) = some (2, 0x10000) := by decide +kernel

/-- R126's example; bits beyond the data are cleared. -/
theorem test_cbLoad :
    after (exec (.cbLoad [0xC0]) (loaded [0xFF, 0xFF] 9 0))
      (fun t => (t.cod.cbLen, t.cod.pos, Memory.bitRead t.cod.cbuf 0 10)) =
      some (8, 0, [true, true, false, false, false, false, false, false, false, false]) := by
  decide +kernel

/-- R127's example. -/
theorem test_cbClear :
    after (exec .cbClear (loaded [0xFF, 0xFF] 9 0)) (fun t => (t.cod.cbLen, t.cod.cbuf)) =
      some (0, []) := by decide +kernel

/-- K14 and K15. -/
theorem test_cbSeek :
    statusOf (exec (.cbSeek 9) (loaded [0xC0] 0 0)) = some .errRange ∧
    after (exec (.cbSeek 8) (loaded [0xC0] 0 0)) (fun t => t.cod.pos) = some 8 := by decide +kernel

/-- K16 and K17: the low 5 bits, past CB_LEN. -/
theorem test_cbWrite_extends :
    after (exec (.cbWrite 5 0xFFFFFFFF) (loaded [0xC0] 8 0))
      (fun t => (t.cod.pos, t.cod.cbLen, dataOf (exec .cbUnload t))) =
      some (13, 13, some [0xC0, 0xF8]) := by decide +kernel

/-- K13, K10. -/
theorem test_cbRead :
    wordsOf (exec (.cbRead 3) (loaded [0xC0] 0 0)) = some (6, 0) ∧
    statusOf (exec (.cbRead 9) (loaded [0xC0] 0 0)) = some .errRange := by decide +kernel

/-- K21. -/
theorem test_cbUnload :
    let s := loaded [0xC4, 0x8D, 0x15, 0x9E, 0x3F] 0 0
    resultOf (exec .cbUnload { s with cod := { s.cod with cbLen := 34 } }) =
      some { CmdResult.plain .ok with r0 := 34, dataOut := [0xC4, 0x8D, 0x15, 0x9E, 0x00] } := by
  decide +kernel

/-- P4 step 16 and 17: bytes at a position that is not byte-aligned. -/
theorem test_cbAppend :
    let s := loaded [0x02, 0x40, 0x38] 22 0
    after (exec (.cbAppend [0xDE, 0xAD]) { s with cod := { s.cod with cbLen := 22 } })
      (fun t => (t.cod.cbLen, dataOf (exec .cbUnload t))) =
      some (38, some [0x02, 0x40, 0x3B, 0x7A, 0xB4]) := by decide +kernel

/-- K19. -/
theorem test_cbTail :
    let s := loaded [0xC0, 0xF8] 2 0
    resultOf (exec .cbTail { s with cod := { s.cod with cbLen := 13 } }) =
      some { CmdResult.plain .ok with r0 := 11, dataOut := [0x03, 0xE0] } := by decide +kernel

/-- R134's example. -/
theorem test_fvLoad :
    after (exec (.fvLoad [0x16, 0x33]) State.reset) (fun t => t.cod.fv) = some 0x1633 := by
  decide +kernel

/-- K27 and K29. -/
theorem test_fvStore :
    dataOf (exec (.fvStore 2) (loaded [] 0 0x010203)) = some [0x02, 0x03] ∧
    statusOf (exec (.fvStore 17) (loaded [] 0 0x010203)) = some .errRange := by decide +kernel

/-- K7 and K8. -/
theorem test_fdMatch :
    wordsOf (exec (.fdMatch 3 1) (loaded [] 0 6)) = some (1, 1) ∧
    wordsOf (exec (.fdMatch 2 1) (loaded [] 0 0x1640)) = some (0, 0) := by decide +kernel

/-- R137's examples. -/
theorem test_fdEncode :
    after (exec (.fdEncode 2 1) (loaded [] 0 0x1633))
      (fun t => (t.cod.pos, dataOf (exec .cbUnload t))) = some (4, some [0x30]) ∧
    after (exec (.fdEncode 3 1) (loaded [] 0 0x3A))
      (fun t => (t.cod.pos, dataOf (exec .cbUnload t))) = some (2, some [0x80]) := by decide +kernel

/-- X6. -/
theorem test_fdDecode :
    after (exec (.fdDecode 2 1) (loaded [0x5C] 0 0)) (fun t => (t.cod.pos, t.cod.fv)) =
      some (4, 0x1635) ∧
    statusOf (exec (.fdDecode 3 1) (loaded [0x5C] 4 0)) = some .errRange := by decide +kernel

/-- K22. -/
theorem test_ridWrite :
    after (exec (.ridWrite 0 2) State.reset) (fun t => (t.cod.pos, dataOf (exec .cbUnload t))) =
      some (4, some [0x50]) := by decide +kernel

/-- K24 and K25. -/
theorem test_ridLookup :
    statusOf (exec (.ridLookup 4) (loaded [0x02, 0xFF] 0 0)) = some .errLookup ∧
    after (exec (.ridLookup 2) (loaded [0x02, 0xFF] 0 0)) (fun t => (t.cod.pos, wordsOf (.next t))) =
      some (8, some (1, 1)) := by decide +kernel

/-- W10: the check value of CRC-32. -/
theorem test_crc32_check_value :
    crc32 [0x31, 0x32, 0x33, 0x34, 0x35, 0x36, 0x37, 0x38, 0x39] = 0xCBF43926 ∧
    crc32 [] = 0 := by decide +kernel

/-- Placing a table word runs it as the first command after reset (log 11). -/
theorem test_withFetchWord :
    wordsOf (step (State.reset.withFetchWord 32 0x0000000B)) = some (0, 0) ∧
    statusOf (step (State.reset.withFetchWord 64 0x0000000900000012)) = some .errRange := by
  decide +kernel

end Sys2Proof.Tests
end

