-- ==== Sys2Proof/Tests/Witnesses.lean ====
section
/-!
SUPPORT. For every statement with hypotheses, a concrete state and operands that meet all of them
together, at boundary values and once per clause. Named after the statement.
-/

namespace Sys2Proof.Tests

open Sys2Proof.Machine Sys2Proof.Safety

-- One theorem at a time: elaborated side by side, each kernel evaluation holds a thread and its stack.
set_option Elab.async false

/-- `next` answers, with a test on the state. -/
def answers (o : Answer) (p : State → Bool) : Bool := (after o p).getD false

/-! ### Encoding, dispatch, steps -/

theorem witness_EncodeThenDecode :
    wellFormed 4 (.txOutput 255 [0, 0, 0, 0]) = true ∧ wellFormed 0 (.ridLookup 255) = true := by
  decide

theorem witness_DecodedCommandEncodesBack :
    decode 4 { w0 := 0x00FFFF22, w1 := 7, data := [] } = .ok (.fdMatch 0xFF 0xFF) ∧
    decode 4 { w0 := 0x00000012, w1 := 0xFFFFFFFF, data := [] } = .ok (.cbSeek 0xFFFFFFFF) := by
  decide

/-- The second half's premise: a command that ignores IMM, and one that no check lets through. -/
theorem witness_DecodedCommandEncodesBack_imm :
    (∀ i, decode State.reset.cfg.par.maxInBytes { w0 := 0, w1 := 0, data := [] } = .ok i →
      i.usesImm = false) ∧
    ∀ i, decode State.reset.cfg.par.maxInBytes { w0 := 6, w1 := 0, data := [] } = .ok i →
      i.usesImm = false := by
  constructor
  · intro i h
    have h0 : decode State.reset.cfg.par.maxInBytes { w0 := 0, w1 := 0, data := [] } = .ok .nop := by
      decide
    rw [h0] at h
    cases h
    rfl
  · intro i h
    have h0 : decode State.reset.cfg.par.maxInBytes { w0 := 6, w1 := 0, data := [] } =
        .error .unknownOpcode := by decide
    rw [h0] at h
    cases h

/-- One command on the port of an engine with `MAX_IN_BYTES = 4`. -/
def onPort (w0 : Word) (d : List Byte) : State :=
  let s := State.resetWith ⟨{ Params.vectors with maxInBytes := 4 }, Ctx.vectors⟩
  { s with port := [.command { w0 := w0, w1 := 0, data := d }] }

theorem witness_DispatchChecksInOrder :
    CfgOk (onPort 0 []) ∧
    statusOf (step (onPort 0x01000000 [])) = some .errReserved ∧
    statusOf (step (onPort 0x27 [])) = some .errReserved ∧
    statusOf (step (onPort 0x0000FF00 [])) = some .errReserved ∧
    statusOf (step (onPort 0x00010001 [])) = some .errReserved ∧
    statusOf (step (onPort 0 [0, 0, 0, 0, 0])) = some .errContract ∧
    statusOf (step (onPort 0x10 [0, 0, 0, 0, 0])) = some .errResource ∧
    statusOf (step (onPort 0x10 [0, 0, 0, 0])) = some .ok := by decide +kernel

theorem witness_StepRunsTheDecodedCommand :
    CfgOk State.reset ∧ State.reset.port = [] ∧
    CfgOk (onPort 0x0000050B []) ∧
    decode 4 { w0 := 0x0000050B, w1 := 0, data := [] } = .ok (.rxQuery 5) ∧
    decodeTableWord 32 0x0000050B = some (.rxQuery 5) := by
  and_intros <;> decide +kernel

theorem witness_ResetInputResetsEverything :
    CfgOk { waiting ruleAA 0 with port := [.reset, .reset] } := by decide +kernel

theorem witness_LegalAtReset :
    (paramsOk Params.vectors ∧ ctxOk Ctx.vectors) ∧ IsReset State.reset ∧ NoPending State.reset := by
  decide +kernel

theorem witness_ContextOutsideSpecRefused :
    let bad := fun c : Ctx => State.resetWith ⟨Params.vectors, c⟩
    let wide := bad { Ctx.vectors with uncomp := some ⟨0x100, 8⟩ }
    let twice := bad { Ctx.vectors with uncomp := some ⟨0x01, 8⟩ }
    let short := bad { Ctx.vectors with fd :=
      [{ fid := 3, fl := 8, fp := 1, di := 3, mo := 3, x := 3, cda := 2, tv := [0x11, 0x06] }] }
    let stray := bad { Ctx.vectors with fd :=
      [{ fid := 0, fl := 4, fp := 1, di := 3, mo := 1, x := 0, cda := 0, tv := [16] }] }
    paramsOk wide.cfg.par ∧
    (∃ r ∈ ruleIds wide.cfg.ctx, 2 ^ r.ridw ≤ r.ruleId ∨ 32 < r.ridw) ∧
    ¬ (ruleIds twice.cfg.ctx).Nodup ∧
    (∃ f ∈ short.cfg.ctx.fd, f.tv.length ≠ (if f.mo = 3 then f.x else 1)) ∧
    (∃ f ∈ stray.cfg.ctx.fd, ∃ v ∈ f.tv, 2 ^ f.fl ≤ v) := by decide +kernel

/-! ### The whole machine -/

theorem witness_ErrorChangesNothing :
    statusOf (runCommand { w0 := 0x0000050B, w1 := 0, data := [] } (waiting ruleAA 0)) =
      some .errRange ∧
    0x80 ≤ Status.errRange.code.toNat ∧
    statusOf (runCommand { w0 := 6, w1 := 0, data := [] } State.reset) = some .errReserved ∧
    0x80 ≤ Status.errReserved.code.toNat := by decide +kernel

theorem witness_EveryCommandAnswers :
    TxExchangeOk State.reset ∧ TxExchangeOk (waiting ruleAA 0) ∧ TxExchangeOk (waiting ruleAE 1) := by
  and_intros <;> decide +kernel

theorem witness_ErrorsEachCommandCanReport :
    statusOf (exec (.txOutput 0 msg12) (waiting ruleAA 0)) = some .errBusy ∧
    0x80 ≤ Status.errBusy.code.toNat := by decide +kernel

theorem witness_ConfigurationIsReadOnly :
    answers (step (onPort 0 [])) (fun _ => true) = true ∧
    answers (runCommand { w0 := 0, w1 := 0, data := [] } (onPort 0 [])) (fun t => t.port != []) =
      true := by decide +kernel

/-- One command of each family. -/
theorem witness_FamilyFrames :
    isCodec (.cbWrite 8 1) = true ∧ isTx (.txAckInput [0x62]) = true ∧
    isRx (.rxFragInput frag0) = true ∧
    answers (exec (.cbWrite 8 1) State.reset) (fun t => t.cod.pos == 8) = true ∧
    answers (exec (.txAckInput [0x62]) (waiting ruleAA 0)) (fun t => t.tx.gen == 2) = true ∧
    answers (exec (.rxFragInput frag0) (instWith .down [ruleAA]))
      (fun t => (rxSlot t 0).gen == 1) = true := by decide +kernel

theorem witness_FamiliesAreIndependent :
    isCodec (.fvLoad [1]) = true ∧ isTx .txAbort = true ∧ isRx (.rxAbort 0) = true ∧
    answers (exec (.fvLoad [1]) State.reset) (fun t => t.cod.fv == 1) = true ∧
    answers (exec .txAbort (waiting ruleAA 0)) (fun t => t.tx.armed == false) = true ∧
    answers (exec (.rxAbort 0) (completed ruleAA)) (fun t => (rxSlot t 0).gen == 3) = true := by
  decide +kernel

theorem witness_DtagNextCountsSuccess :
    statusOf (exec (.txOutput 0 msg12) { instWith .up [ruleAA] with dtagNext := 255 }) =
      some .success ∧
    statusOf (exec .nop State.reset) = some .ok := by decide +kernel

theorem witness_TimerHandlesFollowEvents :
    eventsOf (exec (.txTimerFire 1) (waiting ruleAA 0)) =
      some [.send frag1, .sched .tx 0 2] ∧
    eventsOf (exec (.rxTimerFire 0 3) (completed ruleAA)) = some [] ∧
    0 < (completed ruleAA).rx.length := by decide +kernel

/-- A regular fragment and an All-1 under NO_ACK. -/
theorem witness_NoAckRxSendsNothing :
    parseFrag (instWith .down [ruleNA2]).cfg (unpack frag0) =
      .ok (some { ri := 0, rule := ruleNA2, dt := 0, w := 0, body := .reg 0 tile0 }) ∧
    parseFrag (instWith .down [ruleNA2]).cfg (unpack fragL) =
      .ok (some { ri := 0, rule := ruleNA2, dt := 0, w := 1, body := .all1 0x3E18AEF6 }) ∧
    ruleNA2.mode = 0 ∧
    statusOf (exec (.rxFragInput fragL)
      (receiving ruleNA2 [(0, tile0), (1, tile1), (2, tile2)] false)) = some .completed := by
  decide +kernel

/-! ### Invariants -/

/-- A legal state that waits for an ACK. -/
theorem witness_legal_waiting : Legal (waiting ruleAA 1) where
  cfg := by decide +kernel
  cbuf := by decide +kernel
  cursor := by decide +kernel
  fv := by decide +kernel
  txTimer := by decide +kernel
  txBounds := by decide +kernel
  txExchange := by decide +kernel
  rxSlots := by decide +kernel
  rxKeys := by decide +kernel

/-- A legal state with a message in reassembly. -/
theorem witness_legal_receiving : Legal (receiving ruleAE [(0, tile0), (2, tile2)] true) where
  cfg := by decide +kernel
  cbuf := by decide +kernel
  cursor := by decide +kernel
  fv := by decide +kernel
  txTimer := by decide +kernel
  txBounds := by decide +kernel
  txExchange := by decide +kernel
  rxSlots := by decide +kernel
  rxKeys := by decide +kernel

theorem witness_StepKeepsLegal : Legal (waiting ruleAA 1) ∧ Legal (receiving ruleAE [(0, tile0), (2, tile2)] true) :=
  ⟨witness_legal_waiting, witness_legal_receiving⟩

/-- A full CBUF with the cursor at its end. -/
theorem witness_StepKeepsCodecBounds :
    let full := loaded (List.replicate 256 0xFF) 2048 (2 ^ 128 - 1)
    let s := { full with port := [.command { w0 := 0x11, w1 := 0, data := [] }] }
    CbufOk s ∧ CursorOk s ∧ FvOk s ∧ answers (step s) (fun _ => true) = true := by decide +kernel

theorem witness_StepKeepsTxTimer :
    let s := { waiting ruleAA 0 with port := [.command { w0 := 4, w1 := 0, data := [] }] }
    TxTimerOk s ∧ answers (step s) (fun t => t.tx.state == .init) = true := by decide +kernel

theorem witness_StepKeepsTxExchange :
    let s := { waiting ruleAA 0 with port := [.command { w0 := 2, w1 := 0, data := [0x60] }] }
    TxBoundsOk s ∧ TxExchangeOk s ∧ answers (step s) (fun t => t.tx.win == 1) = true := by
  decide +kernel

theorem witness_StepKeepsRxSlots :
    let s := { receiving ruleAA [(0, tile0)] false with
      port := [.command { w0 := 8, w1 := 0, data := frag1 }] }
    RxSlotsOk s ∧ RxKeysOk s ∧ answers (step s) (fun t => (rxSlot t 0).gen == 4) = true := by
  decide +kernel

/-! ### Codec -/

theorem witness_CbLoadClearAndSeek :
    CfgOk State.reset ∧
    statusOf (exec (.cbLoad (List.replicate 257 0)) State.reset) = some .errRange ∧
    statusOf (exec (.cbLoad (List.replicate 256 0)) State.reset) = some .ok ∧
    statusOf (exec (.cbSeek 0) State.reset) = some .ok ∧
    statusOf (exec (.cbSeek 1) State.reset) = some .errRange := by decide +kernel

theorem witness_CbWriteAndAppendStoreBits :
    let s := loaded (List.replicate 252 1) 2016 0
    CfgOk s ∧ CbufOk s ∧
    statusOf (exec (.cbWrite 32 0) s) = some .ok ∧
    statusOf (exec (.cbWrite 33 0) s) = some .errRange ∧
    statusOf (exec (.cbAppend [0, 0, 0, 0]) s) = some .ok ∧
    statusOf (exec (.cbAppend [0, 0, 0, 0, 0]) s) = some .errRange := by decide +kernel

theorem witness_CbReadReturnsBits :
    let s := loaded [1, 2, 3, 4] 0 0
    wordsOf (exec (.cbRead 32) s) = some (0x01020304, 0) ∧
    statusOf (exec (.cbRead 33) s) = some .errRange := by decide +kernel

/-- R63's example, and a read wider than the write. -/
theorem witness_MixedWidthAccess :
    let s := loaded [0xFF, 0xFF, 0xFF] 0 0
    CfgOk s ∧ CbufOk s ∧
    s.cod.pos.toNat + 12 ≤ 8 * s.cfg.par.cbufBytes ∧
    s.cod.pos.toNat + 24 ≤ max s.cod.cbLen.toNat (s.cod.pos.toNat + 12) ∧
    (0xABC % 2 ^ 12 / 2 ^ (12 - 8) = 0xAB) ∧
    0xABC % 2 ^ 12 * 2 ^ (24 - 12) + fieldAt s.cod.cbuf 12 12 = 0xABCFFF := by decide +kernel

theorem witness_CbUnloadAndTail : CursorOk (loaded [1, 2] 16 0) ∧ CursorOk (loaded [] 0 0) := by
  decide +kernel

theorem witness_FvLoadAndStore :
    statusOf (exec (.fvLoad (List.replicate 16 1)) State.reset) = some .ok ∧
    statusOf (exec (.fvLoad (List.replicate 17 1)) State.reset) = some .errRange ∧
    statusOf (exec (.fvStore 16) State.reset) = some .ok ∧
    statusOf (exec (.fvStore 17) State.reset) = some .errRange := by decide +kernel

/-- Every check, and a descriptor that does not apply. -/
theorem witness_FdChecksInOrder :
    let badFd := State.resetWith ⟨Params.vectors, { Ctx.vectors with fd :=
      [{ fid := 0, fl := 0, fp := 1, di := 3, mo := 0, x := 0, cda := 0, tv := [0] }] }⟩
    Instr.fdDecode 0 1 ∈ [Instr.fdMatch 0 1, .fdEncode 0 1, .fdDecode 0 1] ∧
    statusOf (exec (.fdDecode 0 3) State.reset) = some .errReserved ∧
    statusOf (exec (.fdDecode 5 1) State.reset) = some .errLookup ∧
    (badFd.cfg.ctx.fd[0]?).isSome = true ∧
    statusOf (exec (.fdDecode 0 1) badFd) = some .errConfig ∧
    wordsOf (exec (.fdMatch 2 2) State.reset) = some (1, 0) ∧
    statusOf (exec (.fdMatch 0 1) (loaded [] 0 16)) = some .errRange ∧
    statusOf (exec (.fdMatch 0 1) (loaded [] 0 15)) = some .ok := by decide +kernel

/-- The premises of FD_MATCH, FD_ENCODE and FD_DECODE on descriptor `n` for UP with the value `v`. -/
abbrev FieldReady (n : Nat) (v : Nat) : Prop :=
  CfgOk (loaded [0x5C] 0 v) ∧ CbufOk (loaded [0x5C] 0 v) ∧
  ∃ f ∈ Ctx.vectors.fd[n]?, fieldDescOk Params.vectors f ∧ (f.di = 3 ∨ f.di.toNat = 1) ∧ v < 2 ^ f.fl

/-- Descriptor 1 is IGNORE, 0 EQUAL, 2 MSB and 3 MATCHMAP; both answers of the last three. -/
theorem witness_FdMatchTestsOperator :
    FieldReady 1 255 ∧ FieldReady 0 15 ∧ FieldReady 2 0x1630 ∧ FieldReady 3 0 ∧
    wordsOf (exec (.fdMatch 1 1) (loaded [] 0 255)) = some (1, 0) ∧
    wordsOf (exec (.fdMatch 0 1) (loaded [] 0 6)) = some (1, 0) ∧
    wordsOf (exec (.fdMatch 0 1) (loaded [] 0 15)) = some (0, 0) ∧
    wordsOf (exec (.fdMatch 2 1) (loaded [] 0 0x163F)) = some (1, 0) ∧
    wordsOf (exec (.fdMatch 3 1) (loaded [] 0 0x3A)) = some (1, 2) ∧
    wordsOf (exec (.fdMatch 3 1) (loaded [] 0 0)) = some (0, 0) := by
  and_intros <;> decide +kernel

/-- Descriptor 0 is NOT-SENT, 1 VALUE-SENT, 2 LSB, 3 MAPPING-SENT (a value in the list, and none), 4
COMPUTE-LENGTH. -/
theorem witness_FdEncodeWritesResidue :
    FieldReady 0 15 ∧ FieldReady 1 0x40 ∧ FieldReady 2 0x1633 ∧ FieldReady 3 7 ∧ FieldReady 4 0 ∧
    wordsOf (exec (.fdEncode 0 1) (loaded [] 0 15)) = some (0, 0) ∧
    wordsOf (exec (.fdEncode 1 1) (loaded [] 0 0x40)) = some (8, 0) ∧
    wordsOf (exec (.fdEncode 3 1) (loaded [] 0 0x11)) = some (2, 0) ∧
    statusOf (exec (.fdEncode 3 1) (loaded [] 0 7)) = some .errNoMatch ∧
    wordsOf (exec (.fdEncode 4 1) (loaded [] 0 0)) = some (0, 0) := by
  and_intros <;> decide +kernel

/-- The same descriptors decoded; the index 3 of three values is out of range. -/
theorem witness_FdDecodeReadsResidue :
    FieldReady 0 0 ∧ FieldReady 1 0 ∧ FieldReady 2 0 ∧ FieldReady 3 0 ∧ FieldReady 4 0 ∧
    after (exec (.fdDecode 0 1) (loaded [0x5C] 0 0)) (fun t => t.cod.fv) = some 6 ∧
    after (exec (.fdDecode 1 1) (loaded [0x5C] 0 0)) (fun t => t.cod.fv) = some 0x5C ∧
    statusOf (exec (.fdDecode 1 1) (loaded [0x5C] 1 0)) = some .errRange ∧
    after (exec (.fdDecode 3 1) (loaded [0x5C] 0 0)) (fun t => t.cod.fv) = some 0x06 ∧
    statusOf (exec (.fdDecode 3 1) (loaded [0x5C] 4 0)) = some .errRange ∧
    wordsOf (exec (.fdDecode 4 1) (loaded [0x5C] 0 9)) = some (0, 1) := by
  and_intros <;> decide +kernel

/-- NOT-SENT under EQUAL, VALUE-SENT, LSB and MAPPING-SENT. -/
theorem witness_FieldRoundTrip :
    FieldReady 0 6 ∧ FieldReady 1 0x40 ∧ FieldReady 2 0x1633 ∧ FieldReady 3 0x3A ∧
    (([(0, 6), (1, 0x40), (2, 0x1633), (3, 0x3A)] : List (Byte × Nat)).all fun (a, v) =>
      wordsOf (exec (.fdMatch a 1) (loaded [] 0 v)) |>.any (fun w => w.1 == 1)) = true ∧
    (([(0, 6), (1, 0x40), (2, 0x1633), (3, 0x3A)] : List (Byte × Nat)).all fun (a, v) =>
      statusOf (exec (.fdEncode a 1) (loaded [] 0 v)) == some .ok) = true := by
  and_intros <;> decide +kernel

/-- Each kind, an index past each list, and a kind that does not exist. -/
theorem witness_RidWriteWritesRuleId :
    CfgOk State.reset ∧ CbufOk State.reset ∧
    wordsOf (exec (.ridWrite 0 0) State.reset) = some (8, 0) ∧
    wordsOf (exec (.ridWrite 1 1) State.reset) = some (8, 0) ∧
    wordsOf (exec (.ridWrite 0 2) State.reset) = some (4, 0) ∧
    statusOf (exec (.ridWrite 1 0) State.reset) = some .errLookup ∧
    statusOf (exec (.ridWrite 2 1) State.reset) = some .errLookup ∧
    statusOf (exec (.ridWrite 1 2) State.reset) = some .errLookup ∧
    statusOf (exec (.ridWrite 0 3) State.reset) = some .errReserved := by decide +kernel

/-- Masks 0, 7 and 8; a rule found, and none (K24). -/
theorem witness_RidLookupFirstMatchWins :
    let s := loaded [0x02, 0xFF] 0 0
    fieldAt s.cod.cbuf 0 8 = 2 ∧ (s.cfg.ctx.comp.map (·.rid))[1]? = some ⟨2, 8⟩ ∧
    wordsOf (exec (.ridLookup 7) s) = some (1, 1) ∧
    statusOf (exec (.ridLookup 4) s) = some .errLookup ∧
    statusOf (exec (.ridLookup 0) s) = some .errReserved ∧
    statusOf (exec (.ridLookup 8) s) = some .errReserved := by decide +kernel

/-! ### Control and queries -/

theorem witness_NopAbortAndQueriesAnswer :
    Instr.rxQuery 1 ∈ [Instr.nop, .txQuery, .rxQuery 1, .cbUnload, .cbTail, .fvStore 1] ∧
    statusOf (exec (.rxQuery 1) State.reset) = some .ok ∧
    statusOf (exec (.rxQuery 2) State.reset) = some .errRange ∧
    wordsOf (exec (.rxQuery 0) (completed ruleAA)) = some (2, 0x10000) := by decide +kernel

/-! ### TX -/

/-- The premises of an ACK that TX accepts. -/
abbrev AckReady (s : State) (r : FragRule) (d : List Byte) : Prop :=
  TxExchangeOk s ∧ s.tx.state = .wait ∧ s.cfg.ctx.frag[s.tx.rule.toNat]? = some r ∧
  ackAccepted s r (unpack d)

/-- Every answer of TX_OUTPUT, T3 to T10 and T23 of the vectors among them. -/
theorem witness_TxOutputChecksInOrder :
    let s := instWith .up [ruleAA, { ruleAA with rid := ⟨6, 3⟩, dir := 2 },
      { ruleAA with rid := ⟨7, 3⟩, m := 0 }]
    let zerosOf := fun n => (List.replicate n 0 : List Byte)
    statusOf (exec (.txOutput 9 (zerosOf 5)) s) = some .noFragmentation ∧
    statusOf (exec (.txOutput 0 (zerosOf 6)) (waiting ruleAA 0)) = some .errBusy ∧
    statusOf (exec (.txOutput 3 (zerosOf 6)) s) = some .errLookup ∧
    statusOf (exec (.txOutput 1 (zerosOf 6)) s) = some .errContract ∧
    statusOf (exec (.txOutput 2 (zerosOf 6)) s) = some .errConfig ∧
    statusOf (exec (.txOutput 0 (zerosOf 1025)) s) = some .errResource ∧
    statusOf (exec (.txOutput 0 (zerosOf 40)) s) = some .errTooLarge ∧
    statusOf (exec (.txOutput 0 (zerosOf 39)) s) = some .errTooLarge ∧
    statusOf (exec (.txOutput 0 (zerosOf 35)) s) = some .success ∧
    statusOf (exec (.txOutput 0 (zerosOf 6)) s) = some .success := by decide +kernel

/-- The three modes; and a message of `wl = 3`, the last that two W bits number. -/
theorem witness_TxOutputStartsExchange :
    (∀ r ∈ [ruleAA, ruleAE, ruleNA2],
      let s := instWith .up [r]
      s.cfg.par.mtu ≤ msg12.length ∧ s.tx.state ≠ .wait ∧ s.cfg.ctx.frag[(0 : Byte).toNat]? = some r ∧
      serves r s.cfg.par.txDir ∧ fragRuleOk r ∧ mtuFits s.cfg.par.mtu r ∧
      msg12.length ≤ s.cfg.par.txMaxBytes ∧
      ¬ (1 ≤ r.m ∧ 2 ^ r.m < ceilDiv (8 * msg12.length) (8 * s.cfg.par.mtu - hdrBits r) / r.ws + 1)) ∧
    ¬ (1 ≤ ruleAA.m ∧ 2 ^ ruleAA.m < ceilDiv (8 * 35) (8 * 6 - hdrBits ruleAA) / ruleAA.ws + 1) := by
  decide +kernel

theorem witness_TilesMakeTheMessage :
    mtuFits 6 ruleAA ∧ mtuFits 5 ruleAA ∧ tileCount 6 ruleAA msg12.length = 3 := by decide +kernel

/-- Both positions of a window, and an All-1, under a rule behind one that does not open it. -/
theorem witness_WireFormatIsParsed :
    let cfg := (instWith .down [ruleNA, ruleAA]).cfg
    cfg.ctx.frag[1]? = some ruleAA ∧ serves ruleAA (otherDir cfg.par.txDir) ∧ fragRuleOk ruleAA ∧
    1 < 2 ^ ruleAA.t ∧ 3 < 2 ^ ruleAA.m ∧ 1 < ruleAA.ws ∧
    ¬ opensWith (otherDir cfg.par.txDir) (unpack [0x7D, 0xFF]) ruleNA ∧
    parseFrag cfg (unpack [0x7D, 0xFF]) = .ok (some
      { ri := 1, rule := ruleAA, dt := 1, w := 3, body := .reg 0 (unpack [0xFF]) }) ∧
    parseFrag cfg (unpack [0x7C, 0xFF]) = .ok (some
      { ri := 1, rule := ruleAA, dt := 1, w := 3, body := .reg 1 (unpack [0xFF]) }) ∧
    parseFrag cfg (unpack [0x7F, 0, 0, 0, 1, 0xAA]) = .ok (some
      { ri := 1, rule := ruleAA, dt := 1, w := 3, body := .all1 1 }) := by decide +kernel

/-- An ACK of window 0, and one of the last window with C. -/
theorem witness_AckFormatIsRead :
    let s := waiting ruleAA 1
    fragRuleOk ruleAA ∧ s.tx.dtag.toNat < 2 ^ ruleAA.t ∧ 1 ≤ s.tx.wl.toNat ∧ 1 = s.tx.win.toNat ∧
    sendAck ruleAA s.tx.dtag 1 [false, false] (some true) = .send [0x64, 0x80] ∧
    sendAck ruleAE s.tx.dtag 0 [true, false] none = .send [0x62] ∧
    ackAccepted (waiting ruleAE 1) ruleAE (unpack [0x62]) := by decide +kernel

/-- T1, T18 to T20 and the ways an ACK fails R180: short, rule ID, DTAG, window, C. -/
theorem witness_TxAckNotHandled :
    let s := waiting ruleAA 1
    statusOf (exec (.txAckInput [0, 0]) (instWith .up [ruleAA])) = some .errContract ∧
    statusOf (exec (.txAckInput [0x60]) { s with tx := { s.tx with state := .aborted } }) =
      some .ignored ∧
    s.tx.state = .wait ∧ s.cfg.ctx.frag[s.tx.rule.toNat]? = some ruleAA ∧
    (([[], [0x84, 0x80], [0x74, 0x80], [0x68, 0x80], [0x60], [0x64]] : List (List Byte)).all
      fun d => statusOf (exec (.txAckInput d) s) == some .ignored) = true ∧
    wordsOf (exec (.txAckInput []) s) = some (1, 0) := by decide +kernel

/-- Gaps, no gap in ACK_ALWAYS, no gap in ACK_ON_ERROR. -/
theorem witness_TxAckOfEarlierWindow :
    AckReady (waiting ruleAA 0) ruleAA [0x61] ∧ AckReady (waiting ruleAA 0) ruleAA [0x60] ∧
    AckReady (waiting ruleAE 1) ruleAE [0x60] ∧
    (ackFields ruleAE (unpack [0x60])).w < (waiting ruleAE 1).tx.wl.toNat ∧
    eventsOf (exec (.txAckInput [0x60]) (waiting ruleAA 0)) =
      some [.send frag2, .send fragL, .cancel .tx, .sched .tx 0 2] ∧
    eventsOf (exec (.txAckInput [0x60]) (waiting ruleAE 1)) = some [] := by
  and_intros <;> decide +kernel

/-- C = 1, and C = 0 with a tile marked. -/
theorem witness_TxAckOfLastWindow :
    AckReady (waiting ruleAE 1) ruleAE [0x64, 0x80] ∧
    AckReady (waiting ruleAE 1) ruleAE [0x66, 0x00] ∧
    (ackFields ruleAE (unpack [0x66, 0x00])).w = (waiting ruleAE 1).tx.wl.toNat ∧
    eventsOf (exec (.txAckInput [0x66, 0x00]) (waiting ruleAE 1)) =
      some [.send frag2, .send fragL, .cancel .tx, .sched .tx 0 2] := by
  and_intros <;> decide +kernel

/-- S6 steps 3 and 5, and the round of ACK_ALWAYS; a bit marked beyond the last window's tiles. -/
theorem witness_TxMicRoundOnce :
    let used := fun s : State => { s with tx := { s.tx with micRounds := true } }
    AckReady (waiting ruleAE 1) ruleAE [0x64, 0x00] ∧
    AckReady (used (waiting ruleAE 1)) ruleAE [0x64, 0x00] ∧
    AckReady (waiting ruleAA 1) ruleAA [0x65, 0x00] ∧
    (∀ q < 1, (ackFields ruleAA (unpack [0x65, 0x00])).bm.getD q false = false) ∧
    eventsOf (exec (.txAckInput [0x64, 0x00]) (waiting ruleAE 1)) =
      some [.send frag0, .send frag1, .send frag2, .send fragL, .cancel .tx, .sched .tx 0 2] ∧
    eventsOf (exec (.txAckInput [0x65, 0x00]) (waiting ruleAA 1)) =
      some [.send frag0, .send frag1, .cancel .tx, .sched .tx 0 2] ∧
    resultOf (exec (.txAckInput [0x64, 0x00]) (used (waiting ruleAE 1))) =
      some { CmdResult.plain .txMicFailed with r0 := 3, events := [.cancel .tx] } := by
  dsimp only
  and_intros <;> decide +kernel

/-- Stale, not waiting, the last resend and the give-up. -/
theorem witness_TxTimerFireOutcomes :
    let s := fun n => let w := waiting ruleAE 1; { w with tx := { w.tx with attempts := n } }
    TxExchangeOk (s 2) ∧ TxExchangeOk (s 3) ∧
    statusOf (exec (.txTimerFire 0) (s 2)) = some .ignored ∧
    statusOf (exec (.txTimerFire 1) { s 2 with tx := { (s 2).tx with state := .ended } }) =
      some .ignored ∧
    eventsOf (exec (.txTimerFire 1) (s 2)) = some [.send fragL, .sched .tx 0 2] ∧
    statusOf (exec (.txTimerFire 1) (s 3)) = some .txTimeout := by
  dsimp only
  and_intros <;> decide +kernel

theorem witness_LockReleasedByFires :
    let s := waiting ruleAA 0
    CfgOk s ∧ TxTimerOk s ∧ TxBoundsOk s ∧ TxExchangeOk s ∧ s.tx.state = .wait ∧
    (fires 4 s).map (fun t => (t.tx.state, t.tx.armed)) = some (.aborted, false) := by
  dsimp only
  and_intros <;> decide +kernel

/-! ### RX -/

/-- The premises of a fragment for the connection of slot 0 in state `st`. -/
abbrev FragReady (s : State) (d : List Byte) (st : RxPhase) (f : Frag) : Prop :=
  parseFrag s.cfg (unpack d) = .ok (some f) ∧ findConn s f.ri f.dt = some 0 ∧
  (rxSlot s 0).state = st

/-- Slot 0 just opened for rule 0 and DTAG 0 (R214), its timer not armed yet. -/
def opened (r : FragRule) : State :=
  setRx (instWith .down [r]) 0 { RxSlot.reset with state := .recv }

/-- X11-1 to X11-4 and X4 of the vectors, a short header and an All-1 without a whole MIC. -/
theorem witness_RxParseOutcomes :
    let s := instWith .down [ruleAA]
    let bad := instWith .down [{ ruleAA with rid := ⟨1, 3⟩, ws := 4 }]
    s.cfg.ctx.frag[0]? = some ruleAA ∧
    statusOf (exec (.rxFragInput []) s) = some .errLookup ∧
    statusOf (exec (.rxFragInput [0xE0, 0]) s) = some .errLookup ∧
    statusOf (exec (.rxFragInput [0x21, 0xFF]) bad) = some .errConfig ∧
    statusOf (exec (.rxFragInput [0x61]) s) = some .ignored ∧
    statusOf (exec (.rxFragInput [0x62, 0xFF]) s) = some .ignored ∧
    statusOf (exec (.rxFragInput [0x63, 0, 0, 0]) s) = some .ignored := by decide +kernel

/-- X11-5, X11-6 and X11-8 with `RX_MAX_SLOTS = 4` and one slot. -/
theorem witness_RxCreateOpensSlot :
    let s := State.resetWith ⟨{ Params.vectors with txDir := .down, nRx := 1, rxMaxSlots := 4 },
      { Ctx.vectors with frag := [ruleAA] }⟩
    let busy := setRx s 0 { RxSlot.reset with state := .recv, armed := true }
    CfgOk s ∧
    parseFrag s.cfg (unpack [0x69, 0xFF]) = .ok (some
      { ri := 0, rule := ruleAA, dt := 0, w := 2, body := .reg 0 (unpack [0xFF]) }) ∧
    (∀ x ∈ s.rx, ¬ (x.state ≠ .free ∧ x.rule.toNat = 0 ∧ x.dtag.toNat = 0)) ∧
    (∀ x ∈ busy.rx, ¬ (x.state ≠ .free ∧ x.rule.toNat = 0 ∧ x.dtag.toNat = 1)) ∧
    (rxSlot s 0).state = .free ∧ 0 < s.rx.length ∧
    statusOf (exec (.rxFragInput [0x69, 0xFF]) s) = some .errResource ∧
    statusOf (exec (.rxFragInput [0x64, 0xFF]) s) = some .ongoing ∧
    statusOf (exec (.rxFragInput [0x71, 0xFF]) busy) = some .errResource := by decide +kernel

/-- L6 and L7: the All-1 and a tile again; and one under NO_ACK with `M = 0`. -/
theorem witness_RxDuplicateAfterDone :
    let s := completed ruleAA
    let n := setRx (instWith .down [ruleNA]) 0 { RxSlot.reset with
      state := .done, nAppend := 1, rcvd := [(0, true)], tile := [(0, [true, false, true])]
      armed := true, gen := 3 }
    FragReady s fragL .done { ri := 0, rule := ruleAA, dt := 0, w := 1, body := .all1 0x3E18AEF6 } ∧
    FragReady s frag0 .done { ri := 0, rule := ruleAA, dt := 0, w := 0, body := .reg 0 tile0 } ∧
    FragReady n [0x55] .done
      { ri := 0, rule := ruleNA, dt := 0, w := 0, body := .reg 0 [true, false, true] } ∧
    rcvdAt s 0 0 = true ∧ (rxSlot s 0).tileAt 0 = tile0 ∧
    eventsOf (exec (.rxFragInput fragL) s) = some [.send [0x64, 0x80]] ∧
    eventsOf (exec (.rxFragInput frag0) s) = some [] ∧
    statusOf (exec (.rxFragInput [0x55]) n) = some .stayAlive := by
  dsimp only
  and_intros <;> decide +kernel

/-- L9, and S15's fragment beyond the storage. -/
theorem witness_RxSupersedesDoneSlot :
    let s := completed ruleAA
    let small := { s with cfg := { s.cfg with par := { s.cfg.par with rxMaxSlots := 4 } } }
    CfgOk s ∧ RxKeysOk s ∧
    FragReady s [0x69, 0x55] .done
      { ri := 0, rule := ruleAA, dt := 0, w := 2, body := .reg 0 (unpack [0x55]) } ∧
    (rxSlot (setRx s 0 { RxSlot.reset with gen := (rxSlot s 0).gen }) 0).state = .free ∧
    isDuplicate s 0 { ri := 0, rule := ruleAA, dt := 0, w := 2, body := .reg 0 (unpack [0x55]) } =
      false ∧
    eventsOf (exec (.rxFragInput [0x69, 0x55]) s) = some [.cancel (.rx 0), .sched (.rx 0) 0 4] ∧
    CfgOk small ∧ statusOf (exec (.rxFragInput [0x69, 0x55]) small) = some .errResource := by
  dsimp only
  and_intros <;> decide +kernel

/-- L15, X11-9, and a tile stored. -/
theorem witness_RxRegularFragment :
    let s := receiving ruleAA [(0, tile0)] true
    let small := fun n => let x := receiving ruleAA [(0, tile0)] false
      { x with cfg := { x.cfg with par := { x.cfg.par with rxMaxSlots := n } } }
    SlotStoresOk s.cfg.par (rxSlot s 0) ∧
    FragReady s frag2 .recv { ri := 0, rule := ruleAA, dt := 0, w := 1, body := .reg 0 tile2 } ∧
    FragReady s [0x69, 0x55] .recv
      { ri := 0, rule := ruleAA, dt := 0, w := 2, body := .reg 0 (unpack [0x55]) } ∧
    statusOf (exec (.rxFragInput [0x69, 0x55]) s) = some .ignored ∧
    statusOf (exec (.rxFragInput frag2) s) = some .ongoing ∧
    SlotStoresOk (small 2).cfg.par (rxSlot (small 2) 0) ∧
    SlotStoresOk (small 3).cfg.par (rxSlot (small 3) 0) ∧
    statusOf (exec (.rxFragInput frag2) (small 2)) = some .rxResourceFail ∧
    statusOf (exec (.rxFragInput frag2) (small 3)) = some .ongoing := by
  dsimp only
  and_intros <;> decide +kernel

/-- ACK_ALWAYS without a gap; ACK_ON_ERROR without and with one. -/
theorem witness_RxWindowAcknowledged :
    let s := receiving ruleAE [(0, tile0)] false
    SlotStoresOk s.cfg.par (rxSlot s 0) ∧ (rxSlot s 0).all1 = false ∧ ruleAE.mode ≠ 0 ∧
    FragReady s frag1 .recv { ri := 0, rule := ruleAE, dt := 0, w := 0, body := .reg 1 tile1 } ∧
    0 * ruleAE.ws + (ruleAE.ws - 1) < s.cfg.par.rxMaxSlots ∧ tile1.length ≤ s.cfg.par.rxTileBits ∧
    eventsOf (exec (.rxFragInput frag1) s) = some [.cancel (.rx 0), .sched (.rx 0) 0 4] ∧
    eventsOf (exec (.rxFragInput frag1) (receiving ruleAE [(2, tile2)] false)) =
      some [.cancel (.rx 0), .sched (.rx 0) 0 4, .send [0x62]] ∧
    eventsOf (exec (.rxFragInput frag1) (receiving ruleAA [(0, tile0)] false)) =
      some [.cancel (.rx 0), .sched (.rx 0) 0 4, .send [0x60]] := by
  dsimp only
  and_intros <;> decide +kernel

/-- A new connection's first fragment, on the slot opened for it: R211's example, a regular fragment
and an All-1. -/
theorem witness_RxFirstFragment :
    let s := opened ruleAA
    SlotStoresOk s.cfg.par (rxSlot s 0) ∧ (rxSlot s 0).armed = false ∧
    FragReady s frag1 .recv { ri := 0, rule := ruleAA, dt := 0, w := 0, body := .reg 1 tile1 } ∧
    FragReady s frag0 .recv { ri := 0, rule := ruleAA, dt := 0, w := 0, body := .reg 0 tile0 } ∧
    FragReady s fragL .recv { ri := 0, rule := ruleAA, dt := 0, w := 1, body := .all1 0x3E18AEF6 } ∧
    resultOf (exec (.rxFragInput frag1) s) = some { CmdResult.plain .ongoing with
      events := [.sched (.rx 0) 0 1, .send [0x62]] } ∧
    resultOf (exec (.rxFragInput frag1) (instWith .down [ruleAA])) =
      resultOf (exec (.rxFragInput frag1) s) ∧
    eventsOf (exec (.rxFragInput frag0) s) = some [.sched (.rx 0) 0 1] ∧
    eventsOf (exec (.rxFragInput fragL) s) = some [.sched (.rx 0) 0 1, .send [0x63]] := by
  dsimp only
  and_intros <;> decide +kernel

/-- P3 step 4 and step 6, L16, and S6 step 2 and step 4. -/
theorem witness_RxFinalEvaluation :
    let all := [(0, tile0), (1, tile1), (2, tile2)]
    let bad := receiving ruleAE [(0, tile0), (1, tile1), (2, unpack [0xAA, 0xAA])] false
    let again := setRx bad 0 { rxSlot bad 0 with micRounds := true }
    SlotStoresOk again.cfg.par (rxSlot (receiving ruleAE [(0, tile0)] true) 0) ∧
    SlotStoresOk again.cfg.par (rxSlot again 0) ∧
    FragReady again fragL .recv
      { ri := 0, rule := ruleAE, dt := 0, w := 1, body := .all1 0x3E18AEF6 } ∧
    FragReady (receiving ruleAE [(0, tile0)] true) frag1 .recv
      { ri := 0, rule := ruleAE, dt := 0, w := 0, body := .reg 1 tile1 } ∧
    eventsOf (exec (.rxFragInput fragL) (receiving ruleAE [(0, tile0), (2, tile2)] false)) =
      some [.cancel (.rx 0), .sched (.rx 0) 0 4, .send [0x61]] ∧
    dataOf (exec (.rxFragInput frag1) (receiving ruleAE [(0, tile0), (2, tile2)] true)) = some msg12 ∧
    statusOf (exec (.rxFragInput [0x63, 0, 0, 0, 0]) (receiving ruleAE all true)) = some .ignored ∧
    wordsOf (exec (.rxFragInput fragL) bad) = some (0, 0) ∧
    wordsOf (exec (.rxFragInput fragL) again) = some (0, 1) ∧
    eventsOf (exec (.rxFragInput fragL) again) =
      some [.cancel (.rx 0), .sched (.rx 0) 0 4, .send [0x64, 0x00], .cancel (.rx 0)] := by
  dsimp only
  and_intros <;> decide +kernel

/-- A whole message, one with a gap, and S3's corruption under `M = 0`. -/
theorem witness_RxNoAckFinal :
    let n := setRx (instWith .down [ruleNA]) 0 { RxSlot.reset with
      state := .recv, nAppend := 1, rcvd := [(0, true)], tile := [(0, tile0)]
      armed := true, gen := 3 }
    FragReady (receiving ruleNA2 [(0, tile0)] false) fragL .recv
      { ri := 0, rule := ruleNA2, dt := 0, w := 1, body := .all1 0x3E18AEF6 } ∧
    FragReady n [0x5A, 0x2B, 0x66, 0xBA, 0x30] .recv
      { ri := 0, rule := ruleNA, dt := 0, w := 0, body := .all1 0x456CD746 } ∧
    dataOf (exec (.rxFragInput fragL)
      (receiving ruleNA2 [(0, tile0), (1, tile1), (2, tile2)] false)) = some msg12 ∧
    resultOf (exec (.rxFragInput fragL) (receiving ruleNA2 [(0, tile0), (2, tile2)] false)) =
      some { CmdResult.plain .micIncorrect with
        r1 := 1, events := [.cancel (.rx 0), .sched (.rx 0) 0 4, .cancel (.rx 0)] } ∧
    statusOf (exec (.rxFragInput [0x5A, 0x2B, 0x66, 0xBA, 0x30]) n) = some .micIncorrect ∧
    statusOf (exec (.rxFragInput [0x63, 0, 0, 0, 0]) (receiving ruleNA2 [(0, tile0)] true)) =
      some .ignored := by
  dsimp only
  and_intros <;> decide +kernel

/-- Slots 1 and 2 of two; a current fire in RECV and in DONE. -/
theorem witness_RxTimerFireAndAbort :
    statusOf (exec (.rxTimerFire 1 0) (completed ruleAA)) = some .ignored ∧
    statusOf (exec (.rxTimerFire 2 0) (completed ruleAA)) = some .errRange ∧
    statusOf (exec (.rxTimerFire 0 3) (completed ruleAA)) = some .ok ∧
    statusOf (exec (.rxTimerFire 0 3) (receiving ruleAA [] false)) = some .abandoned ∧
    statusOf (exec (.rxAbort 2) (completed ruleAA)) = some .errRange ∧
    statusOf (exec (.rxAbort 1) (completed ruleAA)) = some .ok := by decide +kernel

/-- Three tiles, the last with 7 bits of padding. -/
theorem witness_ReassemblyUndoesTiling :
    let x : RxSlot := { RxSlot.reset with
      tile := [(0, tile0), (1, tile1), (2, tile2 ++ zeros 7)] }
    mtuFits 6 ruleAA ∧ ceilDiv (8 * msg12.length) (8 * 6 - hdrBits ruleAA) = 3 ∧
    x.tileAt 0 = tile 6 ruleAA msg12 0 ∧ x.tileAt 1 = tile 6 ruleAA msg12 1 ∧
    x.tileAt 2 = tile 6 ruleAA msg12 2 ++ zeros 7 ∧ (zeros 7).length < 8 ∧
    reassemble x 3 = msg12 := by decide +kernel

/-- The premises of the round trip of `A0 .. AB` under one rule, and the statuses it gives. -/
abbrev RoundTripReady (r : FragRule) (k : Nat) : Prop :=
  CfgOk (instWith .down [r]) ∧ RxSlotsOk (instWith .down [r]) ∧
  (instWith .down [r]).cfg.ctx.frag[0]? = some r ∧
  serves r (otherDir (instWith .down [r]).cfg.par.txDir) ∧ fragRuleOk r ∧ mtuFits 6 r ∧
  0 < 2 ^ r.t ∧ ceilDiv (8 * msg12.length) (8 * 6 - hdrBits r) = k ∧
  (1 ≤ r.m → k / r.ws < 2 ^ r.m) ∧ k ≤ (instWith .down [r]).cfg.par.rxMaxSlots ∧
  8 * 6 - hdrBits r ≤ (instWith .down [r]).cfg.par.rxTileBits ∧
  findConn (instWith .down [r]) 0 0 = none ∧ findFree (instWith .down [r]) = some 0 ∧
  ((feed ((List.range k).map (fragment 6 r 0 msg12) ++ [all1Message .crc32 r 0 (k / r.ws) msg12])
    (instWith .down [r])).map (fun x => x.2.map (·.status))) =
      some (List.replicate k .ongoing ++ [.completed])

/-- ACK_ALWAYS, ACK_ON_ERROR, NO_ACK, and NO_ACK with `M = 0`. -/
theorem witness_FragmentationRoundTrip :
    RoundTripReady ruleAA 3 ∧ RoundTripReady ruleAE 3 ∧ RoundTripReady ruleNA2 3 ∧
    RoundTripReady ruleNA 3 := by
  and_intros <;> decide +kernel

/-- A RESENT replaces the schedule, a timeout and a completed exchange leave none, a stale fire leaves
it; a slot's fire drops its own. -/
theorem witness_LiveSchedulesFollowEvents :
    let s := waiting ruleAA 0
    let out := { s with tx := { s.tx with attempts := 3 } }
    s.rx.length = s.cfg.par.nRx ∧ liveSchedules s = [(.tx, 1)] ∧
    answers (exec (.txTimerFire 1) s) (fun t => liveSchedules t == [(.tx, 2)]) = true ∧
    answers (exec (.txTimerFire 7) s) (fun t => liveSchedules t == [(.tx, 1)]) = true ∧
    answers (exec (.txTimerFire 1) out) (fun t => decide (NoPending t)) = true ∧
    liveSchedules (completed ruleAA) = [(.rx 0, 3)] ∧
    answers (exec (.rxTimerFire 0 3) (completed ruleAA)) (fun t => decide (NoPending t)) = true ∧
    pendingAfter (.txTimerFire 1) [.send [], .sched .tx 0 2] (liveSchedules s) = [(.tx, 2)] := by
  dsimp only
  and_intros <;> decide +kernel

end Sys2Proof.Tests
end

section
/-!
Proofs of the family 00_scope: bit strings and bytes by position (spec/00_scope.md R10 to R12), and the
command a step runs (spec/00_scope.md R13, spec/30_encoding.md R80).
-/

namespace Sys2Proof.Machine

open Sys2Proof.Safety

/-! ### Bit strings and bytes -/

theorem bitsOf_getD {n p : Nat} (v : Nat) (h : p < n) :
    (bitsOf n v).getD p false = v.testBit (n - 1 - p) := by
  have hl : p < (bitsOf n v).length := by simpa using h
  rw [List.getD_eq_getElem _ _ hl, bitsOf_getElem]

@[simp] theorem bigEndian_nil : bigEndian [] = 0 := rfl

theorem bigEndian_append_singleton (d : List Byte) (b : Byte) :
    bigEndian (d ++ [b]) = 256 * bigEndian d + b.toNat := by
  simp [bigEndian]

theorem valOf_unpack_singleton (b : Byte) : valOf (unpack [b]) = b.toNat := by
  rw [unpack_cons, unpack_nil, List.append_nil, valOf_bitsOf_of_lt b.isLt]

/-- The two folds run from opposite ends, so the induction is on the last byte. -/
theorem valOf_unpack (d : List Byte) : valOf (unpack d) = bigEndian d := by
  induction d using List.reverseRecOn with
  | nil => simp
  | append_singleton d b ih =>
    rw [unpack_append, valOf_append, ih, valOf_unpack_singleton, bigEndian_append_singleton,
      unpack_length]
    simp [Nat.mul_comm]

/-- Zero bits appended to a bit string are what it reads beyond its end. -/
theorem getD_append_replicate_false (s : Bits) (n p : Nat) :
    (s ++ List.replicate n false).getD p false = s.getD p false := by
  rcases lt_or_ge p s.length with hp | hp
  · rw [List.getD_append _ _ _ _ hp]
  · rw [List.getD_append_right _ _ _ _ hp, List.getD_eq_default _ _ hp,
      List.getD_eq_getElem?_getD, List.getElem?_getD_replicate_default_eq]

theorem byteBit_pack (s : Bits) (p : Nat) : byteBit (pack s) p = s.getD p false := by
  rw [← unpack_getD, unpack_pack, getD_append_replicate_false]

/-! ### Steps -/

theorem step_of_port_nil {s : State} (h : CfgOk s) (hp : s.port = []) : step s = .next s := by
  rw [step_of_ok h.1 h.2, hp]

theorem step_of_port_command {s : State} {c : Command} {rest : List PortInput} (h : CfgOk s)
    (hp : s.port = .command c :: rest) : step s = runCommand c (withPort s rest) := by
  rw [step_of_ok h.1 h.2, hp]

theorem runCommand_of_decode {c : Command} {s : State} {i : Instr}
    (h : decode s.cfg.par.maxInBytes c = .ok i) : runCommand c s = exec i s := by
  rw [runCommand, h]

theorem step_of_decode {s : State} {c : Command} {rest : List PortInput} {i : Instr} (h : CfgOk s)
    (hp : s.port = .command c :: rest) (hd : decode s.cfg.par.maxInBytes c = .ok i) :
    step s = exec i (withPort s rest) :=
  (step_of_port_command h hp).trans (runCommand_of_decode hd)

/-- With DATA_IN empty the length check of R86 passes, whatever `MAX_IN_BYTES` is. -/
theorem decode_of_data_nil {c : Command} (h : c.data = []) (m n : Nat) : decode m c = decode n c := by
  simp only [decode, decodeRow, h, List.length_nil, Nat.not_lt_zero, if_false]

theorem decode_tableCommand {nbits w : Nat} {i : Instr} (h : decodeTableWord nbits w = some i)
    (maxIn : Nat) : decode maxIn (tableCommand nbits w) = .ok i := by
  rw [decode_of_data_nil rfl maxIn 0]
  unfold decodeTableWord at h
  split at h
  · rwa [← Option.some.inj h]
  · cases h

@[simp] theorem withFetchWord_cfg (s : State) (nbits w : Nat) :
    (s.withFetchWord nbits w).cfg = s.cfg := rfl

@[simp] theorem withFetchWord_port (s : State) (nbits w : Nat) :
    (s.withFetchWord nbits w).port = .command (tableCommand nbits w) :: s.port := rfl

/-- Taking the table row's word off the port again leaves the state it was put on. -/
@[simp] theorem withPort_withFetchWord (s : State) (nbits w : Nat) :
    withPort (s.withFetchWord nbits w) s.port = s := rfl

/-- A table row's word, put on the port, runs the command it decodes to, in the state without it. -/
theorem step_withFetchWord {s : State} {nbits w : Nat} {i : Instr} (h : CfgOk s)
    (hd : decodeTableWord nbits w = some i) : step (s.withFetchWord nbits w) = exec i s := by
  have hstep := step_of_decode (s := s.withFetchWord nbits w) h (withFetchWord_port s nbits w)
    (decode_tableCommand hd _)
  rwa [withPort_withFetchWord] at hstep

/-! ### The obligations -/

/-- Settles O23: each conversion position by position, `pack` through `unpack` of its result. -/
theorem bitStringsAndBytes : Obligations.BitStringsAndBytes :=
  ⟨fun n v => ⟨bitsOf_length n v, valOf_bitsOf n v, fun _ hp => bitsOf_getD v hp⟩,
    bitsOf_valOf,
    fun d => ⟨unpack_length d, valOf_unpack d, unpack_getD d⟩,
    fun s => ⟨pack_length s, byteBit_pack s⟩⟩

/-- Settles O5: the step with nothing, with a decodable command and with a table row's word at the
head of the port. -/
theorem stepRunsTheDecodedCommand : Obligations.StepRunsTheDecodedCommand :=
  fun _ hcfg => ⟨step_of_port_nil hcfg, fun _ _ _ hp hd => step_of_decode hcfg hp hd,
    fun _ _ _ hd => step_withFetchWord hcfg hd⟩

end Sys2Proof.Machine
end

section
/-!
Proofs of the family 10_state, the codec datapath (spec/10_state.md R24 to R27): every codec command
answers, and leaves one of a few states; each of them keeps CBUF, POS, CB_LEN and FV legal.
-/

namespace Sys2Proof.Machine

open Sys2Proof.Safety

/-! ### Families -/

theorem instr_family (i : Instr) :
    i = .nop ∨ isCodec i = true ∨ isTx i = true ∨ isRx i = true := by
  cases i <;> simp [isCodec, isTx, isRx, opcodeOf]

/-! ### What a codec command leaves -/

/-- The states a codec command can leave, its result aside (spec/40_codec.md R121 to R140): `load` is
also CB_CLEAR's, with no bytes, and `seek` is also every read's. -/
inductive CodecMove (s : State) : State → Prop
  | stay : CodecMove s s
  | load (d : List Byte) (h : d.length ≤ s.cfg.par.cbufBytes) :
      CodecMove s { s with cod := { s.cod with
        cbuf := Memory.ofBytes 0 d, cbLen := BitVec.ofNat 32 (8 * d.length), pos := 0 } }
  | seek (p : Word) (h : p.toNat ≤ s.cod.cbLen.toNat) :
      CodecMove s { s with cod := { s.cod with pos := p } }
  | write (bs : Bits) (h : fitsWrite s bs.length) : CodecMove s (writeAtPos s bs)
  | fv {u : State} (hu : CodecMove s u) (v : Nat) (h : v < 2 ^ s.cfg.par.maxFieldBits) :
      CodecMove s (setFv u v)

theorem CodecMove.advance {s : State} {n : Nat} (h : fitsRead s n) :
    CodecMove s (advancePos s n) :=
  .seek _ ((BitVec.toNat_ofNat .. ▸ Nat.mod_le _ _ : _ ≤ s.cod.pos.toNat + n).trans h)

/-- The answer of a codec command in `s`: a next state, no event, and never SUCCESS. -/
def CodecReplies (s : State) (a : Answer) : Prop :=
  ∃ u r, a = reply u r ∧ CodecMove s u ∧ r.events = [] ∧ r.status ≠ .success

theorem codecReplies_reply {s u : State} {r : CmdResult} (hu : CodecMove s u)
    (he : r.events = [] := by rfl) (hst : r.status ≠ .success := by simp) :
    CodecReplies s (reply u r) := ⟨u, r, rfl, hu, he, hst⟩

theorem codecReplies_raise {s : State} {st : Status} (h : st ≠ .success := by simp) :
    CodecReplies s (raise s st) := codecReplies_reply .stay rfl h

/-! ### Field descriptors -/

theorem fdCheck_ok {s : State} {a b : Byte} {f : FieldDesc} (h : fdCheck s a b = .ok f) :
    fieldDescOk s.cfg.par f := by
  unfold fdCheck at h
  split at h
  · cases h
  split at h
  · cases h
  split at h
  · rwa [← Except.ok.inj h]
  · cases h

theorem fdCheck_error {s : State} {a b : Byte} {st : Status} (h : fdCheck s a b = .error st) :
    st = .errReserved ∨ st = .errLookup ∨ st = .errConfig := by
  unfold fdCheck at h
  split at h
  · exact .inl (Except.error.inj h).symm
  split at h
  · exact .inr (.inl (Except.error.inj h).symm)
  split at h
  · cases h
  · exact .inr (.inr (Except.error.inj h).symm)

theorem residueOf_error {f : FieldDesc} {v : Nat} {st : Status} (h : residueOf f v = .error st) :
    st = .errNoMatch := by
  unfold residueOf at h
  split at h
  · cases h
  split at h
  · split at h
    · exact (Except.error.inj h).symm
    · cases h
  split at h <;> cases h

theorem target0_lt {p : Params} {f : FieldDesc} (h : fieldDescOk p f) : target0 f < 2 ^ f.fl := by
  obtain ⟨-, -, -, -, -, -, htv, -, -⟩ := h
  unfold target0
  cases hl : f.tv with
  | nil => simp
  | cons v tv => exact htv v (by simp [hl])

/-- The value FD_DECODE makes of a residue is as wide as the field (R138). -/
theorem valueOfResidue_lt {p : Params} {f : FieldDesc} {v : Nat} (h : fieldDescOk p f)
    (hv : v < 2 ^ residueWidth f) : valueOfResidue f v < 2 ^ f.fl := by
  have ht := target0_lt h
  obtain ⟨-, -, -, -, -, -, htv, -, -⟩ := h
  unfold valueOfResidue
  split
  · simpa [residueWidth, *] using hv
  split
  · rw [List.getD_eq_getElem?_getD]
    cases hg : f.tv[v]? with
    | none => simp
    | some w => exact htv w (List.mem_of_getElem? hg)
  split
  · have hw : residueWidth f ≤ f.fl := by simp [residueWidth, *]
    refine Nat.or_lt_two_pow ?_ (hv.trans_le (Nat.pow_le_pow_right (by omega) hw))
    rw [Nat.shiftLeft_eq, Nat.shiftRight_eq_div_pow]
    exact (Nat.div_mul_le_self _ _).trans_lt ht
  split
  · exact ht
  · exact Nat.two_pow_pos _

theorem valueOfResidue_fits {p : Params} {f : FieldDesc} {v : Nat} (h : fieldDescOk p f)
    (hv : v < 2 ^ residueWidth f) : valueOfResidue f v < 2 ^ p.maxFieldBits :=
  (valueOfResidue_lt h hv).trans_le (Nat.pow_le_pow_right (by omega) h.1.2)

theorem valOf_bitsAtPos_lt (s : State) (n : Nat) : valOf (bitsAtPos s n) < 2 ^ n := by
  simpa [bitsAtPos] using valOf_lt (bitsAtPos s n)

/-! ### The codec commands, one by one -/

theorem execCbLoad_replies (d : List Byte) (s : State) : CodecReplies s (execCbLoad d s) := by
  unfold execCbLoad
  split
  · exact codecReplies_raise
  · exact codecReplies_reply (.load d (by omega))

theorem execCbClear_replies (s : State) : CodecReplies s (execCbClear s) :=
  codecReplies_reply (.load [] (Nat.zero_le _))

theorem execCbSeek_replies (p : Word) (s : State) : CodecReplies s (execCbSeek p s) := by
  unfold execCbSeek
  split
  · exact codecReplies_raise
  · exact codecReplies_reply (.seek p (by omega))

theorem execCbWrite_replies (a : Byte) (v : Word) (s : State) :
    CodecReplies s (execCbWrite a v s) := by
  unfold execCbWrite
  split
  · exact codecReplies_raise
  split
  · exact codecReplies_raise
  · rename_i h
    exact codecReplies_reply (.write _ (by simpa using h))

theorem execCbRead_replies (a : Byte) (s : State) : CodecReplies s (execCbRead a s) := by
  unfold execCbRead
  split
  · exact codecReplies_raise
  split
  · exact codecReplies_raise
  · rename_i h
    exact codecReplies_reply (.advance (not_not.1 h))

theorem execCbAppend_replies (d : List Byte) (s : State) : CodecReplies s (execCbAppend d s) := by
  unfold execCbAppend
  split
  · exact codecReplies_raise
  · rename_i h
    exact codecReplies_reply (.write _ (by simpa using h))

theorem execFvLoad_replies (d : List Byte) (s : State) : CodecReplies s (execFvLoad d s) := by
  unfold execFvLoad
  split
  · exact codecReplies_raise
  · rename_i h
    have hv := valOf_lt (unpack d)
    rw [unpack_length] at hv
    exact codecReplies_reply (.fv .stay _
      (hv.trans_le (Nat.pow_le_pow_right (by omega) (Nat.le_of_not_lt h))))

theorem execFvStore_replies (a : Byte) (s : State) : CodecReplies s (execFvStore a s) := by
  unfold execFvStore
  split
  · exact codecReplies_raise
  · exact codecReplies_reply .stay

theorem codecReplies_raise_fdCheck {s : State} {a b : Byte} {st : Status}
    (h : fdCheck s a b = .error st) : CodecReplies s (raise s st) :=
  codecReplies_raise (by rcases fdCheck_error h with rfl | rfl | rfl <;> simp)

theorem execFdMatch_replies (a b : Byte) (s : State) : CodecReplies s (execFdMatch a b s) := by
  unfold execFdMatch
  split
  · exact codecReplies_raise_fdCheck ‹_›
  split
  · exact codecReplies_reply .stay
  split
  · exact codecReplies_raise
  · exact codecReplies_reply .stay

theorem execFdEncode_replies (a b : Byte) (s : State) : CodecReplies s (execFdEncode a b s) := by
  unfold execFdEncode
  split
  · exact codecReplies_raise_fdCheck ‹_›
  split
  · exact codecReplies_reply .stay
  split
  · exact codecReplies_raise
  split
  · rename_i h
    rw [residueOf_error h]
    exact codecReplies_raise
  split
  · exact codecReplies_raise
  · rename_i h
    exact codecReplies_reply (.write _ (not_not.1 h))

theorem execFdDecode_replies (a b : Byte) (s : State) : CodecReplies s (execFdDecode a b s) := by
  unfold execFdDecode
  split
  · exact codecReplies_raise_fdCheck ‹_›
  rename_i f hf
  have hok := fdCheck_ok hf
  split
  · exact codecReplies_reply .stay
  split
  · exact codecReplies_reply (.fv .stay _ (valueOfResidue_fits hok (Nat.two_pow_pos _)))
  split
  · exact codecReplies_raise
  rename_i hr
  split
  · exact codecReplies_raise
  · exact codecReplies_reply (.fv (.advance (not_not.1 hr)) _
      (valueOfResidue_fits hok (valOf_bitsAtPos_lt _ _)))

theorem execRidWrite_replies (a b : Byte) (s : State) : CodecReplies s (execRidWrite a b s) := by
  unfold execRidWrite
  split
  · exact codecReplies_raise
  split
  · exact codecReplies_raise
  split
  · exact codecReplies_raise
  · rename_i h
    exact codecReplies_reply (.write _ (by simpa using h))

theorem execRidLookup_replies (b : Byte) (s : State) : CodecReplies s (execRidLookup b s) := by
  unfold execRidLookup
  split
  · exact codecReplies_raise
  split
  · exact codecReplies_raise
  · rename_i h
    have hr := List.find?_some h
    exact codecReplies_reply (.advance (of_decide_eq_true hr).1)

theorem exec_codec_replies {i : Instr} (hi : isCodec i = true) (s : State) :
    CodecReplies s (exec i s) := by
  cases i with
  | cbLoad d => exact execCbLoad_replies d s
  | cbClear => exact execCbClear_replies s
  | cbSeek p => exact execCbSeek_replies p s
  | cbWrite a v => exact execCbWrite_replies a v s
  | cbRead a => exact execCbRead_replies a s
  | cbUnload => exact codecReplies_reply .stay
  | cbAppend d => exact execCbAppend_replies d s
  | cbTail => exact codecReplies_reply .stay
  | fvLoad d => exact execFvLoad_replies d s
  | fvStore a => exact execFvStore_replies a s
  | fdMatch a b => exact execFdMatch_replies a b s
  | fdEncode a b => exact execFdEncode_replies a b s
  | fdDecode a b => exact execFdDecode_replies a b s
  | ridWrite a b => exact execRidWrite_replies a b s
  | ridLookup b => exact execRidLookup_replies b s
  | _ => simp [isCodec, opcodeOf] at hi

/-- Every next state a codec command answers. -/
theorem exec_codec_cases {i : Instr} {s t : State} (hi : isCodec i = true)
    (h : exec i s = .next t) :
    ∃ u r, t = withResult u r ∧ CodecMove s u ∧ r.events = [] ∧ r.status ≠ .success := by
  obtain ⟨u, r, ha, hu⟩ := exec_codec_replies hi s
  exact ⟨u, r, (reply_next.1 (ha.symm.trans h)).symm, hu⟩

/-! ### What a codec command keeps -/

theorem CodecMove.frame {s u : State} (h : CodecMove s u) : ∃ c, u = { s with cod := c } := by
  induction h with
  | fv hu v hv ih =>
    obtain ⟨c, rfl⟩ := ih
    exact ⟨{ c with fv := v }, rfl⟩
  | _ => exact ⟨_, rfl⟩

theorem exec_codec_onlyCodec {i : Instr} {s t : State} (hi : isCodec i = true)
    (h : exec i s = .next t) : OnlyCodec s t := by
  obtain ⟨u, r, rfl, hu, -, -⟩ := exec_codec_cases hi h
  obtain ⟨c, rfl⟩ := hu.frame
  rfl

/-- The codec datapath holds legal values (R24 to R27). -/
abbrev CodecOk (s : State) : Prop := CbufOk s ∧ CursorOk s ∧ FvOk s

theorem codecOk_load {s : State} {d : List Byte} (hp : paramsOk s.cfg.par) (hfv : FvOk s)
    (h : d.length ≤ s.cfg.par.cbufBytes) :
    CodecOk { s with cod := { s.cod with
      cbuf := Memory.ofBytes 0 d, cbLen := BitVec.ofNat 32 (8 * d.length), pos := 0 } } := by
  obtain ⟨-, -, -, -, -, -, ⟨-, hcap⟩, -, -⟩ := hp
  have hlen : 8 * d.length < 2 ^ 32 := by omega
  refine ⟨⟨Memory.wf_ofBytes 0 d, fun e he => ?_⟩, ⟨by simp, ?_⟩, hfv⟩
  · have := (Memory.mem_ofBytes he).2.1
    simp only
    omega
  · simp only [BitVec.toNat_ofNat, Nat.mod_eq_of_lt hlen, cbufBits]
    omega

theorem codecOk_writeAtPos {s : State} {bs : Bits} (hp : paramsOk s.cfg.par) (hs : CodecOk s)
    (h : fitsWrite s bs.length) : CodecOk (writeAtPos s bs) := by
  obtain ⟨-, -, -, -, -, -, ⟨-, hcap⟩, -, -⟩ := hp
  obtain ⟨⟨hwf, hin⟩, ⟨-, hlen⟩, hfv⟩ := hs
  unfold fitsWrite at h
  have hcb : cbufBits (writeAtPos s bs) = cbufBits s := rfl
  have hfit : s.cod.pos.toNat + bs.length < 2 ^ 32 := by unfold cbufBits at h; omega
  refine ⟨⟨Memory.wf_bitWrite hwf _ _, fun e he => ?_⟩, ⟨?_, ?_⟩, hfv⟩
  · rcases Memory.mem_bitWrite he with he | ⟨-, he⟩
    · exact hin e he
    · simp only [writeAtPos_cfg]
      unfold cbufBits at h
      omega
  · rw [writeAtPos_pos_toNat hfit, writeAtPos_cbLen_toNat hfit]
    exact Nat.le_max_right _ _
  · rw [writeAtPos_cbLen_toNat hfit, hcb]
    exact Nat.max_le.2 ⟨hlen, h⟩

theorem CodecMove.keeps_codecOk {s u : State} (hp : paramsOk s.cfg.par) (hs : CodecOk s)
    (h : CodecMove s u) : CodecOk u := by
  induction h with
  | stay => exact hs
  | load d hd => exact codecOk_load hp hs.2.2 hd
  | seek p hseek => exact ⟨hs.1, ⟨hseek, hs.2.1.2⟩, hs.2.2⟩
  | write bs hw => exact codecOk_writeAtPos hp hs hw
  | fv hu v hv ih =>
    obtain ⟨c, rfl⟩ := hu.frame
    exact ⟨ih.1, ih.2.1, hv⟩

theorem codecOk_resetWith (cfg : Config) : CodecOk (State.resetWith cfg) :=
  ⟨⟨Memory.wf_reset cfg, by simp [State.resetWith, Codec.reset]⟩,
    ⟨Nat.zero_le _, Nat.zero_le _⟩, Nat.two_pow_pos _⟩

end Sys2Proof.Machine
end

section
/-!
Proofs of the family 10_state, the TX connection (spec/10_state.md R28 to R36): TX_OUTPUT starts an
exchange whose registers fit its rule; the other TX commands continue it or end it.
-/

namespace Sys2Proof.Machine

open Sys2Proof.Safety

/-! ### What the commands on an exchange leave -/

/-- What a TX command other than TX_OUTPUT can do to an exchange (R181 to R187): its rule, DTAG,
message and sizes stay, and an exchange still in WAIT waited before, in the same window or, under
ACK_ALWAYS, in another. -/
structure TxContinues (s t : State) : Prop where
  kept : t = { s with
    tx := { s.tx with
      state := t.tx.state, win := t.tx.win, attempts := t.tx.attempts
      micRounds := t.tx.micRounds, armed := t.tx.armed, gen := t.tx.gen }
    result := t.result }
  attempts : t.tx.attempts = 0 ∨ t.tx.attempts = s.tx.attempts ∨
    s.tx.attempts.toNat < s.cfg.par.maxAckReq ∧ t.tx.attempts = s.tx.attempts + 1
  window : t.tx.state = .wait → s.tx.state = .wait ∧ (t.tx.win = s.tx.win ∨
    t.tx.win.toNat ≤ s.tx.wl.toNat ∧ ∃ r, txRule s = some r ∧ isAckAlways r)
  timer : TxTimerOk s → TxTimerOk t

theorem txContinues_withResult (s : State) (r : CmdResult) : TxContinues s (withResult s r) :=
  ⟨rfl, .inr (.inl rfl), fun h => ⟨h, .inl rfl⟩, id⟩

theorem txContinues_txAttempts0 (s : State) (r : CmdResult) :
    TxContinues s (withResult (txAttempts0 s) r) :=
  ⟨rfl, .inl rfl, fun h => ⟨h, .inl rfl⟩, id⟩

/-- An exchange that has left WAIT is not armed (R190, R263). -/
theorem txTimerOk_of_left {s : State} (hst : s.tx.state ≠ .wait) (ha : s.tx.armed = false) :
    TxTimerOk s := by
  simp [TxTimerOk, hst, ha]

/-- An exchange in WAIT is armed (R190, R262). -/
theorem txTimerOk_of_wait {s : State} (hst : s.tx.state = .wait) (ha : s.tx.armed = true) :
    TxTimerOk s := by
  simp [TxTimerOk, hst, ha]

theorem txContinues_leaveTx_txAttempts0 (s : State) {st : TxPhase} (h : st ≠ .wait)
    (r : CmdResult) : TxContinues s (withResult (leaveTx (txAttempts0 s) st) r) :=
  ⟨rfl, .inl rfl, fun hw => absurd hw h, fun _ => txTimerOk_of_left h rfl⟩

theorem txContinues_leaveTx (s : State) {st : TxPhase} (h : st ≠ .wait) (r : CmdResult) :
    TxContinues s (withResult (leaveTx s st) r) :=
  ⟨rfl, .inr (.inl rfl), fun hw => absurd hw h, fun _ => txTimerOk_of_left h rfl⟩

theorem micRound_continues {s t : State} {r : FragRule} (hw : s.tx.state = .wait)
    (hr : txRule s = some r) (h : micRound (txAttempts0 s) r = .next t) : TxContinues s t := by
  rcases micRound_cases h with ⟨-, ha, rfl⟩ | ⟨-, -, rfl⟩ | ⟨-, rfl⟩
  · exact ⟨rfl, .inl rfl, fun _ => ⟨hw, .inr ⟨Nat.zero_le _, r, hr, ha⟩⟩,
      fun _ => txTimerOk_of_wait hw rfl⟩
  · exact ⟨rfl, .inl rfl, fun _ => ⟨hw, .inl rfl⟩, fun _ => txTimerOk_of_wait hw rfl⟩
  · exact txContinues_leaveTx_txAttempts0 s (by simp) _

theorem nonFinalAck_continues {s t : State} {r : FragRule} {m : AckMsg} (hw : s.tx.state = .wait)
    (hr : txRule s = some r) (hm : m.w < s.tx.wl.toNat)
    (h : nonFinalAck (txAttempts0 s) r m = .next t) : TxContinues s t := by
  rcases nonFinalAck_cases h with ⟨_, rfl, -⟩ | ⟨ha, rfl⟩ | ⟨-, rfl⟩
  · exact ⟨rfl, .inl rfl, fun _ => ⟨hw, .inl rfl⟩, fun _ => txTimerOk_of_wait hw rfl⟩
  · have hwin : (BitVec.ofNat 8 (m.w + 1)).toNat ≤ s.tx.wl.toNat := by
      rw [BitVec.toNat_ofNat]
      exact (Nat.mod_le _ _).trans hm
    exact ⟨rfl, .inl rfl, fun _ => ⟨hw, .inr ⟨hwin, r, hr, ha⟩⟩, fun _ => txTimerOk_of_wait hw rfl⟩
  · exact txContinues_txAttempts0 s _

theorem finalAck_continues {s t : State} {r : FragRule} {m : AckMsg} (hw : s.tx.state = .wait)
    (hr : txRule s = some r) (h : finalAck (txAttempts0 s) r m = .next t) : TxContinues s t := by
  rcases finalAck_cases h with ⟨-, rfl⟩ | ⟨_, rfl, -⟩ | h
  · exact txContinues_leaveTx_txAttempts0 s (by simp) _
  · exact ⟨rfl, .inl rfl, fun _ => ⟨hw, .inl rfl⟩, fun _ => txTimerOk_of_wait hw rfl⟩
  · exact micRound_continues hw hr h

theorem execTxAckInput_continues {d : List Byte} {s t : State}
    (h : execTxAckInput d s = .next t) : TxContinues s t := by
  rcases execTxAckInput_cases h with ⟨-, rfl⟩ | ⟨-, rfl⟩ | ⟨r, hw, hr, -, ⟨hlt, h⟩ | ⟨-, h⟩⟩
  · exact txContinues_withResult s _
  · exact txContinues_withResult s _
  · exact nonFinalAck_continues hw hr hlt h
  · exact finalAck_continues hw hr h

theorem execTxTimerFire_continues {g : Word} {s t : State}
    (h : execTxTimerFire g s = .next t) : TxContinues s t := by
  rcases execTxTimerFire_cases h with
    ⟨-, rfl⟩ | ⟨-, -, hw, rfl⟩ | ⟨r, -, -, hw, hlt, -, rfl⟩ | ⟨-, -, -, -, rfl⟩
  · exact txContinues_withResult s _
  · exact ⟨rfl, .inr (.inl rfl), fun h => absurd h hw, fun _ => txTimerOk_of_left hw rfl⟩
  · exact ⟨rfl, .inr (.inr ⟨hlt, rfl⟩), fun _ => ⟨hw, .inl rfl⟩,
      fun _ => txTimerOk_of_wait hw rfl⟩
  · exact txContinues_leaveTx s (by simp) _

/-- Every TX command starts an exchange or continues the one that stands (R179 to R187). -/
theorem exec_tx_cases {i : Instr} {s t : State} (hi : isTx i = true) (h : exec i s = .next t) :
    (∃ a d, i = .txOutput a d) ∨ TxContinues s t := by
  cases i with
  | txOutput a d => exact .inl ⟨a, d, rfl⟩
  | txAckInput d => exact .inr (execTxAckInput_continues h)
  | txTimerFire g => exact .inr (execTxTimerFire_continues h)
  | txAbort =>
    rw [← reply_next.1 h]
    exact .inr (txContinues_leaveTx s (by simp) _)
  | txQuery =>
    rw [← reply_next.1 h]
    exact .inr (txContinues_withResult s _)
  | _ => simp [isTx, opcodeOf] at hi

theorem TxContinues.onlyTx {s t : State} (h : TxContinues s t) : OnlyTx s t := by
  have hk := h.kept
  rw [hk]

theorem TxContinues.dtagNext {s t : State} (h : TxContinues s t) : t.dtagNext = s.dtagNext := by
  have hk := h.kept
  rw [hk]

theorem TxContinues.keeps_txBounds {s t : State} (hs : TxBoundsOk s) (h : TxContinues s t) :
    TxBoundsOk t := by
  obtain ⟨hk, ha, -, -⟩ := h
  obtain ⟨hlen, hatt⟩ := hs
  have hatt' : t.tx.attempts.toNat ≤ s.cfg.par.maxAckReq := by
    rcases ha with ha | ha | ⟨hlt, ha⟩
    · simp [ha]
    · rwa [ha]
    · rw [ha, BitVec.toNat_add]
      exact (Nat.mod_le _ _).trans hlt
  rw [hk]
  exact ⟨hlen, hatt'⟩

theorem TxContinues.keeps_txExchange {s t : State} (hs : TxExchangeOk s)
    (h : TxContinues s t) : TxExchangeOk t := by
  obtain ⟨hk, -, hwin, -⟩ := h
  intro hwait
  obtain ⟨hw, hwin⟩ := hwin hwait
  obtain ⟨r, hr, hok, hmtu, hsv, hna, hkr, hwl, hfit, hle, heq, hdt⟩ := hs hw
  have hwin' : t.tx.win.toNat ≤ s.tx.wl.toNat ∧ (¬ isAckAlways r → t.tx.win = s.tx.wl) := by
    rcases hwin with hsame | ⟨hle', r', hr', haa⟩
    · rw [hsame]
      exact ⟨hle, heq⟩
    · obtain rfl : r = r' := Option.some.inj (hr.symm.trans hr')
      exact ⟨hle', fun h => absurd haa h⟩
  rw [hk]
  exact ⟨r, hr, hok, hmtu, hsv, hna, hkr, hwl, hfit, hwin'.1, hwin'.2, hdt⟩

/-! ### TX_OUTPUT -/

/-- A rule of an ACK mode has a W field (R41). -/
theorem one_le_m {r : FragRule} (h : fragRuleOk r) (hn : ¬ isNoAck r) : 1 ≤ r.m := by
  obtain ⟨-, -, -, -, -, -, -, -, hm⟩ := h
  exact hm hn

theorem txLaunch_replies (r : FragRule) (s : State) :
    ∃ u res, txLaunch r s = reply u res ∧ res.status = .success := by
  unfold txLaunch
  split
  · exact ⟨_, _, rfl, rfl⟩
  split
  · exact ⟨_, _, rfl, rfl⟩
  · exact ⟨_, _, rfl, rfl⟩

/-- The exchange TX_OUTPUT starts (R179): in END under NO_ACK, else in WAIT and armed. -/
theorem txLaunch_next {r : FragRule} {s t : State} (h : txLaunch r s = .next t) :
    ∃ res, res.status = .success ∧
      ((isNoAck r ∧ t = withResult (txGoto s s.tx.wl .ended) res) ∨
       ∃ w, ¬ isNoAck r ∧ w.toNat ≤ s.tx.wl.toNat ∧ (¬ isAckAlways r → w = s.tx.wl) ∧
         t = withResult (armTx (txGoto s w .wait)) res) := by
  rcases txLaunch_cases h with ⟨hn, rfl⟩ | ⟨hn, ha, rfl⟩ | ⟨hn, -, rfl⟩
  · exact ⟨_, rfl, .inl ⟨hn, rfl⟩⟩
  · exact ⟨_, rfl, .inr ⟨0, hn, Nat.zero_le _, fun h => absurd ha h, rfl⟩⟩
  · exact ⟨_, rfl, .inr ⟨s.tx.wl, hn, Nat.le_refl _, fun _ => rfl, rfl⟩⟩

theorem execTxOutput_replies (a : Byte) (d : List Byte) (s : State) :
    ∃ u res, execTxOutput a d s = reply u res := by
  unfold execTxOutput
  split
  · exact ⟨_, _, rfl⟩
  split
  · exact ⟨_, _, rfl⟩
  split
  · exact ⟨_, _, rfl⟩
  split
  · exact ⟨_, _, rfl⟩
  split
  · exact ⟨_, _, rfl⟩
  split
  · exact ⟨_, _, rfl⟩
  split
  · exact ⟨_, _, rfl⟩
  · obtain ⟨u, res, h, -⟩ := txLaunch_replies _ (txLoad s a _ d)
    exact ⟨u, res, h⟩

theorem execTxOutput_onlyTx {a : Byte} {d : List Byte} {s t : State}
    (h : execTxOutput a d s = .next t) : OnlyTx s t := by
  rcases execTxOutput_cases h with ⟨_, -, rfl⟩ | ⟨r, -, -, -, -, -, -, -, -, h⟩
  · rfl
  · obtain ⟨_, -, ⟨-, rfl⟩ | ⟨_, -, -, -, rfl⟩⟩ := txLaunch_next h <;> rfl

/-- TX_OUTPUT moves DTAG_NEXT exactly when it returns SUCCESS (R32). -/
theorem execTxOutput_dtagNext {a : Byte} {d : List Byte} {s t : State}
    (h : execTxOutput a d s = .next t) :
    ∃ res, t.result = some res ∧
      t.dtagNext = if res.status = .success then s.dtagNext + 1 else s.dtagNext := by
  rcases execTxOutput_cases h with ⟨st, hst, rfl⟩ | ⟨r, -, -, -, -, -, -, -, -, h⟩
  · exact ⟨_, rfl, by simp [hst]⟩
  · obtain ⟨res, hres, ⟨-, rfl⟩ | ⟨_, -, -, -, rfl⟩⟩ := txLaunch_next h
    · exact ⟨res, rfl, by simp [hres]⟩
    · exact ⟨res, rfl, by simp [hres]⟩

theorem execTxOutput_keeps_txTimer {a : Byte} {d : List Byte} {s t : State} (hs : TxTimerOk s)
    (h : execTxOutput a d s = .next t) : TxTimerOk t := by
  rcases execTxOutput_cases h with ⟨_, -, rfl⟩ | ⟨r, hw, -, -, -, -, -, -, -, h⟩
  · exact hs
  · obtain ⟨_, -, ⟨-, rfl⟩ | ⟨_, -, -, -, rfl⟩⟩ := txLaunch_next h
    · exact txTimerOk_of_left (by simp) (by simpa using mt hs.2 hw)
    · exact txTimerOk_of_wait rfl rfl

theorem execTxOutput_keeps_txBounds {a : Byte} {d : List Byte} {s t : State} (hs : TxBoundsOk s)
    (h : execTxOutput a d s = .next t) : TxBoundsOk t := by
  rcases execTxOutput_cases h with ⟨_, -, rfl⟩ | ⟨r, -, -, -, -, -, -, hlen, -, h⟩
  · exact hs
  · obtain ⟨_, -, ⟨-, rfl⟩ | ⟨_, -, -, -, rfl⟩⟩ := txLaunch_next h <;>
      exact ⟨hlen, Nat.zero_le _⟩

/-- An exchange that waits was launched under a rule with windows, so its sizes and its DTAG fit the
registers (R179). -/
theorem execTxOutput_keeps_txExchange {a : Byte} {d : List Byte} {s t : State}
    (hs : TxExchangeOk s) (h : execTxOutput a d s = .next t) : TxExchangeOk t := by
  rcases execTxOutput_cases h with ⟨_, -, rfl⟩ | ⟨r, -, hr, hsv, hok, hmtu, -, -, hwin, h⟩
  · exact hs
  obtain ⟨_, -, ⟨-, rfl⟩ | ⟨w, hna, hle, heq, rfl⟩⟩ := txLaunch_next h
  · intro hwait
    cases hwait
  intro _
  obtain ⟨hwm, hw8, hk⟩ := windows_fit hok (one_le_m hok hna) hwin
  have hwl : (txLoad s a r d).tx.wl.toNat = tileCount s.cfg.par.mtu r d.length / r.ws := by
    rw [txLoad_tx_wl, lastWindowReg, if_pos hw8, BitVec.toNat_ofNat, Nat.mod_eq_of_lt hw8]
  have hkr : (txLoad s a r d).tx.k.toNat = tileCount s.cfg.par.mtu r d.length := by
    rw [txLoad_tx_k, tileCountReg, if_pos hk, BitVec.toNat_ofNat, Nat.mod_eq_of_lt hk]
  have hdt : (txLoad s a r d).tx.dtag.toNat < 2 ^ r.t := by
    rw [txLoad_tx_dtag, BitVec.toNat_ofNat]
    exact (Nat.mod_le _ _).trans_lt (Nat.mod_lt _ (Nat.two_pow_pos _))
  refine ⟨r, hr, hok, hmtu, hsv, hna, hkr, ?_, ?_, hle, heq, hdt⟩
  · exact hwl.trans (congrArg (· / r.ws) hkr.symm)
  · exact hwl.trans_lt hwm

/-! ### Every TX command -/

theorem exec_tx_onlyTx {i : Instr} {s t : State} (hi : isTx i = true) (h : exec i s = .next t) :
    OnlyTx s t := by
  rcases exec_tx_cases hi h with ⟨a, d, rfl⟩ | hc
  · exact execTxOutput_onlyTx h
  · exact hc.onlyTx

theorem exec_tx_keeps_txTimer {i : Instr} {s t : State} (hi : isTx i = true) (hs : TxTimerOk s)
    (h : exec i s = .next t) : TxTimerOk t := by
  rcases exec_tx_cases hi h with ⟨a, d, rfl⟩ | hc
  · exact execTxOutput_keeps_txTimer hs h
  · exact hc.timer hs

theorem exec_tx_keeps_txRegs {i : Instr} {s t : State} (hi : isTx i = true)
    (hb : TxBoundsOk s) (he : TxExchangeOk s)
    (h : exec i s = .next t) : TxBoundsOk t ∧ TxExchangeOk t := by
  rcases exec_tx_cases hi h with ⟨a, d, rfl⟩ | hc
  · exact ⟨execTxOutput_keeps_txBounds hb h, execTxOutput_keeps_txExchange he h⟩
  · exact ⟨hc.keeps_txBounds hb, hc.keeps_txExchange he⟩

/-! ### How the TX commands answer -/

/-- A command ends with a status, SUCCESS excepted. -/
def Answers (a : Answer) : Prop := ∃ u r, a = reply u r ∧ r.status ≠ .success

theorem answers_reply {u : State} {r : CmdResult} (h : r.status ≠ .success := by simp) :
    Answers (reply u r) := ⟨u, r, rfl, h⟩

theorem Answers.status_ne_success {a : Answer} {t : State} {r : CmdResult} (h : Answers a)
    (ha : a = .next t) (hr : t.result = some r) : r.status ≠ .success := by
  obtain ⟨u, r', rfl, hst⟩ := h
  obtain rfl := reply_next.1 ha
  rwa [← Option.some.inj hr]

@[simp] theorem ackWait_status (evs : List Event) : (ackWait evs).status = .ackHandled := rfl

@[simp] theorem ackIgnored_status (s : State) : (ackIgnored s).status = .ignored := rfl

theorem nonFinalAck_answers (s : State) (r : FragRule) (m : AckMsg) :
    Answers (nonFinalAck s r m) := by
  unfold nonFinalAck
  dsimp only
  split
  · exact answers_reply
  split
  · exact answers_reply
  · exact answers_reply

theorem micRound_answers (s : State) (r : FragRule) : Answers (micRound s r) := by
  unfold micRound
  split
  · split
    · exact answers_reply
    · exact answers_reply
  · exact answers_reply

theorem finalAck_answers (s : State) (r : FragRule) (m : AckMsg) : Answers (finalAck s r m) := by
  unfold finalAck
  dsimp only
  split
  · exact answers_reply
  split
  · exact answers_reply
  · exact micRound_answers s r

/-- An exchange that waits has a rule at TX_RULE (log 7). -/
abbrev TxRuled (s : State) : Prop := s.tx.state = .wait → txRule s ≠ none

theorem execTxAckInput_answers (d : List Byte) (s : State) :
    (¬ TxRuled s ∧ execTxAckInput d s = .fault .txRuleMissing) ∨
      Answers (execTxAckInput d s) := by
  unfold execTxAckInput
  split
  · exact .inr answers_reply
  split
  · exact .inr answers_reply
  rename_i hw
  split
  · rename_i hr
    exact .inl ⟨fun h => h (not_not.1 hw) hr, rfl⟩
  split
  · exact .inr answers_reply
  split
  · exact .inr (nonFinalAck_answers _ _ _)
  · exact .inr (finalAck_answers _ _ _)

theorem execTxTimerFire_answers (g : Word) (s : State) :
    (¬ TxRuled s ∧ execTxTimerFire g s = .fault .txRuleMissing) ∨
      Answers (execTxTimerFire g s) := by
  unfold execTxTimerFire
  split
  · exact .inr answers_reply
  split
  · exact .inr answers_reply
  rename_i hw
  split
  · split
    · rename_i hr
      exact .inl ⟨fun h => h (not_not.1 hw) hr, rfl⟩
    · exact .inr answers_reply
  · exact .inr answers_reply

/-- A TX command starts an exchange, misses its rule, or ends with a status that is not SUCCESS. -/
theorem exec_tx_answers {i : Instr} (hi : isTx i = true) (s : State) :
    (∃ a d, i = .txOutput a d) ∨ (¬ TxRuled s ∧ exec i s = .fault .txRuleMissing) ∨
      Answers (exec i s) := by
  cases i with
  | txOutput a d => exact .inl ⟨a, d, rfl⟩
  | txAckInput d => exact .inr (execTxAckInput_answers d s)
  | txTimerFire g => exact .inr (execTxTimerFire_answers g s)
  | txAbort => exact .inr (.inr answers_reply)
  | txQuery => exact .inr (.inr answers_reply)
  | _ => simp [isTx, opcodeOf] at hi

end Sys2Proof.Machine
end

section
/-!
Proofs of the family 10_state, the RX slots (spec/10_state.md R37, R38, R213): what RX_FRAG_INPUT
leaves in its slot is legal and keeps the slot's key, and a new connection's key is nobody else's.
-/

namespace Sys2Proof.Machine

open Sys2Proof.Safety

/-! ### How the RX commands answer -/

/-- The statuses of a fragment that is delivered to a slot and not ignored (R216 to R224). -/
def Evaluated (a : Answer) : Prop :=
  ∃ u r, a = reply u r ∧ r.status ∈ [Status.ongoing, .completed, .micIncorrect, .rxResourceFail]

theorem evaluated_reply {u : State} {r : CmdResult}
    (h : r.status ∈ [Status.ongoing, .completed, .micIncorrect, .rxResourceFail] := by simp) :
    Evaluated (reply u r) := ⟨u, r, rfl, h⟩

theorem Evaluated.answers {a : Answer} (h : Evaluated a) : Answers a := by
  obtain ⟨u, r, ha, hst⟩ := h
  exact ⟨u, r, ha, by rintro hs; simp [hs] at hst⟩

theorem windowEval_evaluated (r : FragRule) (i w : Nat) (evs : List Event) (s : State) :
    Evaluated (windowEval r i w evs s) := by
  unfold windowEval
  dsimp only
  split
  · exact evaluated_reply
  · exact evaluated_reply

theorem micDiscard_evaluated (i : Nat) (evs : List Event) (s : State) :
    Evaluated (micDiscard i evs s) := by
  unfold micDiscard
  dsimp only
  split
  · exact evaluated_reply
  · exact evaluated_reply

theorem finalEval_evaluated (r : FragRule) (i : Nat) (evs : List Event) (s : State) :
    Evaluated (finalEval r i evs s) := by
  unfold finalEval
  dsimp only
  split
  · exact evaluated_reply
  split
  · exact evaluated_reply
  split
  · exact evaluated_reply
  · exact micDiscard_evaluated _ _ _

theorem micFail_evaluated (i : Nat) (evs : List Event) (s : State) :
    Evaluated (micFail i evs s) := evaluated_reply

theorem noAckFinal_evaluated (r : FragRule) (i : Nat) (evs : List Event) (s : State) :
    Evaluated (noAckFinal r i evs s) := by
  unfold noAckFinal
  dsimp only
  generalize (if r.m = 0 then _ else _ : List Byte) = m
  split
  · exact micFail_evaluated _ _ _
  split
  · exact evaluated_reply
  · exact micFail_evaluated _ _ _

/-- Only a slot that has its All-1 ignores a fragment (R216, R217). -/
theorem rxDeliver_evaluated (f : Frag) (i : Nat) (evs : List Event) (s : State) :
    ((rxSlot s i).all1 = true ∧ rxDeliver f i evs s = reply s (slotResult .ignored i evs)) ∨
      Evaluated (rxDeliver f i evs s) := by
  unfold rxDeliver
  split
  · unfold rxRegular
    dsimp only
    split
    · rename_i h
      exact .inl ⟨h.2.1, rfl⟩
    split
    · exact .inr evaluated_reply
    split
    · exact .inr evaluated_reply
    split
    · split
      · exact .inr (finalEval_evaluated _ _ _ _)
      · exact .inr (windowEval_evaluated _ _ _ _ _)
    · exact .inr evaluated_reply
  · unfold rxAllOne
    dsimp only
    split
    · rename_i h
      exact .inl ⟨h.2.1, rfl⟩
    split
    · exact .inr (noAckFinal_evaluated _ _ _ _)
    · exact .inr (finalEval_evaluated _ _ _ _)

theorem rxDeliver_answers (f : Frag) (i : Nat) (evs : List Event) (s : State) :
    Answers (rxDeliver f i evs s) := by
  rcases rxDeliver_evaluated f i evs s with ⟨-, h⟩ | h
  · rw [h]
    exact answers_reply
  · exact h.answers

theorem rxOpen_answers (f : Frag) (evs : List Event) (s : State) : Answers (rxOpen f evs s) := by
  unfold rxOpen
  split
  · exact answers_reply
  · exact rxDeliver_answers _ _ _ _

theorem rxAccept_answers (f : Frag) (s : State) : Answers (rxAccept f s) := by
  unfold rxAccept
  split
  · unfold rxCreate
    split
    · exact answers_reply
    split
    · exact answers_reply
    · exact rxOpen_answers _ _ _
  split
  · split
    · exact answers_reply
    unfold rxSupersede
    split
    · exact answers_reply
    · exact rxOpen_answers _ _ _
  · exact rxDeliver_answers _ _ _ _

theorem parseFrag_error {cfg : Config} {b : Bits} {st : Status}
    (h : parseFrag cfg b = .error st) : st = .errLookup ∨ st = .errConfig := by
  unfold parseFrag at h
  split at h
  · exact .inl (Except.error.inj h).symm
  split at h
  · exact .inl (Except.error.inj h).symm
  split at h
  · exact .inr (Except.error.inj h).symm
  split at h <;> cases h

theorem execRxFragInput_answers (d : List Byte) (s : State) : Answers (execRxFragInput d s) := by
  unfold execRxFragInput
  split
  · rename_i h
    exact answers_reply (by rcases parseFrag_error h with rfl | rfl <;> simp)
  · exact answers_reply
  · exact rxAccept_answers _ _

theorem execRxTimerFire_answers (a : Byte) (g : Word) (s : State) :
    Answers (execRxTimerFire a g s) := by
  unfold execRxTimerFire
  split
  · exact answers_reply
  split
  · exact answers_reply
  · exact answers_reply (by rw [plain_status]; split <;> simp)

theorem exec_rx_answers {i : Instr} (hi : isRx i = true) (s : State) : Answers (exec i s) := by
  cases i with
  | rxFragInput d => exact execRxFragInput_answers d s
  | rxTimerFire a g => exact execRxTimerFire_answers a g s
  | rxAbort a =>
    simp only [exec, execRxAbort]
    split
    · exact answers_reply
    · exact answers_reply
  | rxQuery a =>
    simp only [exec, execRxQuery]
    split
    · exact answers_reply
    · exact answers_reply
  | _ => simp [isRx, opcodeOf] at hi

/-! ### One slot -/

/-- A slot holds legal values (R37, R38). -/
abbrev SlotOk (cfg : Config) (x : RxSlot) : Prop :=
  SlotStoresOk cfg.par x ∧ SlotTimerOk x ∧ SlotRuleOk cfg x

theorem slotOk_released (cfg : Config) (x : RxSlot) : SlotOk cfg x.released :=
  ⟨⟨Store.wf_nil _, Store.wf_nil _, by simp, by simp, Nat.zero_le _⟩,
    ⟨by simp, fun _ => rfl⟩, fun h => absurd rfl h⟩

/-- A live slot is legal when it is armed and its stores and its rule are legal (R37, R230). -/
theorem slotOk_of_live {cfg : Config} {x : RxSlot} (hs : SlotStoresOk cfg.par x)
    (hst : x.state ≠ .free) (ha : x.armed = true) (hr : SlotRuleOk cfg x) : SlotOk cfg x :=
  ⟨hs, ⟨by simp [hst, ha], fun h => absurd h hst⟩, hr⟩

theorem SlotOk.completed {cfg : Config} {x : RxSlot} (h : SlotOk cfg x) (hst : x.state ≠ .free) :
    SlotOk cfg x.completed := by
  obtain ⟨hs, ⟨ha, -⟩, hr⟩ := h
  exact slotOk_of_live hs (by simp) (ha.1 hst) (fun _ => hr hst)

theorem SlotOk.discarded {cfg : Config} {x : RxSlot} (h : SlotOk cfg x) (hst : x.state ≠ .free) :
    SlotOk cfg x.discarded := by
  obtain ⟨⟨-, -, -, -, hn⟩, ⟨ha, -⟩, hr⟩ := h
  refine slotOk_of_live ⟨Store.wf_nil _, Store.wf_nil _, by simp, by simp, hn⟩ hst (ha.1 hst) ?_
  intro _
  obtain ⟨r, hr, hok, hsv, hdt, -⟩ := hr hst
  exact ⟨r, hr, hok, hsv, hdt, Nat.two_pow_pos _⟩

theorem slotStoresOk_store {p : Params} {x : RxSlot} {n : Nat} {t : Bits} (h : SlotStoresOk p x)
    (hn : n < p.rxMaxSlots) (ht : t.length ≤ p.rxTileBits) : SlotStoresOk p (x.store n t) := by
  obtain ⟨hr, htl, hrin, htin, hna⟩ := h
  refine ⟨Store.wf_write _ hr _ _, Store.wf_write _ htl _ _, fun e he => ?_, fun e he => ?_, hna⟩
  · rcases Store.mem_write _ he with rfl | he
    · exact hn
    · exact hrin e he
  · rcases Store.mem_write _ he with rfl | he
    · exact ⟨hn, ht⟩
    · exact htin e he

/-- RX_NAPPEND is the position the tile was stored at, plus 1, so it stays within RX_MAX_SLOTS (R216). -/
theorem slotStoresOk_accept {p : Params} {x : RxSlot} {r : FragRule} {w q : Nat} {t : Bits}
    (h : SlotStoresOk p x) (hn : tilePos r x w q < p.rxMaxSlots)
    (ht : t.length ≤ p.rxTileBits) : SlotStoresOk p (x.accept r (tilePos r x w q) t) := by
  have hstore := slotStoresOk_store h hn ht
  rcases RxSlot.accept_cases x r (tilePos r x w q) t with ⟨h0, ha⟩ | ⟨-, -, ha⟩ | ⟨-, -, ha⟩
  · rw [tilePos, if_pos h0] at hn
    obtain ⟨hr, htl, hrin, htin, -⟩ := hstore
    rw [ha]
    refine ⟨hr, htl, hrin, htin, ?_⟩
    rw [BitVec.toNat_add]
    exact (Nat.mod_le _ _).trans hn
  · rwa [ha]
  · rwa [ha]

/-- Accepting a tile writes the stores of the slot and its counter (R216). -/
theorem RxSlot.accept_eq (x : RxSlot) (r : FragRule) (p : Nat) (t : Bits) :
    x.accept r p t = { x with
      rcvd := (x.accept r p t).rcvd
      tile := (x.accept r p t).tile
      nAppend := (x.accept r p t).nAppend } := by
  rcases RxSlot.accept_cases x r p t with ⟨-, h⟩ | ⟨-, -, h⟩ | ⟨-, -, h⟩ <;> rw [h] <;> rfl

@[simp] theorem RxSlot.accept_state (x : RxSlot) (r : FragRule) (p : Nat) (t : Bits) :
    (x.accept r p t).state = x.state := by rw [RxSlot.accept_eq]

@[simp] theorem RxSlot.accept_rule (x : RxSlot) (r : FragRule) (p : Nat) (t : Bits) :
    (x.accept r p t).rule = x.rule := by rw [RxSlot.accept_eq]

@[simp] theorem RxSlot.accept_dtag (x : RxSlot) (r : FragRule) (p : Nat) (t : Bits) :
    (x.accept r p t).dtag = x.dtag := by rw [RxSlot.accept_eq]

@[simp] theorem RxSlot.accept_wl (x : RxSlot) (r : FragRule) (p : Nat) (t : Bits) :
    (x.accept r p t).wl = x.wl := by rw [RxSlot.accept_eq]

@[simp] theorem RxSlot.afterFrag_state (x : RxSlot) (f : Frag) :
    (x.afterFrag f).state = x.state := by
  unfold RxSlot.afterFrag
  split <;> simp

@[simp] theorem RxSlot.afterFrag_rule (x : RxSlot) (f : Frag) :
    (x.afterFrag f).rule = x.rule := by
  unfold RxSlot.afterFrag
  split <;> simp

@[simp] theorem RxSlot.afterFrag_dtag (x : RxSlot) (f : Frag) :
    (x.afterFrag f).dtag = x.dtag := by
  unfold RxSlot.afterFrag
  split <;> simp

@[simp] theorem RxSlot.afterFrag_armed (x : RxSlot) (f : Frag) :
    (x.afterFrag f).armed = true := by
  unfold RxSlot.afterFrag
  split <;> rfl

/-! ### A fragment on its slot -/

/-- A fragment's rule, index, DTAG and window are those of a rule that serves RX (R212). -/
structure FragOk (cfg : Config) (f : Frag) : Prop where
  rule : cfg.ctx.frag[f.ri]? = some f.rule
  ok : fragRuleOk f.rule
  serves : serves f.rule (otherDir cfg.par.txDir)
  dt : f.dt < 2 ^ f.rule.t
  w : f.w < 2 ^ f.rule.m

theorem fragOk_of_parseFrag {cfg : Config} {b : Bits} {f : Frag}
    (h : parseFrag cfg b = .ok (some f)) : FragOk cfg f := by
  obtain ⟨hr, ⟨hsv, -, -⟩, hok, -, hdt, hw, -⟩ := parseFrag_some h
  exact ⟨hr, hok, hsv, hdt ▸ valAt_lt _ _ _, hw ▸ valAt_lt _ _ _⟩

theorem FragOk.ri_lt {cfg : Config} {f : Frag} (h : FragOk cfg f) (hc : ctxOk cfg.ctx) :
    f.ri < 2 ^ 8 := by
  obtain ⟨-, -, hfrag, -, -, -⟩ := hc
  exact (List.getElem?_eq_some_iff.1 h.rule).1.trans_le hfrag

theorem FragOk.dt_lt {cfg : Config} {f : Frag} (h : FragOk cfg f) : f.dt < 2 ^ 8 := by
  obtain ⟨-, -, -, -, -, -, -, ht, -⟩ := h.ok
  exact h.dt.trans_le (Nat.pow_le_pow_right (by omega) ht)

/-- A slot that may take the fragment: its connection in RECV, perhaps just opened and not yet armed
(R211, R214). -/
structure Receives (cfg : Config) (f : Frag) (x : RxSlot) : Prop where
  stores : SlotStoresOk cfg.par x
  state : x.state = .recv
  rule : x.rule.toNat = f.ri
  dtag : x.dtag.toNat = f.dt
  wl : x.wl.toNat < 2 ^ f.rule.m

theorem receives_of_slotOk {cfg : Config} {f : Frag} {x : RxSlot} (hf : FragOk cfg f)
    (hx : SlotOk cfg x) (hst : x.state = .recv) (hc : isConn f.ri f.dt x) : Receives cfg f x := by
  obtain ⟨hs, -, hr⟩ := hx
  obtain ⟨hne, hri, hdt⟩ := hc
  obtain ⟨r, hr, -, -, -, hwl⟩ := hr hne
  rw [hri, hf.rule] at hr
  obtain rfl : f.rule = r := Option.some.inj hr
  exact ⟨hs, hst, hri, hdt, hwl⟩

/-- A slot just opened is the released one with its state and key (R214). -/
theorem receives_opened {cfg : Config} {f : Frag} {x : RxSlot} (hf : FragOk cfg f)
    (hri : f.ri < 2 ^ 8) (hx : SlotOk cfg x) (hst : x.state = .free) :
    Receives cfg f (x.opened f.ri f.dt) := by
  obtain ⟨hs, ⟨-, hrel⟩, -⟩ := hx
  refine ⟨hs, rfl, ?_, ?_, ?_⟩
  · rw [RxSlot.opened_rule, BitVec.toNat_ofNat, Nat.mod_eq_of_lt hri]
  · rw [RxSlot.opened_dtag, BitVec.toNat_ofNat, Nat.mod_eq_of_lt hf.dt_lt]
  · rw [RxSlot.opened_wl, hrel hst]
    exact Nat.two_pow_pos _

theorem Receives.afterFrag_slotOk {s : State} {i : Nat} {f : Frag}
    (hf : FragOk s.cfg f) (hx : Receives s.cfg f (rxSlot s i)) (hfit : fragFits s i f) :
    SlotOk s.cfg ((rxSlot s i).afterFrag f) := by
  have hwl : ((rxSlot s i).afterFrag f).wl.toNat < 2 ^ f.rule.m := by
    unfold RxSlot.afterFrag
    split
    · simpa using hx.wl
    · simpa using (Nat.mod_le _ _).trans_lt hf.w
  refine slotOk_of_live ?_ (by simp [hx.state]) (by simp) (fun _ => ⟨f.rule, ?_, hf.ok,
    hf.serves, ?_, hwl⟩)
  · unfold RxSlot.afterFrag
    unfold fragFits at hfit
    split
    · rename_i q t hb
      rw [hb] at hfit
      obtain ⟨hpos, hlen⟩ := not_or.1 hfit
      exact slotStoresOk_accept hx.stores (Nat.lt_of_not_le hpos) (Nat.le_of_not_lt hlen)
    · exact hx.stores
  · rw [RxSlot.afterFrag_rule, hx.rule, hf.rule]
    rfl
  · rw [RxSlot.afterFrag_dtag, hx.dtag]
    exact hf.dt

/-- Slot `y` keeps the key of slot `x`, or is FREE. -/
def KeepsKey (x y : RxSlot) : Prop := y.state = .free ∨ (y.rule = x.rule ∧ y.dtag = x.dtag)

/-- A fragment delivered (R211) is ignored, or leaves a legal slot of the same connection, or one
released. -/
theorem rxDeliver_slot {f : Frag} {i : Nat} {evs : List Event} {s t : State}
    (hf : FragOk s.cfg f) (hi : i < s.rx.length)
    (hx : Receives s.cfg f (rxSlot s i)) (h : rxDeliver f i evs s = .next t) :
    ((rxSlot s i).all1 = true ∧ ∃ r, t = withResult s r) ∨
    ∃ y r, t = withResult (setRx s i y) r ∧ SlotOk s.cfg y ∧ KeepsKey (rxSlot s i) y := by
  rcases rxDeliver_evaluated f i evs s with ⟨hall1, he⟩ | ⟨u, res, he, hst⟩
  · exact .inl ⟨hall1, _, (reply_next.1 (he.symm.trans h)).symm⟩
  have ht := reply_next.1 (he.symm.trans h)
  rcases rxDeliver_cases hi h with hig | hrel | ⟨hfit, y, r, l, hy, -, -, hcases⟩
  · have hres : res = slotResult .ignored i evs := by
      simpa using congrArg State.result (ht.trans hig)
    simp [hres] at hst
  · exact .inr ⟨_, _, hrel, slotOk_released _ _, .inl rfl⟩
  · rw [setRx_setRx] at hy
    have hok := hx.afterFrag_slotOk hf hfit
    have hlive : ((rxSlot s i).afterFrag f).state ≠ .free := by simp [hx.state]
    refine .inr ⟨y, r, hy, ?_⟩
    rcases hcases with ⟨hmem, -⟩ | ⟨rfl, -⟩
    · simp only [List.mem_cons, List.not_mem_nil, or_false] at hmem
      rcases hmem with rfl | rfl | rfl
      · exact ⟨hok, .inr (by simp)⟩
      · exact ⟨hok.completed hlive, .inr (by simp)⟩
      · exact ⟨hok.discarded hlive, .inr (by simp)⟩
    · exact ⟨slotOk_released _ _, .inl rfl⟩

/-! ### All slots -/

theorem rxSlotsOk_setRx {s : State} {i : Nat} {y : RxSlot} (h : RxSlotsOk s)
    (hy : SlotOk s.cfg y) : RxSlotsOk (setRx s i y) := by
  obtain ⟨hlen, hall⟩ := h
  refine ⟨by simpa using hlen, fun x hx => ?_⟩
  rcases mem_setRx hx with rfl | hx
  · exact hy
  · exact hall x hx

theorem slotOk_rxSlot {s : State} {i : Nat} (h : RxSlotsOk s) (hi : i < s.rx.length) :
    SlotOk s.cfg (rxSlot s i) := h.2 _ (rxSlot_mem hi)

theorem keysDiffer_comm {x y : RxSlot} (h : KeysDiffer x y) : KeysDiffer y x := by
  rcases h with h | h | h
  · exact .inr (.inl h)
  · exact .inl h
  · exact .inr (.inr fun hk => h ⟨hk.1.symm, hk.2.symm⟩)

theorem rxKeysOk_iff {s : State} : RxKeysOk s ↔
    ∀ j k, j < s.rx.length → k < s.rx.length → j ≠ k → KeysDiffer (rxSlot s j) (rxSlot s k) := by
  rw [RxKeysOk, List.pairwise_iff_getElem]
  constructor
  · intro h j k hj hk hne
    rw [rxSlot_eq_getElem hj, rxSlot_eq_getElem hk]
    rcases Nat.lt_or_gt_of_ne hne with hlt | hlt
    · exact h j k hj hk hlt
    · exact keysDiffer_comm (h k j hk hj hlt)
  · intro h j k hj hk hlt
    have := h j k hj hk (Nat.ne_of_lt hlt)
    rwa [rxSlot_eq_getElem hj, rxSlot_eq_getElem hk] at this

theorem rxKeysOk_setRx {s : State} {i : Nat} {y : RxSlot} (h : RxKeysOk s)
    (hy : ∀ j < s.rx.length, j ≠ i → KeysDiffer y (rxSlot s j)) : RxKeysOk (setRx s i y) := by
  rw [rxKeysOk_iff] at h ⊢
  intro j k hj hk hne
  rw [setRx_length] at hj hk
  by_cases hji : j = i
  · subst hji
    rw [rxSlot_setRx_self _ hj, rxSlot_setRx_ne _ hne.symm]
    exact hy k hk hne.symm
  · rw [rxSlot_setRx_ne _ hji]
    by_cases hki : k = i
    · subst hki
      rw [rxSlot_setRx_self _ hk]
      exact keysDiffer_comm (hy j hj hne)
    · rw [rxSlot_setRx_ne _ hki]
      exact h j k hj hk hne

/-- A slot that keeps its key stays apart from what it was apart from. -/
theorem KeepsKey.keysDiffer {x y z : RxSlot} (hy : KeepsKey x y) (hx : x.state ≠ .free)
    (h : KeysDiffer x z) : KeysDiffer y z := by
  rcases hy with hy | ⟨hr, hd⟩
  · exact .inl hy
  · rcases h with h | h | h
    · exact absurd h hx
    · exact .inr (.inl h)
    · exact .inr (.inr (by rwa [hr, hd]))

/-- At most one slot is the connection of a rule and DTAG (R213). -/
theorem isConn_unique {s : State} (h : RxKeysOk s) {ri dt i j : Nat} (hi : i < s.rx.length)
    (hj : j < s.rx.length) (hci : isConn ri dt (rxSlot s i)) (hcj : isConn ri dt (rxSlot s j)) :
    i = j := by
  by_contra hne
  obtain ⟨hi1, hi2, hi3⟩ := hci
  obtain ⟨hj1, hj2, hj3⟩ := hcj
  rcases rxKeysOk_iff.1 h i j hi hj hne with hd | hd | hd
  · exact hi1 hd
  · exact hj1 hd
  · exact hd ⟨BitVec.eq_of_toNat_eq (hi2.trans hj2.symm), BitVec.eq_of_toNat_eq (hi3.trans hj3.symm)⟩

theorem findConn_none_iff {s : State} {ri dt : Nat} :
    findConn s ri dt = none ↔ ∀ j < s.rx.length, ¬ isConn ri dt (rxSlot s j) := by
  rw [findConn_none]
  constructor
  · exact fun h j hj => h _ (rxSlot_mem hj)
  · intro h x hx
    obtain ⟨j, hj, rfl⟩ := List.getElem_of_mem hx
    rw [← rxSlot_eq_getElem hj]
    exact h j hj

/-- Once its only slot is released, a connection is not found (R213, R215). -/
theorem findConn_releaseRx {s : State} (h : RxKeysOk s) {ri dt i : Nat}
    (hf : findConn s ri dt = some i) : findConn (releaseRx s i) ri dt = none := by
  obtain ⟨hi, hc, -⟩ := findConn_some hf
  rw [findConn_none_iff]
  intro j hj hcj
  rw [releaseRx, setRx_length] at hj
  by_cases hji : j = i
  · subst hji
    rw [releaseRx, rxSlot_setRx_self _ hj] at hcj
    exact hcj.1 rfl
  · rw [releaseRx, rxSlot_setRx_ne _ hji] at hcj
    exact hji (isConn_unique h hj hi hcj hc)

theorem isConn_opened (x : RxSlot) {ri dt : Nat} (hri : ri < 2 ^ 8) (hdt : dt < 2 ^ 8) :
    isConn ri dt (x.opened ri dt) := by
  refine ⟨by simp, ?_, ?_⟩
  · rw [RxSlot.opened_rule, BitVec.toNat_ofNat, Nat.mod_eq_of_lt hri]
  · rw [RxSlot.opened_dtag, BitVec.toNat_ofNat, Nat.mod_eq_of_lt hdt]

theorem keysDiffer_of_not_isConn {ri dt : Nat} {y z : RxSlot} (hy : isConn ri dt y)
    (hz : ¬ isConn ri dt z) : KeysDiffer y z := by
  obtain ⟨-, hri, hdt⟩ := hy
  by_cases hst : z.state = .free
  · exact .inr (.inl hst)
  · refine .inr (.inr ?_)
    rintro ⟨hr, hd⟩
    exact hz ⟨hst, hr ▸ hri, hd ▸ hdt⟩

/-! ### The RX commands -/

/-- The slots are legal and no two live ones share a key (R37, R213). -/
abbrev RxOk (s : State) : Prop := RxSlotsOk s ∧ RxKeysOk s

theorem rxOk_releaseRx {s : State} (h : RxOk s) (i : Nat) : RxOk (releaseRx s i) :=
  ⟨rxSlotsOk_setRx h.1 (slotOk_released _ _), rxKeysOk_setRx h.2 (fun _ _ _ => .inl rfl)⟩

/-- A fragment on the slot of its connection keeps the slots legal. -/
theorem rxDeliver_keeps_rxOk {f : Frag} {i : Nat} {evs : List Event} {s t : State}
    (hf : FragOk s.cfg f) (hs : RxOk s) (hi : i < s.rx.length)
    (hst : (rxSlot s i).state = .recv) (hc : isConn f.ri f.dt (rxSlot s i))
    (h : rxDeliver f i evs s = .next t) : RxOk t := by
  have hx := receives_of_slotOk hf (slotOk_rxSlot hs.1 hi) hst hc
  rcases rxDeliver_slot hf hi hx h with ⟨-, r, rfl⟩ | ⟨y, r, rfl, hy, hk⟩
  · exact hs
  · exact ⟨rxSlotsOk_setRx hs.1 hy, rxKeysOk_setRx hs.2 fun j hj hne =>
      hk.keysDiffer hc.1 (rxKeysOk_iff.1 hs.2 i j hi hj hne.symm)⟩

/-- A fragment of no live connection, on the FREE slot opened for it, keeps the slots legal: a slot
just opened ignores nothing, so its timer is armed (R214). -/
theorem rxDeliver_opened_keeps_rxOk {f : Frag} {i : Nat} {evs : List Event} {s t : State}
    (hcfg : CfgOk s) (hf : FragOk s.cfg f) (hs : RxOk s) (hnone : findConn s f.ri f.dt = none)
    (hfree : findFree s = some i)
    (h : rxDeliver f i evs (setRx s i ((rxSlot s i).opened f.ri f.dt)) = .next t) : RxOk t := by
  obtain ⟨hi, hst, -⟩ := findFree_some hfree
  have hri := hf.ri_lt hcfg.2
  have hslot := rxSlot_setRx_self (s := s) ((rxSlot s i).opened f.ri f.dt) hi
  have hx := receives_opened hf hri (slotOk_rxSlot hs.1 hi) hst
  have hfresh : (rxSlot s i).all1 = false := by
    obtain ⟨-, ⟨-, hrel⟩, -⟩ := slotOk_rxSlot hs.1 hi
    rw [hrel hst]
    rfl
  have hd := rxDeliver_slot (s := setRx s i ((rxSlot s i).opened f.ri f.dt)) hf
    (by simpa using hi) (by rwa [hslot]) h
  rw [hslot] at hd
  rcases hd with ⟨hall1, -⟩ | ⟨y, r, rfl, hy, hk⟩
  · simp [hfresh] at hall1
  · rw [setRx_setRx]
    exact ⟨rxSlotsOk_setRx hs.1 hy, rxKeysOk_setRx hs.2 fun j hj _ => hk.keysDiffer (by simp)
      (keysDiffer_of_not_isConn (isConn_opened _ hri hf.dt_lt) (findConn_none_iff.1 hnone j hj))⟩

theorem execRxFragInput_keeps_rxOk {d : List Byte} {s t : State} (hcfg : CfgOk s) (hs : RxOk s)
    (h : execRxFragInput d s = .next t) : RxOk t := by
  rcases execRxFragInput_cases h with ⟨st, rfl⟩ | ⟨f, hparse, hcases⟩
  · exact hs
  have hf := fragOk_of_parseFrag hparse
  rcases hcases with ⟨i, -, -, -, rfl⟩ | ⟨i, hc, hst, h⟩ | ⟨i, hc, hfree, -, h⟩ |
    ⟨i, j, hc, -, -, hfree, -, h⟩
  · exact hs
  · obtain ⟨hi, hconn, -⟩ := findConn_some hc
    exact rxDeliver_keeps_rxOk hf hs hi hst hconn h
  · exact rxDeliver_opened_keeps_rxOk hcfg hf hs hc hfree h
  · exact rxDeliver_opened_keeps_rxOk (s := releaseRx s j) hcfg hf (rxOk_releaseRx hs j)
      (findConn_releaseRx hs.2 hc) hfree h

/-- RX_TIMER_FIRE, RX_ABORT and RX_QUERY leave the slots, or release one (R230 to R232). -/
theorem exec_rx_cases {i : Instr} {s t : State} (hi : isRx i = true) (h : exec i s = .next t) :
    (∃ d, i = .rxFragInput d) ∨
    ∃ r, t = withResult s r ∨ ∃ j, t = withResult (releaseRx s j) r := by
  cases i with
  | rxFragInput d => exact .inl ⟨d, rfl⟩
  | rxTimerFire a g =>
    simp only [exec, execRxTimerFire] at h
    split at h
    · exact .inr ⟨_, .inl (raise_next.1 h).symm⟩
    split at h
    · exact .inr ⟨_, .inl (reply_next.1 h).symm⟩
    · exact .inr ⟨_, .inr ⟨_, (reply_next.1 h).symm⟩⟩
  | rxAbort a =>
    simp only [exec, execRxAbort] at h
    split at h
    · exact .inr ⟨_, .inl (raise_next.1 h).symm⟩
    · exact .inr ⟨_, .inr ⟨_, (reply_next.1 h).symm⟩⟩
  | rxQuery a =>
    simp only [exec, execRxQuery] at h
    split at h
    · exact .inr ⟨_, .inl (raise_next.1 h).symm⟩
    · exact .inr ⟨_, .inl (reply_next.1 h).symm⟩
  | _ => simp [isRx, opcodeOf] at hi

theorem exec_rx_keeps_rxOk {i : Instr} {s t : State} (hi : isRx i = true) (hcfg : CfgOk s)
    (hs : RxOk s) (h : exec i s = .next t) : RxOk t := by
  rcases exec_rx_cases hi h with ⟨d, rfl⟩ | ⟨r, rfl | ⟨j, rfl⟩⟩
  · exact execRxFragInput_keeps_rxOk hcfg hs h
  · exact hs
  · exact rxOk_releaseRx hs j

theorem rxOk_resetWith (cfg : Config) : RxOk (State.resetWith cfg) := by
  refine ⟨⟨List.length_replicate .., fun x hx => ?_⟩, List.pairwise_replicate.2 (.inr (.inl rfl))⟩
  rw [List.eq_of_mem_replicate hx]
  exact slotOk_released cfg RxSlot.reset

/-! ### Frames -/

/-- The slots change, not their number, and nothing else but the result. -/
abbrev RxFrame (s t : State) : Prop := OnlyRx s t ∧ t.rx.length = s.rx.length

theorem rxFrame_setRx (s : State) (i : Nat) (y : RxSlot) (r : CmdResult) :
    RxFrame s (withResult (setRx s i y) r) := ⟨rfl, setRx_length s i y⟩

theorem RxFrame.trans_setRx {s t : State} {i : Nat} {y : RxSlot} (h : RxFrame (setRx s i y) t) :
    RxFrame s t := ⟨h.1, h.2.trans (setRx_length s i y)⟩

theorem rxDeliver_frame {f : Frag} {i : Nat} {evs : List Event} {s t : State}
    (hi : i < s.rx.length) (h : rxDeliver f i evs s = .next t) : RxFrame s t := by
  rcases rxDeliver_cases hi h with rfl | rfl | ⟨-, y, r, l, rfl, -⟩
  · exact ⟨rfl, rfl⟩
  · exact rxFrame_setRx s i _ _
  · exact (rxFrame_setRx _ i y r).trans_setRx

theorem execRxFragInput_frame {d : List Byte} {s t : State} (h : execRxFragInput d s = .next t) :
    RxFrame s t := by
  rcases execRxFragInput_cases h with ⟨st, rfl⟩ | ⟨f, -, ⟨i, -, -, -, rfl⟩ | ⟨i, hc, -, h⟩ |
    ⟨i, -, hfree, -, h⟩ | ⟨i, j, -, -, -, hfree, -, h⟩⟩
  · exact ⟨rfl, rfl⟩
  · exact ⟨rfl, rfl⟩
  · exact rxDeliver_frame (findConn_some hc).1 h
  · have hi := (findFree_some hfree).1
    exact (rxDeliver_frame (by simpa using hi) h).trans_setRx
  · have hi := (findFree_some hfree).1
    exact (rxDeliver_frame (by simpa using hi) h).trans_setRx.trans_setRx

theorem exec_rx_frame {i : Instr} {s t : State} (hi : isRx i = true) (h : exec i s = .next t) :
    RxFrame s t := by
  rcases exec_rx_cases hi h with ⟨d, rfl⟩ | ⟨r, rfl | ⟨j, rfl⟩⟩
  · exact execRxFragInput_frame h
  · exact ⟨rfl, rfl⟩
  · exact rxFrame_setRx s j _ r

end Sys2Proof.Machine
end

section
/-!
Proofs of the family 10_state, independence (spec/10_state.md R39): a command's answer does not depend
on the state of the other families. Each family's commands commute with an overwriting of it.
-/

namespace Sys2Proof.Machine

open Sys2Proof.Safety

/-- An answer with its next state, if it has one, changed by `φ`. -/
def mapNext (φ : State → State) : Answer → Answer
  | .next s => .next (φ s)
  | .fault r => .fault r
  | .refused r => .refused r

theorem mapNext_ite (φ : State → State) (p : Prop) [Decidable p] (a b : Answer) :
    mapNext φ (if p then a else b) = if p then mapNext φ a else mapNext φ b := apply_ite _ _ _ _

/-! ### The codec commands -/

/-- The TX registers, DTAG_NEXT and the RX slots overwritten: all a codec command does not read. -/
def besideCodec (x : TxConn) (n : Byte) (l : List RxSlot) (s : State) : State :=
  { s with tx := x, dtagNext := n, rx := l }

section
variable (x : TxConn) (n : Byte) (l : List RxSlot) (s : State)

@[simp] theorem fdCheck_besideCodec (a b : Byte) :
    fdCheck (besideCodec x n l s) a b = fdCheck s a b := rfl

theorem execFdMatch_besideCodec (a b : Byte) :
    execFdMatch a b (besideCodec x n l s) = mapNext (besideCodec x n l) (execFdMatch a b s) := by
  simp only [execFdMatch, fdCheck_besideCodec]
  cases fdCheck s a b with
  | error st => rfl
  | ok f => simp only [mapNext_ite]; rfl

theorem execFdEncode_besideCodec (a b : Byte) :
    execFdEncode a b (besideCodec x n l s) = mapNext (besideCodec x n l) (execFdEncode a b s) := by
  simp only [execFdEncode, fdCheck_besideCodec]
  cases fdCheck s a b with
  | error st => rfl
  | ok f =>
    have hfv : (besideCodec x n l s).cod.fv = s.cod.fv := rfl
    simp only [hfv, mapNext_ite]
    cases residueOf f s.cod.fv with
    | error st => rfl
    | ok bs => simp only [mapNext_ite]; rfl

theorem execFdDecode_besideCodec (a b : Byte) :
    execFdDecode a b (besideCodec x n l s) = mapNext (besideCodec x n l) (execFdDecode a b s) := by
  simp only [execFdDecode, fdCheck_besideCodec]
  cases fdCheck s a b with
  | error st => rfl
  | ok f => simp only [mapNext_ite]; rfl

theorem execRidWrite_besideCodec (a b : Byte) :
    execRidWrite a b (besideCodec x n l s) = mapNext (besideCodec x n l) (execRidWrite a b s) := by
  have hcfg : (besideCodec x n l s).cfg = s.cfg := rfl
  simp only [execRidWrite, hcfg, mapNext_ite]
  cases ruleAt s.cfg.ctx a b with
  | none => rfl
  | some r => simp only [mapNext_ite]; rfl

theorem execRidLookup_besideCodec (b : Byte) :
    execRidLookup b (besideCodec x n l s) = mapNext (besideCodec x n l) (execRidLookup b s) := by
  have hfind : (candidates (besideCodec x n l s).cfg.ctx b).find?
      (fun c => decide (ridAtPos (besideCodec x n l s) c.rid)) =
      (candidates s.cfg.ctx b).find? (fun c => decide (ridAtPos s c.rid)) := rfl
  simp only [execRidLookup, hfind, mapNext_ite]
  cases (candidates s.cfg.ctx b).find? (fun c => decide (ridAtPos s c.rid)) with
  | none => rfl
  | some c => rfl

theorem exec_besideCodec {i : Instr} (hi : isCodec i = true) :
    exec i (besideCodec x n l s) = mapNext (besideCodec x n l) (exec i s) := by
  cases i with
  | cbLoad d => simp only [exec, execCbLoad, mapNext_ite]; rfl
  | cbClear => rfl
  | cbSeek p => simp only [exec, execCbSeek, mapNext_ite]; rfl
  | cbWrite a v => simp only [exec, execCbWrite, mapNext_ite]; rfl
  | cbRead a => simp only [exec, execCbRead, mapNext_ite]; rfl
  | cbUnload => rfl
  | cbAppend d => simp only [exec, execCbAppend, mapNext_ite]; rfl
  | cbTail => rfl
  | fvLoad d => simp only [exec, execFvLoad, mapNext_ite]; rfl
  | fvStore a => simp only [exec, execFvStore, mapNext_ite]; rfl
  | fdMatch a b => exact execFdMatch_besideCodec x n l s a b
  | fdEncode a b => exact execFdEncode_besideCodec x n l s a b
  | fdDecode a b => exact execFdDecode_besideCodec x n l s a b
  | ridWrite a b => exact execRidWrite_besideCodec x n l s a b
  | ridLookup b => exact execRidLookup_besideCodec x n l s b
  | _ => simp [isCodec, opcodeOf] at hi

end

/-! ### The TX commands -/

/-- The codec datapath and the RX slots overwritten, and DTAG_NEXT changed by `g`: what a TX command
does not read, TX_OUTPUT and its DTAG_NEXT excepted. -/
def besideTx (c : Codec) (g : Byte → Byte) (l : List RxSlot) (s : State) : State :=
  { s with cod := c, dtagNext := g s.dtagNext, rx := l }

section
variable (c : Codec) (g : Byte → Byte) (l : List RxSlot) (s : State)

theorem txLaunch_besideTx (r : FragRule) :
    txLaunch r (besideTx c g l s) = mapNext (besideTx c g l) (txLaunch r s) := by
  simp only [txLaunch, mapNext_ite]; rfl

theorem execTxOutput_besideTx (a : Byte) (d : List Byte) :
    execTxOutput a d (besideTx c id l s) = mapNext (besideTx c id l) (execTxOutput a d s) := by
  have hcfg : (besideTx c id l s).cfg = s.cfg := rfl
  simp only [execTxOutput, hcfg, mapNext_ite]
  cases s.cfg.ctx.frag[a.toNat]? with
  | none => rfl
  | some r => simp only [mapNext_ite, ← txLaunch_besideTx]; rfl

theorem nonFinalAck_besideTx (r : FragRule) (m : AckMsg) :
    nonFinalAck (besideTx c g l s) r m = mapNext (besideTx c g l) (nonFinalAck s r m) := by
  simp only [nonFinalAck, mapNext_ite]; rfl

theorem micRound_besideTx (r : FragRule) :
    micRound (besideTx c g l s) r = mapNext (besideTx c g l) (micRound s r) := by
  simp only [micRound, mapNext_ite]; rfl

theorem finalAck_besideTx (r : FragRule) (m : AckMsg) :
    finalAck (besideTx c g l s) r m = mapNext (besideTx c g l) (finalAck s r m) := by
  simp only [finalAck, mapNext_ite, ← micRound_besideTx]; rfl

@[simp] theorem txRule_besideTx : txRule (besideTx c g l s) = txRule s := rfl

theorem execTxAckInput_besideTx (d : List Byte) :
    execTxAckInput d (besideTx c g l s) = mapNext (besideTx c g l) (execTxAckInput d s) := by
  simp only [execTxAckInput, txRule_besideTx, mapNext_ite]
  cases txRule s with
  | none => rfl
  | some r => simp only [mapNext_ite, ← nonFinalAck_besideTx, ← finalAck_besideTx]; rfl

theorem execTxTimerFire_besideTx (v : Word) :
    execTxTimerFire v (besideTx c g l s) = mapNext (besideTx c g l) (execTxTimerFire v s) := by
  simp only [execTxTimerFire, txRule_besideTx, mapNext_ite]
  cases txRule s with
  | none => rfl
  | some r => rfl

/-- TX_OUTPUT is the one TX command that reads DTAG_NEXT (R32). -/
theorem exec_besideTx {i : Instr} (hi : isTx i = true) (h : g = id ∨ ∀ a d, i ≠ .txOutput a d) :
    exec i (besideTx c g l s) = mapNext (besideTx c g l) (exec i s) := by
  cases i with
  | txOutput a d =>
    obtain rfl : g = id := h.resolve_right fun hne => hne a d rfl
    exact execTxOutput_besideTx c l s a d
  | txAckInput d => exact execTxAckInput_besideTx c g l s d
  | txTimerFire v => exact execTxTimerFire_besideTx c g l s v
  | txAbort => rfl
  | txQuery => rfl
  | _ => simp [isTx, opcodeOf] at hi

end

/-! ### The RX commands -/

/-- The codec datapath, the TX registers and DTAG_NEXT overwritten: all an RX command does not read. -/
def besideRx (c : Codec) (x : TxConn) (n : Byte) (s : State) : State :=
  { s with cod := c, tx := x, dtagNext := n }

section
variable (c : Codec) (x : TxConn) (n : Byte) (s : State)

@[simp] theorem besideRx_cfg : (besideRx c x n s).cfg = s.cfg := rfl
@[simp] theorem rxSlot_besideRx (i : Nat) : rxSlot (besideRx c x n s) i = rxSlot s i := rfl
@[simp] theorem firstGap_besideRx (i : Nat) (r : FragRule) :
    firstGap (besideRx c x n s) i r = firstGap s i r := rfl
@[simp] theorem findConn_besideRx (ri dt : Nat) :
    findConn (besideRx c x n s) ri dt = findConn s ri dt := rfl
@[simp] theorem findFree_besideRx : findFree (besideRx c x n s) = findFree s := rfl
@[simp] theorem setRx_besideRx (i : Nat) (y : RxSlot) :
    setRx (besideRx c x n s) i y = besideRx c x n (setRx s i y) := rfl

theorem windowEval_besideRx (r : FragRule) (i w : Nat) (evs : List Event) :
    windowEval r i w evs (besideRx c x n s) =
      mapNext (besideRx c x n) (windowEval r i w evs s) := by
  simp only [windowEval, mapNext_ite]; rfl

theorem micDiscard_besideRx (i : Nat) (evs : List Event) :
    micDiscard i evs (besideRx c x n s) = mapNext (besideRx c x n) (micDiscard i evs s) := by
  simp only [micDiscard, mapNext_ite]; rfl

theorem finalEval_besideRx (r : FragRule) (i : Nat) (evs : List Event) :
    finalEval r i evs (besideRx c x n s) = mapNext (besideRx c x n) (finalEval r i evs s) := by
  simp only [finalEval, firstGap_besideRx]
  cases firstGap s i r with
  | none => simp only [mapNext_ite, ← micDiscard_besideRx]; rfl
  | some w => rfl

theorem noAckFinal_besideRx (r : FragRule) (i : Nat) (evs : List Event) :
    noAckFinal r i evs (besideRx c x n s) = mapNext (besideRx c x n) (noAckFinal r i evs s) := by
  simp only [noAckFinal, mapNext_ite]; rfl

theorem rxDeliver_besideRx (f : Frag) (i : Nat) (evs : List Event) :
    rxDeliver f i evs (besideRx c x n s) = mapNext (besideRx c x n) (rxDeliver f i evs s) := by
  unfold rxDeliver
  cases f.body with
  | reg q t =>
    simp only [rxRegular, mapNext_ite, ← finalEval_besideRx, ← windowEval_besideRx]; rfl
  | all1 mic =>
    simp only [rxAllOne, mapNext_ite, ← finalEval_besideRx, ← noAckFinal_besideRx]; rfl

theorem rxOpen_besideRx (f : Frag) (evs : List Event) :
    rxOpen f evs (besideRx c x n s) = mapNext (besideRx c x n) (rxOpen f evs s) := by
  simp only [rxOpen, findFree_besideRx]
  cases findFree s with
  | none => rfl
  | some i => exact rxDeliver_besideRx c x n (setRx s i ((rxSlot s i).opened f.ri f.dt)) f i evs

theorem rxAccept_besideRx (f : Frag) :
    rxAccept f (besideRx c x n s) = mapNext (besideRx c x n) (rxAccept f s) := by
  simp only [rxAccept, findConn_besideRx]
  cases findConn s f.ri f.dt with
  | none => simp only [rxCreate, mapNext_ite, ← rxOpen_besideRx]; rfl
  | some i => simp only [rxSupersede, mapNext_ite, ← rxOpen_besideRx, ← rxDeliver_besideRx]; rfl

theorem execRxFragInput_besideRx (d : List Byte) :
    execRxFragInput d (besideRx c x n s) = mapNext (besideRx c x n) (execRxFragInput d s) := by
  simp only [execRxFragInput, besideRx_cfg]
  cases parseFrag s.cfg (unpack d) with
  | error st => rfl
  | ok o =>
    cases o with
    | none => rfl
    | some f => exact rxAccept_besideRx c x n s f

theorem exec_besideRx {i : Instr} (hi : isRx i = true) :
    exec i (besideRx c x n s) = mapNext (besideRx c x n) (exec i s) := by
  cases i with
  | rxFragInput d => exact execRxFragInput_besideRx c x n s d
  | rxTimerFire a v => simp only [exec, execRxTimerFire, mapNext_ite]; rfl
  | rxAbort a => simp only [exec, execRxAbort, mapNext_ite]; rfl
  | rxQuery a => simp only [exec, execRxQuery, mapNext_ite]; rfl
  | _ => simp [isRx, opcodeOf] at hi

end

end Sys2Proof.Machine
end

section
/-!
Proofs of the family 10_state, the statements: what every step keeps, what each family leaves alone
(spec/10_state.md R20 to R45), the reset state, and the DONE slot that is superseded.
-/

namespace Sys2Proof.Machine

open Sys2Proof.Safety

/-! ### Every command -/

theorem exec_nop_next {s t : State} (h : exec .nop s = .next t) :
    t = withResult s (CmdResult.plain .ok) := (reply_next.1 h).symm

/-- No command writes the configuration or the inputs to come. -/
theorem exec_cfg_port {i : Instr} {s t : State} (h : exec i s = .next t) :
    t.cfg = s.cfg ∧ t.port = s.port := by
  rcases instr_family i with rfl | hi | hi | hi
  · rw [exec_nop_next h]
    exact ⟨rfl, rfl⟩
  · rw [exec_codec_onlyCodec hi h]
    exact ⟨rfl, rfl⟩
  · rw [exec_tx_onlyTx hi h]
    exact ⟨rfl, rfl⟩
  · rw [(exec_rx_frame hi h).1]
    exact ⟨rfl, rfl⟩

theorem runCommand_cfg_port {c : Command} {s t : State} (h : runCommand c s = .next t) :
    t.cfg = s.cfg ∧ t.port = s.port := by
  rcases runCommand_cases h with ⟨i, -, h⟩ | ⟨e, -, rfl⟩
  · exact exec_cfg_port h
  · exact ⟨rfl, rfl⟩

theorem exec_keeps_codecOk {i : Instr} {s t : State} (hp : paramsOk s.cfg.par) (hs : CodecOk s)
    (h : exec i s = .next t) : CodecOk t := by
  rcases instr_family i with rfl | hi | hi | hi
  · rw [exec_nop_next h]
    exact hs
  · obtain ⟨u, r, rfl, hu, -, -⟩ := exec_codec_cases hi h
    have hok := hu.keeps_codecOk hp hs
    exact hok
  · rw [exec_tx_onlyTx hi h]
    exact hs
  · rw [(exec_rx_frame hi h).1]
    exact hs

theorem exec_keeps_txTimer {i : Instr} {s t : State} (hs : TxTimerOk s)
    (h : exec i s = .next t) : TxTimerOk t := by
  rcases instr_family i with rfl | hi | hi | hi
  · rw [exec_nop_next h]
    exact hs
  · rw [exec_codec_onlyCodec hi h]
    exact hs
  · exact exec_tx_keeps_txTimer hi hs h
  · rw [(exec_rx_frame hi h).1]
    exact hs

/-- The bounds of the TX registers and the exchange that waits (R30 to R35). -/
abbrev TxRegsOk (s : State) : Prop := TxBoundsOk s ∧ TxExchangeOk s

theorem exec_keeps_txRegs {i : Instr} {s t : State} (hs : TxRegsOk s)
    (h : exec i s = .next t) : TxRegsOk t := by
  rcases instr_family i with rfl | hi | hi | hi
  · rw [exec_nop_next h]
    exact hs
  · rw [exec_codec_onlyCodec hi h]
    exact hs
  · exact exec_tx_keeps_txRegs hi hs.1 hs.2 h
  · rw [(exec_rx_frame hi h).1]
    exact hs

theorem exec_keeps_rxOk {i : Instr} {s t : State} (hcfg : CfgOk s) (hs : RxOk s)
    (h : exec i s = .next t) : RxOk t := by
  rcases instr_family i with rfl | hi | hi | hi
  · rw [exec_nop_next h]
    exact hs
  · rw [exec_codec_onlyCodec hi h]
    exact hs
  · rw [exec_tx_onlyTx hi h]
    exact hs
  · exact exec_rx_keeps_rxOk hi hcfg hs h

/-- Only TX_ACK_INPUT and TX_TIMER_FIRE can fail to answer, and only for want of a rule (log 7). -/
theorem exec_answers (i : Instr) {s : State} (hs : TxRuled s) :
    ∃ u r, exec i s = reply u r := by
  rcases instr_family i with rfl | hi | hi | hi
  · exact ⟨_, _, rfl⟩
  · obtain ⟨u, r, h, -⟩ := exec_codec_replies hi s
    exact ⟨u, r, h⟩
  · rcases exec_tx_answers hi s with ⟨a, d, rfl⟩ | ⟨hn, -⟩ | ⟨u, r, h, -⟩
    · exact execTxOutput_replies a d s
    · exact absurd hs hn
    · exact ⟨u, r, h⟩
  · obtain ⟨u, r, h, -⟩ := exec_rx_answers hi s
    exact ⟨u, r, h⟩

/-- Only TX_OUTPUT returns SUCCESS (R32). -/
theorem exec_status_ne_success {i : Instr} {s t : State} {r : CmdResult}
    (hne : ∀ a d, i ≠ .txOutput a d) (h : exec i s = .next t) (hr : t.result = some r) :
    r.status ≠ .success := by
  rcases instr_family i with rfl | hi | hi | hi
  · exact (answers_reply (u := s)).status_ne_success h hr
  · obtain ⟨u, r', rfl, -, -, hst⟩ := exec_codec_cases hi h
    rwa [← Option.some.inj hr]
  · rcases exec_tx_answers hi s with ⟨a, d, rfl⟩ | ⟨-, hf⟩ | ha
    · exact absurd rfl (hne a d)
    · rw [hf] at h
      cases h
    · exact ha.status_ne_success h hr
  · exact (exec_rx_answers hi s).status_ne_success h hr

/-- Only TX_OUTPUT writes DTAG_NEXT (R32). -/
theorem exec_dtagNext {i : Instr} {s t : State} (hne : ∀ a d, i ≠ .txOutput a d)
    (h : exec i s = .next t) : t.dtagNext = s.dtagNext := by
  rcases instr_family i with rfl | hi | hi | hi
  · rw [exec_nop_next h]
    rfl
  · rw [exec_codec_onlyCodec hi h]
  · rcases exec_tx_cases hi h with ⟨a, d, rfl⟩ | hc
    · exact absurd rfl (hne a d)
    · exact hc.dtagNext
  · rw [(exec_rx_frame hi h).1]

/-! ### Every step -/

/-- What the parts of R20 say holds after every step if it holds after every command and at reset;
the port and the result do not matter to it. -/
theorem step_keeps {P : State → Prop} (hport : ∀ s rest, P s → P (withPort s rest))
    (hresult : ∀ s r, P s → P (withResult s r)) (hreset : ∀ s rest, P s → P (resetInput s rest))
    (hexec : ∀ i s t, CfgOk s → P s → exec i s = .next t → P t) {s t : State} (hs : P s)
    (h : step s = .next t) : P t := by
  obtain ⟨hp, hc, ⟨-, rfl⟩ | ⟨rest, -, rfl⟩ | ⟨c, rest, -, h⟩⟩ := step_cases h
  · exact hs
  · exact hreset s rest hs
  · rcases runCommand_cases h with ⟨i, -, h⟩ | ⟨e, -, rfl⟩
    · exact hexec i (withPort s rest) t ⟨hp, hc⟩ (hport s rest hs) h
    · exact hresult _ _ (hport s rest hs)

theorem txRegsOk_resetWith (cfg : Config) : TxRegsOk (State.resetWith cfg) :=
  ⟨⟨Nat.zero_le _, Nat.zero_le _⟩, fun h => nomatch h⟩

theorem txTimerOk_resetWith (cfg : Config) : TxTimerOk (State.resetWith cfg) :=
  txTimerOk_of_left (nofun) rfl

/-- The parts of a legal state: the configuration, and what each family keeps of its own. -/
abbrev LegalParts (s : State) : Prop :=
  CfgOk s ∧ CodecOk s ∧ TxTimerOk s ∧ TxRegsOk s ∧ RxOk s

theorem legal_iff {s : State} : Legal s ↔ LegalParts s :=
  ⟨fun h => ⟨h.cfg, ⟨h.cbuf, h.cursor, h.fv⟩, h.txTimer, ⟨h.txBounds, h.txExchange⟩,
      h.rxSlots, h.rxKeys⟩,
    fun ⟨hcfg, ⟨hcb, hcur, hfv⟩, htm, ⟨hb, he⟩, hsl, hk⟩ =>
      ⟨hcfg, hcb, hcur, hfv, htm, hb, he, hsl, hk⟩⟩

theorem legalParts_resetWith {cfg : Config} (hp : paramsOk cfg.par) (hc : ctxOk cfg.ctx) :
    LegalParts (State.resetWith cfg) :=
  ⟨⟨hp, hc⟩, codecOk_resetWith cfg, txTimerOk_resetWith cfg, txRegsOk_resetWith cfg,
    rxOk_resetWith cfg⟩

theorem exec_keeps_legalParts {i : Instr} {s t : State} (hs : LegalParts s)
    (h : exec i s = .next t) : LegalParts t := by
  obtain ⟨hcfg, hcod, htm, htx, hrx⟩ := hs
  refine ⟨?_, exec_keeps_codecOk hcfg.1 hcod h, exec_keeps_txTimer htm h,
    exec_keeps_txRegs htx h, exec_keeps_rxOk hcfg hrx h⟩
  rwa [CfgOk, (exec_cfg_port h).1]

theorem txRuled_of_txExchangeOk {s : State} (h : TxExchangeOk s) : TxRuled s := by
  intro hw hnone
  obtain ⟨r, hr, -⟩ := h hw
  rw [hnone] at hr
  cases hr

theorem runCommand_answers (c : Command) {s : State} (hs : TxRuled s) :
    ∃ t, runCommand c s = .next t := by
  unfold runCommand
  split
  · exact ⟨_, rfl⟩
  · obtain ⟨u, r, h⟩ := exec_answers _ hs
    exact ⟨_, h⟩

theorem step_answers {s : State} (hcfg : CfgOk s) (hs : TxRuled s) : ∃ t, step s = .next t := by
  rw [step_of_ok hcfg.1 hcfg.2]
  split
  · exact ⟨_, rfl⟩
  · exact ⟨_, rfl⟩
  · exact runCommand_answers _ hs

/-! ### The invariants -/

/-- Settles O19: every state a codec command leaves holds legal values, and no other command writes
the codec datapath. -/
theorem stepKeepsCodecBounds : Obligations.StepKeepsCodecBounds :=
  fun _ _ hcb hcur hfv h => step_keeps (P := CodecOk) (fun _ _ h => h) (fun _ _ h => h)
    (fun s _ _ => codecOk_resetWith s.cfg) (fun _ _ _ hcfg hs h => exec_keeps_codecOk hcfg.1 hs h)
    ⟨hcb, hcur, hfv⟩ h

/-- Settles O21: an exchange is launched with registers that fit, and continued with the same rule,
message and sizes. -/
theorem stepKeepsTxExchange : Obligations.StepKeepsTxExchange :=
  fun _ _ hb he h => step_keeps (P := TxRegsOk) (fun _ _ h => h) (fun _ _ h => h)
    (fun s _ _ => txRegsOk_resetWith s.cfg) (fun _ _ _ _ hs h => exec_keeps_txRegs hs h)
    ⟨hb, he⟩ h

/-- Settles O22: a fragment leaves its slot legal and with its key, or released, and a new connection
is opened only when no live slot has its key. -/
theorem stepKeepsRxSlots : Obligations.StepKeepsRxSlots :=
  fun _ _ hsl hk h => step_keeps (P := RxOk) (fun _ _ h => h) (fun _ _ h => h)
    (fun s _ _ => rxOk_resetWith s.cfg) (fun _ _ _ hcfg hs h => exec_keeps_rxOk hcfg hs h)
    ⟨hsl, hk⟩ h

/-- Settles O18: a waiting exchange has its rule, so every command answers, and each part of a legal
state is kept by every command. -/
theorem stepKeepsLegal : Obligations.StepKeepsLegal := by
  intro s hs
  obtain ⟨t, ht⟩ := step_answers hs.cfg (txRuled_of_txExchangeOk hs.txExchange)
  exact ⟨t, ht, legal_iff.2 (step_keeps (P := LegalParts) (fun _ _ h => h) (fun _ _ h => h)
    (fun _ _ h => legalParts_resetWith h.1.1 h.1.2)
    (fun _ _ _ _ hs h => exec_keeps_legalParts hs h) (legal_iff.1 hs) ht)⟩

/-! ### What commands leave alone and do not read -/

/-- Settles O12: no family's frame holds the configuration or the port. -/
theorem configurationIsReadOnly : Obligations.ConfigurationIsReadOnly :=
  ⟨fun s _ h => step_keeps (P := fun u => u.cfg = s.cfg) (fun _ _ h => h) (fun _ _ h => h)
      (fun _ _ h => h) (fun _ _ _ _ hs h => (exec_cfg_port h).1.trans hs) rfl h,
    fun _ _ _ h => (runCommand_cfg_port h).2⟩

/-- Settles O13: the frame of each family. -/
theorem familyFrames : Obligations.FamilyFrames := by
  intro i s t h
  refine ⟨fun hi => ⟨exec_codec_onlyCodec hi h, fun r hr => ?_⟩, fun hi => exec_tx_onlyTx hi h,
    fun hi => exec_rx_frame hi h, ?_⟩
  · obtain ⟨u, r', rfl, -, hev, -⟩ := exec_codec_cases hi h
    rwa [← Option.some.inj hr]
  · rintro rfl
    rw [exec_nop_next h]
    rfl

/-- Settles O14: each family's commands commute with an overwriting of what they do not read. -/
theorem familiesAreIndependent : Obligations.FamiliesAreIndependent := by
  intro i s t c x n l h
  refine ⟨fun hi => ?_, fun hi => ?_, fun hi => ?_⟩
  · exact (exec_besideCodec x n l s hi).trans (congrArg (mapNext (besideCodec x n l)) h)
  · exact (exec_besideTx c id l s hi (.inl rfl)).trans (congrArg (mapNext (besideTx c id l)) h)
  · exact (exec_besideRx c x n s hi).trans (congrArg (mapNext (besideRx c x n)) h)

/-- No command but TX_OUTPUT reads DTAG_NEXT (R32): the overwritings of O14, with the parts a family
leaves alone overwritten by themselves. -/
theorem exec_of_dtagNext {i : Instr} {s t : State} (n : Byte) (hne : ∀ a d, i ≠ .txOutput a d)
    (h : exec i s = .next t) : exec i { s with dtagNext := n } = .next { t with dtagNext := n } := by
  rcases instr_family i with rfl | hi | hi | hi
  · rw [exec_nop_next h]
    rfl
  · refine (exec_besideCodec s.tx n s.rx s hi).trans ?_
    rw [h, exec_codec_onlyCodec hi h]
    rfl
  · refine (exec_besideTx s.cod (fun _ => n) s.rx s hi (.inr hne)).trans ?_
    rw [h, exec_tx_onlyTx hi h]
    rfl
  · refine (exec_besideRx s.cod s.tx n s hi).trans ?_
    rw [h, (exec_rx_frame hi h).1]
    rfl

theorem exec_dtagNext_counts {i : Instr} {s t : State} {r : CmdResult} (h : exec i s = .next t)
    (hr : t.result = some r) :
    t.dtagNext = if r.status = .success then s.dtagNext + 1 else s.dtagNext := by
  by_cases hout : ∃ a d, i = .txOutput a d
  · obtain ⟨a, d, rfl⟩ := hout
    obtain ⟨res, hres, hn⟩ := execTxOutput_dtagNext h
    rwa [← Option.some.inj (hres.symm.trans hr)]
  · have hne : ∀ a d, i ≠ .txOutput a d := fun a d hi => hout ⟨a, d, hi⟩
    rw [if_neg (exec_status_ne_success hne h hr), exec_dtagNext hne h]

/-- Settles O15: TX_OUTPUT alone returns SUCCESS, writes DTAG_NEXT and reads it. -/
theorem dtagNextCountsSuccess : Obligations.DtagNextCountsSuccess := by
  refine ⟨fun i s t r h hr => ?_, fun i s t r h hr hst => ?_,
    fun i s t n hne h => exec_of_dtagNext n hne h, fun _ => rfl⟩
  · rw [exec_dtagNext_counts h hr]
    split
    · exact BitVec.toNat_add _ _
    · rfl
  · by_contra hout
    exact exec_status_ne_success (fun a d hi => hout ⟨a, d, hi⟩) h hr hst

/-! ### Reset, the context, and RX timers -/

theorem isReset_idle {s : State} (h : IsReset s) :
    TxIdle s ∧ RxAllFree s ∧ NoPending s ∧ TxTimerOk s := by
  obtain ⟨-, htx, -, hrx⟩ := h
  have hfree : ∀ j, rxSlot s j = RxSlot.reset := by
    intro j
    by_cases hj : j < s.rx.length
    · exact List.eq_of_mem_replicate (hrx ▸ rxSlot_mem hj)
    · exact rxSlot_of_le (Nat.le_of_not_lt hj)
  refine ⟨by simp [TxIdle, htx, TxConn.reset], ?_, ?_, by simp [TxTimerOk, htx, TxConn.reset]⟩
  · intro x hx
    rw [hrx] at hx
    rw [List.eq_of_mem_replicate hx]
    exact ⟨rfl, rfl⟩
  · simp [NoPending, liveSchedules, liveOf, htx, hfree, TxConn.reset, RxSlot.reset]

theorem configOk_vectors : paramsOk Config.vectors.par ∧ ctxOk Config.vectors.ctx := by
  decide

/-- Settles O7: every part of the reset state holds its reset value, which is legal. -/
theorem legalAtReset : Obligations.LegalAtReset :=
  ⟨fun _ hp hc => ⟨legal_iff.2 (legalParts_resetWith hp hc), rfl, rfl, rfl, rfl⟩,
    legal_iff.2 (legalParts_resetWith configOk_vectors.1 configOk_vectors.2),
    fun _ h => isReset_idle h⟩

/-- Settles O8: each clause contradicts its clause of CTX_OK. -/
theorem contextOutsideSpecRefused : Obligations.ContextOutsideSpecRefused := by
  intro s hp hbad
  have hctx : ¬ ctxOk s.cfg.ctx := by
    rintro ⟨⟨hid, hnodup, hfd⟩, -⟩
    rcases hbad with ⟨r, hr, hr'⟩ | hdup | ⟨f, hf, hf'⟩
    · obtain ⟨h1, h2⟩ := hid r hr
      unfold maxRidW at h2
      omega
    · exact hdup hnodup
    · obtain ⟨hlen, hval⟩ := hfd f hf
      rcases hf' with hlen' | ⟨v, hv, hv'⟩
      · exact hlen' hlen
      · exact absurd (hval v hv) (Nat.not_lt.2 hv')
  unfold step
  exact (if_neg (not_not.2 hp)).trans (if_pos hctx)

/-- Settles O57: the branches of RX_TIMER_FIRE and of RX_ABORT. -/
theorem rxTimerFireAndAbort : Obligations.RxTimerFireAndAbort := by
  intro a s
  dsimp only
  refine ⟨fun g => ?_, ?_⟩
  · simp only [exec, execRxTimerFire]
    split
    · rfl
    split
    · rfl
    · rfl
  · simp only [exec, execRxAbort]
    split
    · rfl
    · rfl

/-! ### A DONE slot superseded -/

/-- An answer whose result, if it has one, emits `evs` first. -/
def emitFirst (evs : List Event) : Answer → Answer
  | .next t => .next { t with
      result := t.result.map (fun r => { r with events := evs ++ r.events }) }
  | .fault e => .fault e
  | .refused e => .refused e

theorem emitFirst_ite (evs : List Event) (p : Prop) [Decidable p] (a b : Answer) :
    emitFirst evs (if p then a else b) = if p then emitFirst evs a else emitFirst evs b :=
  apply_ite _ _ _ _

theorem emitFirst_reply (evs : List Event) (s : State) (r : CmdResult) :
    emitFirst evs (reply s r) = reply s { r with events := evs ++ r.events } := rfl

section
variable (evs l : List Event) (i : Nat) (r : FragRule) (s : State)

theorem windowEval_emitFirst (w : Nat) :
    windowEval r i w (evs ++ l) s = emitFirst evs (windowEval r i w l s) := by
  simp only [windowEval, emitFirst_ite, emitFirst_reply, slotResult_events, List.append_assoc]; rfl

theorem micDiscard_emitFirst :
    micDiscard i (evs ++ l) s = emitFirst evs (micDiscard i l s) := by
  simp only [micDiscard, emitFirst_ite, emitFirst_reply, slotResult_events, List.append_assoc]; rfl

theorem finalEval_emitFirst :
    finalEval r i (evs ++ l) s = emitFirst evs (finalEval r i l s) := by
  unfold finalEval
  dsimp only
  cases firstGap s i r with
  | none =>
    simp only [emitFirst_ite, emitFirst_reply, slotResult_events, List.append_assoc,
      ← micDiscard_emitFirst]; rfl
  | some w =>
    simp only [emitFirst_reply, slotResult_events, List.append_assoc]; rfl

theorem micFail_emitFirst : micFail i (evs ++ l) s = emitFirst evs (micFail i l s) := by
  simp only [micFail, emitFirst_reply, slotResult_events, List.append_assoc]; rfl

theorem noAckFinal_emitFirst :
    noAckFinal r i (evs ++ l) s = emitFirst evs (noAckFinal r i l s) := by
  simp only [noAckFinal, emitFirst_ite, emitFirst_reply, slotResult_events, micFail_emitFirst]; rfl

/-- What a fragment does to its slot does not depend on the events before it (R211, R215). -/
theorem rxDeliver_emitFirst (f : Frag) :
    rxDeliver f i (evs ++ l) s = emitFirst evs (rxDeliver f i l s) := by
  unfold rxDeliver
  cases f.body with
  | reg q t =>
    simp only [rxRegular, emitFirst_ite, emitFirst_reply, slotResult_events, List.append_assoc,
      ← finalEval_emitFirst, ← windowEval_emitFirst]; rfl
  | all1 mic =>
    simp only [rxAllOne, emitFirst_ite, emitFirst_reply, slotResult_events, List.append_assoc,
      ← finalEval_emitFirst, ← noAckFinal_emitFirst]; rfl

end

theorem firstTooBig_iff {s : State} {f : Frag} : firstTooBig s f = true ↔
    ∃ q tl, f.body = .reg q tl ∧
      (s.cfg.par.rxMaxSlots ≤ (if f.rule.mode = 0 ∧ f.rule.m = 0 then 0 else f.w * f.rule.ws + q) ∨
        s.cfg.par.rxTileBits < tl.length) := by
  unfold firstTooBig
  cases f.body with
  | reg q tl =>
    simp only [decide_eq_true_eq]
    constructor
    · exact fun h => ⟨q, tl, rfl, h⟩
    · rintro ⟨_, _, hb, h⟩
      cases hb
      exact h
  | all1 mic => simp

theorem findFree_eq_some {s : State} {j : Nat} (hj : j < s.rx.length)
    (hst : (rxSlot s j).state = .free) (hmin : ∀ n < j, (rxSlot s n).state ≠ .free) :
    findFree s = some j := by
  refine List.findIdx?_eq_some_iff_getElem.2 ⟨hj, ?_, fun n hn => ?_⟩
  · rw [← rxSlot_eq_getElem hj]
    exact decide_eq_true hst
  · have := hmin n hn
    rw [rxSlot_eq_getElem (by omega)] at this
    simpa using this

/-- The slot opened for a connection that had none is the one Find names (R213, R214). -/
theorem findConn_opened {s : State} {ri dt j : Nat} (hnone : findConn s ri dt = none)
    (hj : j < s.rx.length) (hri : ri < 2 ^ 8) (hdt : dt < 2 ^ 8) :
    findConn (setRx s j ((rxSlot s j).opened ri dt)) ri dt = some j := by
  have hlen : j < (setRx s j ((rxSlot s j).opened ri dt)).rx.length := by simpa using hj
  refine List.findIdx?_eq_some_iff_getElem.2 ⟨hlen, ?_, fun n hn => ?_⟩
  · rw [← rxSlot_eq_getElem hlen, rxSlot_setRx_self _ hj]
    exact decide_eq_true (isConn_opened _ hri hdt)
  · rw [← rxSlot_eq_getElem (by omega), rxSlot_setRx_ne _ (by omega)]
    simpa only [decide_eq_true_eq] using findConn_none_iff.1 hnone n (by omega)

theorem execRxFragInput_of_parse {d : List Byte} {s : State} {f : Frag}
    (h : parseFrag s.cfg (unpack d) = .ok (some f)) : execRxFragInput d s = rxAccept f s := by
  rw [execRxFragInput, h]

theorem rxAccept_of_recv {s : State} {f : Frag} {i : Nat} (hc : findConn s f.ri f.dt = some i)
    (hst : (rxSlot s i).state = .recv) : rxAccept f s = rxDeliver f i [] s := by
  rw [rxAccept, hc]
  simp [hst]

/-- A fragment on a slot already opened for its connection is delivered to it (R211, R214). -/
theorem execRxFragInput_opened {d : List Byte} {s : State} {f : Frag} {j : Nat} (hcfg : CfgOk s)
    (hparse : parseFrag s.cfg (unpack d) = .ok (some f)) (hnone : findConn s f.ri f.dt = none)
    (hj : j < s.rx.length) :
    execRxFragInput d (setRx s j ((rxSlot s j).opened f.ri f.dt)) =
      rxDeliver f j [] (setRx s j ((rxSlot s j).opened f.ri f.dt)) := by
  have hf := fragOk_of_parseFrag hparse
  have hfound := findConn_opened hnone hj (hf.ri_lt hcfg.2) hf.dt_lt
  rw [execRxFragInput_of_parse (s := setRx s j _) hparse]
  exact rxAccept_of_recv hfound (by rw [rxSlot_setRx_self _ hj, RxSlot.opened_state])

theorem rxAccept_of_done {s : State} {f : Frag} {i : Nat} (hc : findConn s f.ri f.dt = some i)
    (hst : (rxSlot s i).state = .done) (hdup : isDuplicate s i f = false) :
    rxAccept f s = rxSupersede f i s := by
  rw [rxAccept, hc]
  simp [hst, hdup]

/-- Settles O52: the released connection has no slot, so the one opened for it is found again, and
what the fragment does there does not depend on the CANCEL before it. -/
theorem rxSupersedesDoneSlot : Obligations.RxSupersedesDoneSlot := by
  intro d s f i hcfg hkeys hparse hconn hdone hdup
  dsimp only
  rw [← firstTooBig_iff]
  have hexec : exec (.rxFragInput d) s = rxSupersede f i s :=
    (execRxFragInput_of_parse hparse).trans (rxAccept_of_done hconn hdone hdup)
  rw [hexec, rxSupersede]
  refine ⟨fun hbig => if_pos hbig, fun hbig j hj hst hmin t r ht hr => ?_⟩
  have hdeliver : rxDeliver f j []
      (setRx (releaseRx s i) j ((rxSlot (releaseRx s i) j).opened f.ri f.dt)) = .next t :=
    (execRxFragInput_opened (s := releaseRx s i) hcfg hparse (findConn_releaseRx hkeys hconn)
      hj).symm.trans ht
  have hfirst := rxDeliver_emitFirst (cancelEvents (.rx i) (rxSlot s i).armed) [] j
    (setRx (releaseRx s i) j ((rxSlot (releaseRx s i) j).opened f.ri f.dt)) f
  rw [List.append_nil, hdeliver, emitFirst, hr] at hfirst
  rw [if_neg hbig, rxOpen, findFree_eq_some (s := releaseRx s i) hj hst hmin]
  exact hfirst

end Sys2Proof.Machine
end

section
/-!
Proofs of the family 20_memory: what a read gives after a write of another width at the same
position (spec/20_memory.md R60 to R63), and the release of the TX lock by current fires (R75).
-/

namespace Sys2Proof.Machine

open Sys2Proof.Safety

/-! ### Bits of CBUF -/

theorem Memory.bitRead_add (m : List Host.Cell) (p a b : Nat) :
    Memory.bitRead m p (a + b) = Memory.bitRead m p a ++ Memory.bitRead m (p + a) b := by
  induction a generalizing p with
  | zero => simp [Memory.bitRead]
  | succ a ih =>
    rw [Nat.succ_add, Memory.bitRead, Memory.bitRead, ih, List.cons_append, Nat.add_assoc,
      Nat.add_comm 1]

/-- The fold of `fieldAt` takes its bits from the front, so the induction is on the last bit. -/
theorem valOf_bitRead (m : List Host.Cell) (p n : Nat) :
    valOf (Memory.bitRead m p n) = fieldAt m p n := by
  induction n with
  | zero => rfl
  | succ n ih =>
    rw [Memory.bitRead_add, valOf_append, ih]
    simp [Memory.bitRead, valOf, fieldAt, List.range_succ, Nat.mul_comm]

/-- A read of any width where a bit string was written (R63): its first bits, and beyond its end what
stood there before. -/
theorem Memory.bitRead_bitWrite_of_width {mem : List Host.Cell} (h : Memory.wf mem) (p m : Nat)
    (bs : Bits) :
    Memory.bitRead (Memory.bitWrite mem p bs) p m =
      bs.take m ++ Memory.bitRead mem (p + bs.length) (m - bs.length) := by
  have hwritten := Memory.bitRead_bitWrite h p bs
  rcases le_total m bs.length with hm | hm
  · obtain ⟨k, hk⟩ := Nat.exists_eq_add_of_le hm
    rw [hk, Memory.bitRead_add] at hwritten
    rw [Nat.sub_eq_zero_of_le hm, Memory.bitRead, List.append_nil]
    nth_rw 2 [← hwritten]
    rw [List.take_left' (Memory.bitRead_length ..)]
  · obtain ⟨k, rfl⟩ := Nat.exists_eq_add_of_le hm
    have hrest : Memory.bitRead (Memory.bitWrite mem p bs) (p + bs.length) k =
        Memory.bitRead mem (p + bs.length) k :=
      Memory.bitRead_congr fun q hq _ => by rw [Memory.bit_bitWrite h, if_neg (by omega)]
    rw [Memory.bitRead_add, hwritten, hrest, List.take_of_length_le hm, Nat.add_sub_cancel_left]

/-- The first `m` bits of `bits(v, n)` are its most significant ones (R10, R11). -/
theorem valOf_take_bitsOf (m n v : Nat) :
    valOf ((bitsOf n v).take m) = v % 2 ^ n / 2 ^ (n - m) := by
  have hsplit := valOf_append ((bitsOf n v).take m) ((bitsOf n v).drop m)
  have hlow := valOf_lt ((bitsOf n v).drop m)
  rw [List.length_drop, bitsOf_length] at hsplit hlow
  rw [List.take_append_drop, valOf_bitsOf] at hsplit
  exact (Nat.div_eq_of_lt_le (by omega) (by rw [Nat.add_one_mul]; omega)).symm

/-! ### CB_WRITE, CB_SEEK and CB_READ that pass their checks -/

theorem exec_cbWrite_of_fits {s : State} {a : Byte} (v : Word) (ha : a.toNat ≤ 32)
    (hfit : fitsWrite s a.toNat) :
    exec (.cbWrite a v) s = reply (writeAtPos s (bitsOf a.toNat v.toNat)) (CmdResult.plain .ok) :=
  (if_neg (Nat.not_lt.2 ha)).trans (if_neg (not_not.2 hfit))

theorem exec_cbSeek_of_le {s : State} {p : Word} (h : p.toNat ≤ s.cod.cbLen.toNat) :
    exec (.cbSeek p) s =
      reply { s with cod := { s.cod with pos := p } } (CmdResult.plain .ok) :=
  if_neg (Nat.not_lt.2 h)

theorem exec_cbRead_of_fits {s : State} {a : Byte} (ha : a.toNat ≤ 32)
    (hfit : fitsRead s a.toNat) :
    exec (.cbRead a) s = reply (advancePos s a.toNat)
      { CmdResult.plain .ok with r0 := BitVec.ofNat 32 (valOf (bitsAtPos s a.toNat)) } :=
  (if_neg (Nat.not_lt.2 ha)).trans (if_neg (not_not.2 hfit))

/-- CB_READ's R0 holds every value it reads (R130). -/
theorem toNat_ofNat_valOf_bitsAtPos {s : State} {n : Nat} (h : n ≤ 32) :
    (BitVec.ofNat 32 (valOf (bitsAtPos s n))).toNat = valOf (bitsAtPos s n) := by
  rw [BitVec.toNat_ofNat]
  exact Nat.mod_eq_of_lt ((valOf_bitsAtPos_lt s n).trans_le (Nat.pow_le_pow_right (by omega) h))

/-- Settles O27: the bits at POS after the write are the written ones and then the old ones; a read
takes the first `m` of them. -/
theorem mixedWidthAccess : Obligations.MixedWidthAccess := by
  rintro n m v s ⟨hpar, -⟩ ⟨hwf, -⟩ hn hm hwrite hread
  obtain ⟨-, -, -, -, -, -, ⟨-, hcap⟩, -, -⟩ := hpar
  have hlen : (writeAtPos s (bitsOf n.toNat v.toNat)).cod.cbLen.toNat =
      max s.cod.cbLen.toNat (s.cod.pos.toNat + n.toNat) := by
    rw [writeAtPos_cbLen_toNat (by rw [bitsOf_length]; omega), bitsOf_length]
  refine ⟨_, _, _, _, exec_cbWrite_of_fits v hn hwrite, exec_cbSeek_of_le ?_,
    exec_cbRead_of_fits hm ?_, rfl, ?_⟩
  · rw [withResult_cod, hlen]
    omega
  · simpa only [fitsRead, withResult_cod, hlen] using hread
  · rw [toNat_ofNat_valOf_bitsAtPos hm]
    simp only [bitsAtPos, withResult_cod, writeAtPos_cod_cbuf]
    rw [Memory.bitRead_bitWrite_of_width hwf, bitsOf_length]
    split
    · rename_i hle
      rw [Nat.sub_eq_zero_of_le hle, Memory.bitRead, List.append_nil, valOf_take_bitsOf]
    · rw [List.take_of_length_le (by rw [bitsOf_length]; omega), valOf_append, valOf_bitsOf,
        valOf_bitRead, Memory.bitRead_length]

/-! ### The TX lock -/

/-- A current fire in WAIT answers (R185): it counts one attempt and stays in WAIT, armed, or it finds
no attempt left and aborts. -/
theorem exec_currentFire {s : State} (hwait : s.tx.state = .wait) (harmed : s.tx.armed = true)
    (hrule : TxRuled s) :
    ∃ t, exec (.txTimerFire s.tx.gen) s = .next t ∧
      t.cfg = s.cfg ∧ t.tx.rule = s.tx.rule ∧ t.tx.msg = s.tx.msg ∧
      ((s.tx.attempts.toNat < s.cfg.par.maxAckReq ∧ t.tx.state = .wait ∧ t.tx.armed = true ∧
          t.tx.attempts = s.tx.attempts + 1) ∨
        (s.cfg.par.maxAckReq ≤ s.tx.attempts.toNat ∧ t.tx.state = .aborted ∧
          t.tx.armed = false)) := by
  obtain ⟨hbad, -⟩ | ⟨u, res, ha, -⟩ := execTxTimerFire_answers s.tx.gen s
  · exact absurd hrule hbad
  refine ⟨withResult u res, ha, ?_⟩
  rcases execTxTimerFire_cases ha with
    ⟨hstale, -⟩ | ⟨-, -, hleft, -⟩ | ⟨r, -, -, -, hlt, -, ht⟩ | ⟨-, -, -, hle, ht⟩
  · simp [harmed] at hstale
  · exact absurd hwait hleft
  · rw [ht]
    exact ⟨rfl, rfl, rfl, .inl ⟨hlt, hwait, rfl, rfl⟩⟩
  · rw [ht]
    exact ⟨rfl, rfl, rfl, .inr ⟨hle, rfl, rfl⟩⟩

theorem fires_succ {n : Nat} {s t : State} (h : exec (.txTimerFire s.tx.gen) s = .next t) :
    fires (n + 1) s = fires n t := by
  rw [fires, h]

/-- With `k` attempts left, `k + 1` current fires abort the exchange (R75, R185). -/
theorem fires_abort {k : Nat} {s : State} (hk : s.tx.attempts.toNat + k = s.cfg.par.maxAckReq)
    (hmax : s.cfg.par.maxAckReq ≤ 255) (hwait : s.tx.state = .wait) (harmed : s.tx.armed = true)
    (hrule : TxRuled s) :
    ∃ t, fires (k + 1) s = some t ∧ t.tx.state = .aborted ∧ t.tx.armed = false ∧
      t.tx.rule = s.tx.rule ∧ t.tx.msg = s.tx.msg := by
  induction k generalizing s with
  | zero =>
    obtain ⟨t, ht, -, hr, hm, ⟨hlt, -⟩ | ⟨-, hst, ha⟩⟩ := exec_currentFire hwait harmed hrule
    · omega
    · exact ⟨t, fires_succ ht, hst, ha, hr, hm⟩
  | succ k ih =>
    obtain ⟨t, ht, hcfg, hr, hm, ⟨-, hst, ha, hatt⟩ | ⟨hle, -⟩⟩ :=
      exec_currentFire hwait harmed hrule
    · have hrule' : TxRuled t := fun _ => by
        rw [txRule, hcfg, hr]
        exact hrule hwait
      have hcount : t.tx.attempts.toNat = s.tx.attempts.toNat + 1 := by
        rw [hatt]
        bv_omega
      have hk' : t.tx.attempts.toNat + k = t.cfg.par.maxAckReq := by
        rw [hcount, hcfg]
        omega
      obtain ⟨u, hu, hst', ha', hr', hm'⟩ := ih hk' (hcfg ▸ hmax) hst ha hrule'
      exact ⟨u, (fires_succ ht).trans hu, hst', ha', hr'.trans hr, hm'.trans hm⟩
    · omega

/-- Settles O48: one fire per attempt left and the one that finds none. -/
theorem lockReleasedByFires : Obligations.LockReleasedByFires := by
  rintro s ⟨⟨-, -, -, -, -, -, -, -, hmax⟩, -⟩ htimer ⟨-, hatt⟩ hexch hwait
  obtain ⟨k, hk⟩ := Nat.exists_eq_add_of_le hatt
  obtain ⟨t, ht⟩ := fires_abort hk.symm hmax hwait (htimer.1 hwait) (txRuled_of_txExchangeOk hexch)
  exact ⟨k + 1, t, by omega, ht⟩

end Sys2Proof.Machine
end

section
/-!
Proofs of the family 30_encoding, the command words (spec/30_encoding.md R80 to R88): what each row of
the opcode map makes of the operands, and the dispatch checks over it.
-/

namespace Sys2Proof.Machine

open Sys2Proof.Safety

/-! ### The rows of the opcode map -/

/-- What a row of R85 says of the commands it makes: its opcode, and each input the row uses, 0 or empty
where it uses none. W1 matters only where the command uses IMM. -/
structure RowOk (r : OpRow) (a b : Byte) (v : Word) (d : List Byte) : Prop where
  opcode : opcodeOf (r.make a b v d) = r.opc
  operandA : (r.make a b v d).operandA = bif r.usesA then a else 0
  operandB : (r.make a b v d).operandB = bif r.usesB then b else 0
  dataIn : (r.make a b v d).dataIn = bif r.takesData then d else []
  immediate : (r.make a b v d).immediate = bif (r.make a b v d).usesImm then v else 0
  usesImm (v' : Word) : (r.make a b v' d).usesImm = (r.make a b v d).usesImm
  make_immediate : r.make a b (r.make a b v d).immediate d = r.make a b v d

theorem rowOk {r : OpRow} (hr : r ∈ opTable) (a b : Byte) (v : Word) (d : List Byte) :
    RowOk r a b v d := by
  simp only [opTable, List.mem_cons, List.not_mem_nil, or_false] at hr
  repeat' obtain rfl | hr := hr
  all_goals exact ⟨rfl, rfl, rfl, rfl, rfl, fun _ => rfl, rfl⟩

theorem find_opTable {o : Byte} {r : OpRow}
    (h : opTable.find? (fun r => r.opc == o) = some r) : r ∈ opTable ∧ r.opc = o :=
  ⟨List.mem_of_find?_eq_some h, by simpa using List.find?_some h⟩

/-- Every command is made by the row of its opcode from its own operands. -/
theorem find_opcodeOf (i : Instr) :
    ∃ r, opTable.find? (fun r => r.opc == opcodeOf i) = some r ∧
      r.make i.operandA i.operandB i.immediate i.dataIn = i := by
  cases i <;> exact ⟨_, rfl, rfl⟩

theorem opcode_mem_usingA :
    ∀ r ∈ opTable, (r.opc.toNat ∈ opcodesUsingA ↔ r.usesA = true) := by decide

theorem opcode_mem_usingB :
    ∀ r ∈ opTable, (r.opc.toNat ∈ opcodesUsingB ↔ r.usesB = true) := by decide

theorem opcode_mem_takingData :
    ∀ r ∈ opTable, (r.opc.toNat ∈ opcodesTakingData ↔ r.takesData = true) := by decide

theorem assignedOpcodes_eq : assignedOpcodes = opTable.map (fun r => r.opc.toNat) := rfl

/-- No row has an opcode exactly where R85 assigns none. -/
theorem find_opTable_none {o : Byte} :
    opTable.find? (fun r => r.opc == o) = none ↔ o.toNat ∉ assignedOpcodes := by
  simp [assignedOpcodes_eq, ← BitVec.toNat_inj]

/-! ### Decoding and encoding -/

/-- The triple passes the checks of R86 from step 2 on against its row. -/
structure PassesRow (maxIn : Nat) (r : OpRow) (c : Command) : Prop where
  unusedA : r.usesA = false → fieldA c.w0 = 0
  unusedB : r.usesB = false → fieldB c.w0 = 0
  noData : r.takesData = false → c.data = []
  length : c.data.length ≤ maxIn

theorem decodeRow_ok {maxIn : Nat} {r : OpRow} {c : Command} {i : Instr} :
    decodeRow maxIn r c = .ok i ↔
      PassesRow maxIn r c ∧ r.make (fieldA c.w0) (fieldB c.w0) c.w1 c.data = i := by
  unfold decodeRow
  split
  · rename_i h
    simpa using fun hp : PassesRow maxIn r c => absurd (hp.unusedA h.1) h.2
  rename_i hA
  split
  · rename_i h
    simpa using fun hp : PassesRow maxIn r c => absurd (hp.unusedB h.1) h.2
  rename_i hB
  split
  · rename_i h
    simpa using fun hp : PassesRow maxIn r c => absurd (hp.noData h.1) h.2
  rename_i hD
  split
  · rename_i h
    simpa using fun hp : PassesRow maxIn r c => absurd hp.length (Nat.not_le.2 h)
  rename_i hL
  have hp : PassesRow maxIn r c := ⟨by simpa using hA, by simpa using hB, by simpa using hD,
    Nat.le_of_not_lt hL⟩
  simp [hp]

/-- A triple decodes exactly when its reserved byte is 0, its opcode has a row and it passes that row's
checks (R86). -/
theorem decode_ok {maxIn : Nat} {c : Command} {i : Instr} :
    decode maxIn c = .ok i ↔ fieldRsv c.w0 = 0 ∧
      ∃ r, opTable.find? (fun r => r.opc == fieldOpc c.w0) = some r ∧
        decodeRow maxIn r c = .ok i := by
  unfold decode
  split
  · rename_i hrsv
    simpa using fun h => absurd h hrsv
  rename_i hrsv
  rw [not_not] at hrsv
  split <;> simp [*]

/-- The encoding of a command passes the checks of the row that makes it. -/
theorem passesRow_encode {maxIn : Nat} {i : Instr} {r : OpRow} (hlen : i.dataIn.length ≤ maxIn)
    (hr : r ∈ opTable) (hi : r.make i.operandA i.operandB i.immediate i.dataIn = i) :
    PassesRow maxIn r (encode i) := by
  have hrow := rowOk hr i.operandA i.operandB i.immediate i.dataIn
  refine ⟨fun h => ?_, fun h => ?_, fun h => ?_, hlen⟩
  · simpa [hi, h, encode] using hrow.operandA
  · simpa [hi, h, encode] using hrow.operandB
  · simpa [hi, h, encode] using hrow.dataIn

/-- Settles O1: the row of the command's opcode makes it again from the fields of its encoding. -/
theorem encodeThenDecode : Obligations.EncodeThenDecode := by
  intro maxIn i hwf
  obtain ⟨r, hfind, hi⟩ := find_opcodeOf i
  have hpass := passesRow_encode (of_decide_eq_true hwf) (find_opTable hfind).1 hi
  refine decode_ok.2 ⟨fieldRsv_packW0 _ _ _, r, ?_, decodeRow_ok.2 ⟨hpass, ?_⟩⟩
  · rwa [encode, fieldOpc_packW0]
  · simpa [encode] using hi

/-- What decoding gives back of a triple's fields (R80, R86). -/
theorem decode_fields {maxIn : Nat} {c : Command} {i : Instr} (h : decode maxIn c = .ok i) :
    opcodeOf i = fieldOpc c.w0 ∧ i.operandA = fieldA c.w0 ∧ i.operandB = fieldB c.w0 ∧
      i.dataIn = c.data ∧ i.immediate = bif i.usesImm then c.w1 else 0 := by
  obtain ⟨-, r, hfind, hrow⟩ := decode_ok.1 h
  obtain ⟨hpass, rfl⟩ := decodeRow_ok.1 hrow
  obtain ⟨hr, hopc⟩ := find_opTable hfind
  have hok := rowOk hr (fieldA c.w0) (fieldB c.w0) c.w1 c.data
  refine ⟨hok.opcode.trans hopc, hok.operandA.trans ?_, hok.operandB.trans ?_,
    hok.dataIn.trans ?_, hok.immediate⟩
  · cases hu : r.usesA with
    | true => rfl
    | false => exact (hpass.unusedA hu).symm
  · cases hu : r.usesB with
    | true => rfl
    | false => exact (hpass.unusedB hu).symm
  · cases hu : r.takesData with
    | true => rfl
    | false => exact (hpass.noData hu).symm

theorem decode_length {maxIn : Nat} {c : Command} {i : Instr} (h : decode maxIn c = .ok i) :
    c.data.length ≤ maxIn := by
  obtain ⟨-, r, -, hrow⟩ := decode_ok.1 h
  exact (decodeRow_ok.1 hrow).1.length

/-- Where the command does not use IMM, its row makes it from any W1 (I1). -/
theorem make_of_not_usesImm {r : OpRow} (hr : r ∈ opTable) {a b : Byte} {v : Word} {d : List Byte}
    (h : (r.make a b v d).usesImm = false) (v' : Word) : r.make a b v' d = r.make a b v d := by
  have hok := rowOk hr a b v d
  have hok' := rowOk hr a b v' d
  have h' : (r.make a b v' d).usesImm = false := (hok.usesImm v').trans h
  rw [← hok.make_immediate, ← hok'.make_immediate, hok.immediate, hok'.immediate, h, h']
  rfl

/-- W1 is read by no dispatch check (R86), and by no command that does not use IMM (I1). -/
theorem decodeRow_w1 {maxIn : Nat} {r : OpRow} {c : Command} (v : Word) (hr : r ∈ opTable)
    (h : ∀ i, decodeRow maxIn r c = .ok i → i.usesImm = false) :
    decodeRow maxIn r { c with w1 := v } = decodeRow maxIn r c := by
  by_cases hp : PassesRow maxIn r c
  · have hok := decodeRow_ok.2 ⟨hp, rfl⟩
    rw [hok]
    obtain ⟨hA, hB, hD, hL⟩ := hp
    exact decodeRow_ok.2 ⟨⟨hA, hB, hD, hL⟩, make_of_not_usesImm hr (h _ hok) v⟩
  · unfold decodeRow
    dsimp only
    split
    · rfl
    rename_i hA
    split
    · rfl
    rename_i hB
    split
    · rfl
    rename_i hD
    split
    · rfl
    rename_i hL
    exact absurd ⟨by simpa using hA, by simpa using hB, by simpa using hD, Nat.le_of_not_lt hL⟩ hp

theorem decode_of_find {maxIn : Nat} {c : Command} {r : OpRow} (hrsv : fieldRsv c.w0 = 0)
    (hfind : opTable.find? (fun r => r.opc == fieldOpc c.w0) = some r) :
    decode maxIn c = decodeRow maxIn r c := by
  rw [decode, if_neg (not_not.2 hrsv), hfind]

theorem decode_w1 {maxIn : Nat} {c : Command} (v : Word)
    (h : ∀ i, decode maxIn c = .ok i → i.usesImm = false) :
    decode maxIn { c with w1 := v } = decode maxIn c := by
  by_cases hrsv : fieldRsv c.w0 = 0
  · cases hfind : opTable.find? (fun r => r.opc == fieldOpc c.w0) with
    | none => simp only [decode, hfind]
    | some r =>
      rw [decode_of_find hrsv hfind] at h ⊢
      exact (decode_of_find (c := { c with w1 := v }) hrsv hfind).trans
        (decodeRow_w1 v (find_opTable hfind).1 h)
  · simp only [decode, ne_eq, hrsv, not_false_eq_true, if_true]

/-- Settles O2: a row's checks leave 0 or nothing in each field its command does not carry, so the
fields are the encoding's. -/
theorem decodedCommandEncodesBack : Obligations.DecodedCommandEncodesBack := by
  refine ⟨fun maxIn c i h => ?_, fun c v s h => ?_⟩
  · obtain ⟨hopc, hA, hB, hD, himm⟩ := decode_fields h
    refine ⟨decide_eq_true (hD ▸ decode_length h), ?_, hD, himm.trans ?_⟩
    · rw [encode, hopc, hA, hB, packW0_fields (decode_ok.1 h).1]
    · cases i.usesImm <;> rfl
  · rw [runCommand, runCommand, decode_w1 v h]

/-! ### The dispatch checks as numbers -/

theorem fieldOpc_toNat (w : Word) : (fieldOpc w).toNat = w.toNat % 2 ^ 8 := by
  simp [fieldOpc, BitVec.extractLsb'_toNat]

theorem fieldA_toNat (w : Word) : (fieldA w).toNat = w.toNat / 2 ^ 8 % 2 ^ 8 := by
  simp [fieldA, BitVec.extractLsb'_toNat, Nat.shiftRight_eq_div_pow]

theorem fieldB_toNat (w : Word) : (fieldB w).toNat = w.toNat / 2 ^ 16 % 2 ^ 8 := by
  simp [fieldB, BitVec.extractLsb'_toNat, Nat.shiftRight_eq_div_pow]

theorem fieldRsv_toNat (w : Word) : (fieldRsv w).toNat = w.toNat / 2 ^ 24 := by
  have hw := w.isLt
  simp only [fieldRsv, BitVec.extractLsb'_toNat, Nat.shiftRight_eq_div_pow]
  omega

theorem byte_eq_zero_iff (b : Byte) : b = 0 ↔ b.toNat = 0 := by
  simp [← BitVec.toNat_inj]

theorem runCommand_of_error {c : Command} {s : State} {e : DecodeError}
    (h : decode s.cfg.par.maxInBytes c = .error e) :
    runCommand c s = .next (withResult s (CmdResult.plain (decodeStatus e))) := by
  rw [runCommand, h]
  rfl

/-- Step 1 of R86: the reserved byte, then the opcode. -/
theorem decode_reserved {maxIn : Nat} {c : Command}
    (h : fieldRsv c.w0 ≠ 0 ∨ (fieldOpc c.w0).toNat ∉ assignedOpcodes) :
    ∃ e, decode maxIn c = .error e ∧ decodeStatus e = .errReserved := by
  by_cases hrsv : fieldRsv c.w0 = 0
  · have hfind := find_opTable_none.2 (h.resolve_left (not_not.2 hrsv))
    exact ⟨.unknownOpcode, by rw [decode, if_neg (not_not.2 hrsv), hfind], rfl⟩
  · exact ⟨.reservedByte, by rw [decode, if_pos hrsv], rfl⟩

/-- Steps 2 to 4 of R86, in their order, against the row of the opcode. -/
theorem decodeRow_checks (maxIn : Nat) (r : OpRow) (c : Command) :
    if (r.usesA = false ∧ fieldA c.w0 ≠ 0) ∨ (r.usesB = false ∧ fieldB c.w0 ≠ 0) then
      ∃ e, decodeRow maxIn r c = .error e ∧ decodeStatus e = .errReserved
    else if r.takesData = false ∧ c.data ≠ [] then
      decodeRow maxIn r c = .error .dataRefused
    else if maxIn < c.data.length then decodeRow maxIn r c = .error .dataTooLong
    else ∃ i, decodeRow maxIn r c = .ok i := by
  unfold decodeRow
  split
  · rename_i hAB
    by_cases hA : r.usesA = false ∧ fieldA c.w0 ≠ 0
    · exact ⟨_, if_pos hA, rfl⟩
    · exact ⟨_, (if_neg hA).trans (if_pos (hAB.resolve_left hA)), rfl⟩
  rename_i hAB
  obtain ⟨hA, hB⟩ := not_or.1 hAB
  simp only [if_neg hA, if_neg hB]
  split
  · rfl
  split
  · rfl
  · exact ⟨_, rfl⟩

/-- Settles O3: step 1 of R86, then the checks of the row, each condition read in the numbers of the
fields. -/
theorem dispatchChecksInOrder : Obligations.DispatchChecksInOrder := by
  intro s c rest hcfg hport
  dsimp only
  simp only [step_of_port_command hcfg hport, ← fieldOpc_toNat, ← fieldA_toNat, ← fieldB_toNat,
    ← fieldRsv_toNat, ne_eq, ← byte_eq_zero_iff]
  split
  · rename_i hres
    obtain ⟨e, he, hst⟩ := decode_reserved hres
    rw [← hst]
    exact runCommand_of_error he
  rename_i hres
  obtain ⟨hrsv, hopc⟩ := not_or.1 hres
  rw [not_not] at hrsv
  obtain ⟨r, hfind⟩ := Option.ne_none_iff_exists'.1 (mt find_opTable_none.1 hopc)
  obtain ⟨hr, hro⟩ := find_opTable hfind
  have hdec := decode_of_find (maxIn := s.cfg.par.maxInBytes) hrsv hfind
  have hchecks := decodeRow_checks s.cfg.par.maxInBytes r c
  rw [← hdec] at hchecks
  simp only [← hro, opcode_mem_usingA r hr, opcode_mem_usingB r hr, opcode_mem_takingData r hr,
    Bool.not_eq_true]
  split
  · rename_i hAB
    rw [if_pos hAB] at hchecks
    obtain ⟨e, he, hst⟩ := hchecks
    rw [← hst]
    exact runCommand_of_error he
  rename_i hAB
  rw [if_neg hAB] at hchecks
  split
  · rename_i hD
    rw [if_pos hD] at hchecks
    exact runCommand_of_error (s := withPort s rest) hchecks
  rename_i hD
  rw [if_neg hD] at hchecks
  split
  · rename_i hL
    rw [if_pos hL] at hchecks
    exact runCommand_of_error (s := withPort s rest) hchecks
  rename_i hL
  rw [if_neg hL] at hchecks
  obtain ⟨i, hi⟩ := hchecks
  obtain ⟨ho, hA, hB, hd, himm⟩ := decode_fields hi
  exact ⟨i, runCommand_of_decode hi, by rw [ho, hro], by rw [hA], by rw [hB], hd,
    himm.trans (by cases i.usesImm <;> rfl)⟩

/-! ### The spec's example words -/

/-- A command that takes no DATA_IN decodes from its encoding whatever `MAX_IN_BYTES` is. -/
theorem decode_encode_of_nil {i : Instr} (h : i.dataIn = []) (maxIn : Nat) :
    decode maxIn (encode i) = .ok i :=
  encodeThenDecode maxIn i (by simp [wellFormed, h])

theorem encode_cbWrite_example :
    encode (.cbWrite 12 0xABC) = { w0 := 0x00000C13, w1 := 0x00000ABC, data := [] } := by decide

theorem encode_fdEncode_example :
    encode (.fdEncode 3 1) = { w0 := 0x00010323, w1 := 0, data := [] } := by decide

theorem encode_rxTimerFire_example :
    encode (.rxTimerFire 1 7) = { w0 := 0x00000109, w1 := 7, data := [] } := by decide

/-- FD_ENCODE ignores W1. -/
theorem decode_fdEncode_example (maxIn : Nat) (v : Word) :
    decode maxIn { w0 := 0x00010323, w1 := v, data := [] } = .ok (.fdEncode 3 1) := by
  have henc := decode_encode_of_nil (i := .fdEncode 3 1) rfl maxIn
  rw [encode_fdEncode_example] at henc
  refine (decode_w1 (c := { w0 := 0x00010323, w1 := 0, data := [] }) v fun i hi => ?_).trans henc
  rw [← Except.ok.inj (henc.symm.trans hi)]
  rfl

/-- Settles O4: the three words are encodings, so they decode. -/
theorem specCommandWords : Obligations.SpecCommandWords := by
  refine ⟨encode_cbWrite_example, congrArg Command.w0 encode_fdEncode_example, rfl,
    encode_rxTimerFire_example, fun maxIn => ⟨?_, decode_fdEncode_example maxIn, ?_⟩⟩
  · rw [← encode_cbWrite_example]
    exact decode_encode_of_nil rfl maxIn
  · rw [← encode_rxTimerFire_example]
    exact decode_encode_of_nil rfl maxIn

end Sys2Proof.Machine
end

section
/-!
Proofs of the family 30_encoding, the timers (spec/30_encoding.md R94, spec/43_control.md R261 to R264):
each command moves the timer handle of every connection as its events say, and the schedules at the
TimerPort follow the handles.
-/

namespace Sys2Proof.Machine

open Sys2Proof.Safety

/-! ### Timer handles -/

/-- The timer handle `(ARMED, GEN)` of a connection (R36, R37). -/
def handle (s : State) : Conn → Bool × Word
  | .tx => (s.tx.armed, s.tx.gen)
  | .rx j => ((rxSlot s j).armed, (rxSlot s j).gen)

/-- The delay a connection is armed with (R262). -/
def delayOf (p : Params) : Conn → Nat
  | .tx => p.retxDelay
  | .rx _ => p.inactDelay

@[simp] theorem handle_withResult (s : State) (r : CmdResult) :
    handle (withResult s r) = handle s := funext fun c => by cases c <;> rfl

theorem handle_of_rx_eq {s t : State} (h : t.rx = s.rx) :
    handle t = Function.update (handle s) .tx (t.tx.armed, t.tx.gen) := by
  funext c
  cases c with
  | tx => simp [handle]
  | rx j => simp [handle, rxSlot, h]

theorem handle_congr {s t : State} (hrx : t.rx = s.rx) (ha : t.tx.armed = s.tx.armed)
    (hg : t.tx.gen = s.tx.gen) : handle t = handle s := by
  rw [handle_of_rx_eq hrx, ha, hg]
  exact Function.update_eq_self _ _

theorem handle_setRx {s : State} {i : Nat} (hi : i < s.rx.length) (y : RxSlot) :
    handle (setRx s i y) = Function.update (handle s) (.rx i) (y.armed, y.gen) := by
  funext c
  cases c with
  | tx => simp [handle]
  | rx j =>
    by_cases hj : j = i
    · subst hj
      simp [handle, rxSlot_setRx_self y hi]
    · have hne : Conn.rx j ≠ Conn.rx i := by simpa using hj
      rw [Function.update_of_ne hne, handle, rxSlot_setRx_ne y hj, handle]

/-- A slot replaced by one of the same handle leaves every handle. -/
theorem handle_setRx_keep {s : State} {i : Nat} {y : RxSlot} (ha : y.armed = (rxSlot s i).armed)
    (hg : y.gen = (rxSlot s i).gen) : handle (setRx s i y) = handle s := by
  by_cases hi : i < s.rx.length
  · rw [handle_setRx hi, ha, hg]
    exact Function.update_eq_self _ _
  · exact handle_congr (by simp [setRx, List.set_eq_of_length_le (Nat.le_of_not_lt hi)]) rfl rfl

theorem handle_releaseRx {s : State} {i : Nat} (hi : i < s.rx.length) :
    handle (releaseRx s i) =
      Function.update (handle s) (.rx i) (false, (rxSlot s i).gen) := handle_setRx hi _

/-! ### Events and handles -/

theorem timerRun_append (c : Conn) (d : Nat) (h : Bool × Word) (es fs : List Event) :
    timerRun c d h (es ++ fs) = (timerRun c d h es).bind fun g => timerRun c d g fs := by
  induction es generalizing h with
  | nil => rfl
  | cons e es ih =>
    cases e with
    | send b => exact ih h
    | sched c' d' g =>
      simp only [List.cons_append, timerRun]
      split
      · split
        · exact ih _
        · rfl
      · exact ih h
    | cancel c' =>
      simp only [List.cons_append, timerRun]
      split
      · split
        · exact ih _
        · rfl
      · exact ih h

theorem timerRun_sends {l : List Event} (hl : SendsOnly l) (c : Conn) (d : Nat) (h : Bool × Word) :
    timerRun c d h l = some h := by
  induction l with
  | nil => rfl
  | cons e l ih =>
    obtain ⟨b, rfl⟩ := hl e (by simp)
    exact ih fun e he => hl e (List.mem_cons_of_mem _ he)

/-- The events `es` move every connection's handle from that in `H` to that in `K` (R94, R262, R263). -/
def Moves (p : Params) (H : Conn → Bool × Word) (es : List Event) (K : Conn → Bool × Word) : Prop :=
  ∀ c, timerRun c (delayOf p c) (H c) es = some (K c)

theorem Moves.append {p : Params} {H J K : Conn → Bool × Word} {es fs : List Event}
    (h1 : Moves p H es J) (h2 : Moves p J fs K) : Moves p H (es ++ fs) K := by
  intro c
  rw [timerRun_append, h1 c]
  exact h2 c

theorem moves_nil (p : Params) (H : Conn → Bool × Word) : Moves p H [] H := fun _ => rfl

theorem moves_sends (p : Params) {l : List Event} (hl : SendsOnly l) (H : Conn → Bool × Word) :
    Moves p H l H := fun c => timerRun_sends hl c _ _

/-- `Cancel(c)` (R263). -/
theorem moves_cancel (p : Params) (H : Conn → Bool × Word) (c : Conn) :
    Moves p H (cancelEvents c (H c).1) (Function.update H c (false, (H c).2)) := by
  intro c'
  by_cases hc : c' = c
  · subst hc
    cases ha : (H c').1 <;> simp [cancelEvents, timerRun, ha, Prod.ext_iff]
  · rw [Function.update_of_ne hc]
    cases ha : (H c).1 <;> simp [cancelEvents, timerRun, Ne.symm hc]

/-- A SCHED of the next generation, for a connection that is not armed (R262). -/
theorem moves_sched (p : Params) {H : Conn → Bool × Word} {c : Conn} (ha : (H c).1 = false) :
    Moves p H [.sched c (delayOf p c) ((H c).2 + 1)]
      (Function.update H c (true, (H c).2 + 1)) := by
  intro c'
  by_cases hc : c' = c
  · subst hc
    simp [timerRun, ha]
  · rw [Function.update_of_ne hc]
    simp [timerRun, Ne.symm hc]

/-- `Arm(c, d)` (R262). -/
theorem moves_arm (p : Params) (H : Conn → Bool × Word) (c : Conn) :
    Moves p H (armEvents c (delayOf p c) (H c).1 (H c).2)
      (Function.update H c (true, (H c).2 + 1)) := by
  have hsched := moves_sched p (H := Function.update H c (false, (H c).2)) (c := c) (by simp)
  simp only [Function.update_self, Function.update_idem] at hsched
  exact (moves_cancel p H c).append hsched

/-- SENDs and `Arm(TX, RETX_DELAY)`. -/
theorem moves_armTx {s t : State} {l : List Event} (hl : SendsOnly l) (hrx : t.rx = s.rx)
    (ha : t.tx.armed = true) (hg : t.tx.gen = s.tx.gen + 1) :
    Moves s.cfg.par (handle s) (l ++ armTxEvents s) (handle t) := by
  rw [handle_of_rx_eq hrx, ha, hg]
  exact (moves_sends _ hl _).append (moves_arm _ _ .tx)

/-- SENDs and a SCHED, once the fire has consumed the schedule before it (R185). -/
theorem moves_rearmTx {s t : State} {l : List Event} (hl : SendsOnly l) (hrx : t.rx = s.rx)
    (ha : t.tx.armed = true) (hg : t.tx.gen = s.tx.gen + 1) :
    Moves s.cfg.par (Function.update (handle s) .tx (false, s.tx.gen))
      (l ++ [.sched .tx s.cfg.par.retxDelay (s.tx.gen + 1)]) (handle t) := by
  have hsched := moves_sched s.cfg.par (c := .tx)
    (H := Function.update (handle s) .tx (false, s.tx.gen)) (by simp)
  simp only [Function.update_self, Function.update_idem] at hsched
  rw [handle_of_rx_eq hrx, ha, hg]
  exact (moves_sends _ hl _).append hsched

theorem moves_cancelTx {s t : State} (hrx : t.rx = s.rx) (ha : t.tx.armed = false)
    (hg : t.tx.gen = s.tx.gen) :
    Moves s.cfg.par (handle s) (cancelEvents .tx s.tx.armed) (handle t) := by
  rw [handle_of_rx_eq hrx, ha, hg]
  exact moves_cancel _ _ .tx

theorem moves_armRx {s : State} {i : Nat} {y : RxSlot} (hi : i < s.rx.length)
    (ha : y.armed = true) (hg : y.gen = (rxSlot s i).gen + 1) :
    Moves s.cfg.par (handle s) (armRxEvents s i (rxSlot s i)) (handle (setRx s i y)) := by
  rw [handle_setRx hi, ha, hg]
  exact moves_arm _ _ (.rx i)

/-- A slot that is not there is not armed, so its release cancels nothing. -/
theorem moves_releaseRx (s : State) (i : Nat) :
    Moves s.cfg.par (handle s) (cancelEvents (.rx i) (rxSlot s i).armed)
      (handle (releaseRx s i)) := by
  by_cases hi : i < s.rx.length
  · rw [handle_releaseRx hi]
    exact moves_cancel _ _ (.rx i)
  · have hslot := rxSlot_of_le (Nat.le_of_not_lt hi)
    have hkeep : handle (releaseRx s i) = handle s :=
      handle_setRx_keep (by rw [hslot]; rfl) (RxSlot.released_gen _)
    rw [hkeep, hslot]
    exact moves_nil _ _

/-- The state a command ends in, with its result: its events move the handles from `H` to its own. -/
def Accounts (p : Params) (H : Conn → Bool × Word) (t : State) : Prop :=
  ∀ r, t.result = some r → Moves p H r.events (handle t)

theorem accounts_withResult {p : Params} {H : Conn → Bool × Word} {u : State} {r : CmdResult}
    (h : Moves p H r.events (handle u)) : Accounts p H (withResult u r) := by
  intro r' hr
  obtain rfl := Option.some.inj hr
  rwa [handle_withResult]

/-- A command that emits no event and leaves every handle. -/
theorem accounts_of_no_event {p : Params} {H : Conn → Bool × Word} {u : State} {r : CmdResult}
    (he : r.events = []) (hu : handle u = H) : Accounts p H (withResult u r) :=
  accounts_withResult (by rw [he, hu]; exact moves_nil p H)

/-! ### The TX commands -/

theorem sendsOnly_sendRange (s : State) (r : FragRule) (lo hi : Nat) :
    SendsOnly (sendRange s r lo hi) := by
  intro e he
  obtain ⟨j, -, rfl⟩ := List.mem_map.1 he
  exact ⟨_, rfl⟩

theorem SendsOnly.append {l m : List Event} (hl : SendsOnly l) (hm : SendsOnly m) :
    SendsOnly (l ++ m) := fun e he => (List.mem_append.1 he).elim (hl e) (hm e)

theorem sendsOnly_sendAll1 (s : State) (r : FragRule) : SendsOnly [sendAll1 s r] :=
  fun _ he => ⟨_, List.mem_singleton.1 he⟩

theorem sendsOnly_sendAll (s : State) (r : FragRule) : SendsOnly (sendAll s r) :=
  (sendsOnly_sendRange s r _ _).append (sendsOnly_sendAll1 s r)

theorem sendsOnly_sendWindow (s : State) (r : FragRule) (w : Nat) :
    SendsOnly (sendWindow s r w) := by
  refine (sendsOnly_sendRange s r _ _).append ?_
  split
  · exact sendsOnly_sendAll1 s r
  · exact sendsOnly_nil

theorem sendsOnly_sendTerminal (s : State) (r : FragRule) (w : Nat) :
    SendsOnly [sendTerminal s r w] := by
  intro e he
  rw [List.mem_singleton.1 he, sendTerminal]
  split
  · exact ⟨_, rfl⟩
  · exact ⟨_, rfl⟩

theorem txLaunch_accounts {r : FragRule} {s t : State} (h : txLaunch r s = .next t) :
    Accounts s.cfg.par (handle s) t := by
  rcases txLaunch_cases h with ⟨-, rfl⟩ | ⟨-, -, rfl⟩ | ⟨-, -, rfl⟩
  · refine accounts_withResult ?_
    rw [handle_congr (s := s) rfl rfl rfl]
    exact moves_sends _ (sendsOnly_sendAll s r) _
  · exact accounts_withResult (moves_armTx (sendsOnly_sendWindow s r 0) rfl rfl rfl)
  · exact accounts_withResult (moves_armTx (sendsOnly_sendAll s r) rfl rfl rfl)

theorem execTxOutput_accounts {a : Byte} {d : List Byte} {s t : State}
    (h : execTxOutput a d s = .next t) : Accounts s.cfg.par (handle s) t := by
  rcases execTxOutput_cases h with ⟨st, -, rfl⟩ | ⟨r, -, -, -, -, -, -, -, -, h⟩
  · exact accounts_of_no_event rfl rfl
  · rw [← handle_congr (s := s) (t := txLoad s a r d) rfl rfl rfl]
    exact txLaunch_accounts (s := txLoad s a r d) h

theorem nonFinalAck_accounts {s t : State} {r : FragRule} {m : AckMsg}
    (h : nonFinalAck s r m = .next t) : Accounts s.cfg.par (handle s) t := by
  rcases nonFinalAck_cases h with ⟨evs, rfl, hevs⟩ | ⟨-, rfl⟩ | ⟨-, rfl⟩
  · exact accounts_withResult (moves_armTx hevs rfl rfl rfl)
  · exact accounts_withResult (moves_armTx (sendsOnly_sendWindow s r _) rfl rfl rfl)
  · exact accounts_of_no_event rfl rfl

theorem micRound_accounts {s t : State} {r : FragRule} (h : micRound s r = .next t) :
    Accounts s.cfg.par (handle s) t := by
  rcases micRound_cases h with ⟨-, -, rfl⟩ | ⟨-, -, rfl⟩ | ⟨-, rfl⟩
  · exact accounts_withResult (moves_armTx (sendsOnly_sendWindow s r 0) rfl rfl rfl)
  · exact accounts_withResult (moves_armTx (sendsOnly_sendAll s r) rfl rfl rfl)
  · exact accounts_withResult (moves_cancelTx rfl rfl rfl)

theorem finalAck_accounts {s t : State} {r : FragRule} {m : AckMsg}
    (h : finalAck s r m = .next t) : Accounts s.cfg.par (handle s) t := by
  rcases finalAck_cases h with ⟨-, rfl⟩ | ⟨evs, rfl, hevs⟩ | h
  · exact accounts_withResult (moves_cancelTx rfl rfl rfl)
  · exact accounts_withResult (moves_armTx hevs rfl rfl rfl)
  · exact micRound_accounts h

theorem execTxAckInput_accounts {d : List Byte} {s t : State}
    (h : execTxAckInput d s = .next t) : Accounts s.cfg.par (handle s) t := by
  have hatt : handle (txAttempts0 s) = handle s := handle_congr rfl rfl rfl
  rcases execTxAckInput_cases h with ⟨-, rfl⟩ | ⟨-, rfl⟩ | ⟨r, -, -, -, ⟨-, h⟩ | ⟨-, h⟩⟩
  · exact accounts_of_no_event rfl rfl
  · exact accounts_of_no_event rfl rfl
  · exact hatt ▸ nonFinalAck_accounts (s := txAttempts0 s) h
  · exact hatt ▸ finalAck_accounts (s := txAttempts0 s) h

/-! ### The RX commands -/

theorem afterFrag_gen (x : RxSlot) (f : Frag) : (x.afterFrag f).gen = x.gen + 1 := by
  unfold RxSlot.afterFrag
  split
  · rw [RxSlot.arm_gen, RxSlot.accept_eq]
  · rfl

/-- An evaluation keeps the handle of its slot, or cancels it last (R219 to R224). -/
theorem Ends.accounts {s t : State} {i : Nat} {evs : List Event} {x : RxSlot}
    {H : Conn → Bool × Word} (hx : x = rxSlot s i)
    (h : Ends s t i evs [x, x.completed, x.discarded])
    (hevs : Moves s.cfg.par H evs (handle s)) : Accounts s.cfg.par H t := by
  obtain ⟨y, res, l, rfl, -, hl, ⟨hy, he⟩ | ⟨rfl, he⟩⟩ := h
  · refine accounts_withResult ?_
    have hkeep : handle (setRx s i y) = handle s := by
      simp only [List.mem_cons, List.not_mem_nil, or_false] at hy
      subst hx
      obtain rfl | rfl | rfl := hy <;> exact handle_setRx_keep rfl rfl
    rw [he, hkeep]
    exact hevs.append (moves_sends _ hl _)
  · refine accounts_withResult ?_
    rw [he]
    exact hevs.append ((moves_sends _ hl _).append (moves_releaseRx s i))

/-- A fragment on its slot arms it anew, unless it is ignored or the slot released (R211, R216, R217). -/
theorem rxDeliver_accounts {f : Frag} {i : Nat} {evs : List Event} {s t : State}
    {H : Conn → Bool × Word} (hi : i < s.rx.length)
    (hevs : Moves s.cfg.par H evs (handle s)) (h : rxDeliver f i evs s = .next t) :
    Accounts s.cfg.par H t := by
  rcases rxDeliver_cases hi h with rfl | rfl | ⟨-, hends⟩
  · exact accounts_withResult hevs
  · exact accounts_withResult (hevs.append (moves_releaseRx s i))
  · have hnew := hevs.append (moves_armRx hi (RxSlot.afterFrag_armed _ f) (afterFrag_gen _ f))
    exact hends.accounts (s := setRx s i _) (rxSlot_setRx_self _ hi).symm hnew

theorem sendsOnly_doneReply (s : State) (i : Nat) (f : Frag) : SendsOnly (doneReply s i f) := by
  unfold doneReply
  split
  · exact sendsOnly_sendAck _ _ _ _ _
  · exact sendsOnly_nil

/-- Opening a slot keeps its handle (R214). -/
theorem handle_opened (s : State) (i ri dt : Nat) :
    handle (setRx s i ((rxSlot s i).opened ri dt)) = handle s := handle_setRx_keep rfl rfl

theorem execRxFragInput_accounts {d : List Byte} {s t : State}
    (h : execRxFragInput d s = .next t) : Accounts s.cfg.par (handle s) t := by
  rcases execRxFragInput_cases h with ⟨st, rfl⟩ | ⟨f, -, ⟨i, -, -, -, rfl⟩ | ⟨i, hc, -, h⟩ |
    ⟨i, -, hfree, -, h⟩ | ⟨i, j, -, -, -, hfree, -, h⟩⟩
  · exact accounts_of_no_event rfl rfl
  · exact accounts_withResult (moves_sends _ (sendsOnly_doneReply s i f) _)
  · exact rxDeliver_accounts (findConn_some hc).1 (moves_nil _ _) h
  · refine rxDeliver_accounts (s := setRx s i _) (by simpa using (findFree_some hfree).1) ?_ h
    rw [handle_opened]
    exact moves_nil _ _
  · refine rxDeliver_accounts (s := setRx (releaseRx s j) i _)
      (by simpa using (findFree_some hfree).1) ?_ h
    rw [handle_opened]
    exact moves_releaseRx s j

/-! ### Fires -/

/-- The connection is TX or one of the `N_RX` slots: what a fire can name (R230). -/
def inRange (p : Params) : Conn → Bool
  | .tx => true
  | .rx j => decide (j < p.nRx)

/-- The handles once the command, if it is a current fire, has consumed its schedule (R264). -/
def afterFire (i : Instr) (s : State) (c : Conn) : Bool × Word :=
  (if firedBy i = some (c, (handle s c).2) ∧ inRange s.cfg.par c = true then false
    else (handle s c).1, (handle s c).2)

/-- A command that is no fire, or a fire that is not current, consumes nothing. -/
theorem afterFire_of_stale {i : Instr} {s : State}
    (h : ∀ c, firedBy i = some (c, (handle s c).2) → inRange s.cfg.par c = true →
      (handle s c).1 = false) : afterFire i s = handle s := by
  funext c
  unfold afterFire
  split
  · rename_i hf
    rw [← h c hf.1 hf.2]
  · rfl

theorem afterFire_of_current {i : Instr} {s : State} {c : Conn}
    (hf : firedBy i = some (c, (handle s c).2)) (hc : inRange s.cfg.par c = true) :
    afterFire i s = Function.update (handle s) c (false, (handle s c).2) := by
  funext c'
  unfold afterFire
  by_cases h : c' = c
  · subst h
    rw [if_pos ⟨hf, hc⟩, Function.update_self]
  · have hne : firedBy i ≠ some (c', (handle s c').2) := by
      rw [hf]
      simpa using fun he => absurd he.symm h
    rw [if_neg (fun hh => hne hh.1), Function.update_of_ne h]

theorem execTxTimerFire_accounts {g : Word} {s t : State} (h : execTxTimerFire g s = .next t) :
    Accounts s.cfg.par (afterFire (.txTimerFire g) s) t := by
  have hcur : g = s.tx.gen → afterFire (.txTimerFire g) s =
      Function.update (handle s) .tx (false, s.tx.gen) := by
    rintro rfl
    exact afterFire_of_current rfl rfl
  rcases execTxTimerFire_cases h with ⟨hstale, rfl⟩ | ⟨-, hg, -, rfl⟩ |
    ⟨r, -, hg, -, -, -, rfl⟩ | ⟨-, hg, -, -, rfl⟩
  · refine accounts_of_no_event rfl (afterFire_of_stale fun c hf _ => ?_).symm
    cases hf
    exact hstale.resolve_right fun hne => hne rfl
  · rw [hcur hg]
    exact accounts_of_no_event rfl (handle_of_rx_eq rfl)
  · rw [hcur hg]
    exact accounts_withResult (moves_rearmTx (sendsOnly_sendTerminal s r _) rfl rfl rfl)
  · rw [hcur hg]
    exact accounts_of_no_event rfl (handle_of_rx_eq rfl)

theorem execRxTimerFire_accounts {a : Byte} {g : Word} {s t : State}
    (h : execRxTimerFire a g s = .next t) :
    Accounts s.cfg.par (afterFire (.rxTimerFire a g) s) t := by
  unfold execRxTimerFire at h
  split at h
  · rename_i hn
    obtain rfl := raise_next.1 h
    refine accounts_of_no_event rfl (afterFire_of_stale fun c hf hc => ?_).symm
    cases hf
    exact absurd (of_decide_eq_true hc) (Nat.not_lt.2 hn)
  rename_i hn
  split at h
  · rename_i hstale
    obtain rfl := reply_next.1 h
    refine accounts_of_no_event rfl (afterFire_of_stale fun c hf _ => ?_).symm
    cases hf
    exact hstale.resolve_right fun hne => hne rfl
  rename_i hcur
  obtain ⟨harmed, hg⟩ := not_or.1 hcur
  rw [not_not] at hg
  subst hg
  obtain rfl := reply_next.1 h
  have hi : a.toNat < s.rx.length := by
    by_contra hle
    rw [rxSlot_of_le (Nat.le_of_not_lt hle)] at harmed
    exact harmed rfl
  refine accounts_of_no_event rfl ?_
  rw [handle_releaseRx hi]
  exact (afterFire_of_current (c := .rx a.toNat) rfl
    (decide_eq_true (Nat.lt_of_not_le hn))).symm

/-! ### Every command -/

theorem afterFire_of_not_fire {i : Instr} (s : State) (h : firedBy i = none) :
    afterFire i s = handle s :=
  afterFire_of_stale fun c hf _ => by rw [h] at hf; cases hf

theorem exec_tx_accounts {i : Instr} {s t : State} (hi : isTx i = true) (h : exec i s = .next t) :
    Accounts s.cfg.par (afterFire i s) t := by
  cases i with
  | txOutput a d =>
    rw [afterFire_of_not_fire s rfl]
    exact execTxOutput_accounts h
  | txAckInput d =>
    rw [afterFire_of_not_fire s rfl]
    exact execTxAckInput_accounts h
  | txTimerFire g => exact execTxTimerFire_accounts h
  | txAbort =>
    rw [afterFire_of_not_fire s rfl, ← reply_next.1 h]
    exact accounts_withResult (moves_cancelTx rfl rfl rfl)
  | txQuery =>
    rw [afterFire_of_not_fire s rfl, ← reply_next.1 h]
    exact accounts_of_no_event rfl rfl
  | _ => simp [isTx, opcodeOf] at hi

theorem exec_rx_accounts {i : Instr} {s t : State} (hi : isRx i = true) (h : exec i s = .next t) :
    Accounts s.cfg.par (afterFire i s) t := by
  cases i with
  | rxFragInput d =>
    rw [afterFire_of_not_fire s rfl]
    exact execRxFragInput_accounts h
  | rxTimerFire a g => exact execRxTimerFire_accounts h
  | rxAbort a =>
    rw [afterFire_of_not_fire s rfl]
    simp only [exec, execRxAbort] at h
    split at h
    · obtain rfl := raise_next.1 h
      exact accounts_of_no_event rfl rfl
    · obtain rfl := reply_next.1 h
      exact accounts_withResult (moves_releaseRx s a.toNat)
  | rxQuery a =>
    rw [afterFire_of_not_fire s rfl]
    simp only [exec, execRxQuery] at h
    split at h
    · obtain rfl := raise_next.1 h
      exact accounts_of_no_event rfl rfl
    · obtain rfl := reply_next.1 h
      exact accounts_of_no_event rfl rfl
  | _ => simp [isRx, opcodeOf] at hi

theorem firedBy_of_isCodec {i : Instr} (hi : isCodec i = true) : firedBy i = none := by
  cases i with
  | txTimerFire g => simp [isCodec, opcodeOf] at hi
  | rxTimerFire a g => simp [isCodec, opcodeOf] at hi
  | _ => rfl

/-- Every command's events move every handle from the one its fire leaves to the one it leaves
(R264). -/
theorem exec_accounts {i : Instr} {s t : State} (h : exec i s = .next t) :
    Accounts s.cfg.par (afterFire i s) t := by
  rcases instr_family i with rfl | hi | hi | hi
  · rw [exec_nop_next h, afterFire_of_not_fire s rfl]
    exact accounts_of_no_event rfl rfl
  · obtain ⟨u, r, rfl, hu, hev, -⟩ := exec_codec_cases hi h
    obtain ⟨c, rfl⟩ := hu.frame
    rw [afterFire_of_not_fire s (firedBy_of_isCodec hi)]
    exact accounts_of_no_event hev (handle_congr rfl rfl rfl)
  · exact exec_tx_accounts hi h
  · exact exec_rx_accounts hi h

theorem firedBy_tx {i : Instr} {g : Word} : firedBy i = some (.tx, g) ↔ i = .txTimerFire g := by
  cases i <;> simp [firedBy]

theorem firedBy_rx {i : Instr} {j : Nat} {g : Word} :
    firedBy i = some (.rx j, g) ↔ j < 2 ^ 8 ∧ i = .rxTimerFire (BitVec.ofNat 8 j) g := by
  cases i with
  | rxTimerFire a v =>
    simp only [firedBy, Option.some.injEq, Prod.mk.injEq, Conn.rx.injEq, Instr.rxTimerFire.injEq]
    constructor
    · rintro ⟨rfl, rfl⟩
      exact ⟨a.isLt, by simp⟩
    · rintro ⟨hj, rfl, rfl⟩
      exact ⟨by rw [BitVec.toNat_ofNat, Nat.mod_eq_of_lt hj], rfl⟩
  | _ => simp [firedBy]

/-- Settles O16: the handles of TX and of slot `j` among those every command accounts for. -/
theorem timerHandlesFollowEvents : Obligations.TimerHandlesFollowEvents := by
  intro i s t r h hr
  have hmoves := exec_accounts h r hr
  refine ⟨?_, fun j _ => ?_⟩
  · simpa [afterFire, handle, inRange, firedBy_tx, delayOf] using hmoves .tx
  · simpa [afterFire, handle, inRange, firedBy_rx, delayOf, and_assoc, and_left_comm, and_comm]
      using hmoves (.rx j)

/-! ### The schedules at the TimerPort -/

/-- The schedules `p` hold, of connection `c`, the one of its generation while it is armed. -/
def Live (p : List (Conn × Word)) (c : Conn) (h : Bool × Word) : Prop :=
  ∀ v, (c, v) ∈ p ↔ h.1 = true ∧ v = h.2

theorem mem_liveOf {c : Conn} {armed : Bool} {gen : Word} {x : Conn × Word} :
    x ∈ liveOf c armed gen ↔ armed = true ∧ x = (c, gen) := by
  unfold liveOf
  split <;> simp [*]

/-- A slot that is not there is not armed, so it has no schedule. -/
theorem live_liveSchedules (s : State) (c : Conn) : Live (liveSchedules s) c (handle s c) := by
  intro v
  cases c with
  | tx => simp [liveSchedules, mem_liveOf, handle]
  | rx j =>
    by_cases hj : j < s.rx.length
    · simp [liveSchedules, mem_liveOf, handle, hj]
    · simp [liveSchedules, mem_liveOf, handle, hj, rxSlot_of_le (Nat.le_of_not_lt hj),
        RxSlot.reset]

/-- What the events do to a connection's schedules, they do to its handle (R262, R263). -/
theorem live_foldl {c : Conn} {d : Nat} {h h' : Bool × Word} {es : List Event}
    {p : List (Conn × Word)} (hp : Live p c h) (hrun : timerRun c d h es = some h') :
    Live (es.foldl pendingEvent p) c h' := by
  induction es generalizing p h with
  | nil =>
    obtain rfl := Option.some.inj hrun
    exact hp
  | cons e es ih =>
    cases e with
    | send b => exact ih hp hrun
    | sched c' d' g =>
      simp only [timerRun] at hrun
      split at hrun
      · rename_i hc
        subst hc
        split at hrun
        · rename_i hnext
          refine ih (fun v => ?_) hrun
          simp [pendingEvent, hp v, hnext.1]
        · cases hrun
      · rename_i hc
        refine ih (fun v => ?_) hrun
        simp [pendingEvent, hp v, Ne.symm hc]
    | cancel c' =>
      simp only [timerRun] at hrun
      split at hrun
      · rename_i hc
        subst hc
        split at hrun
        · refine ih (fun v => ?_) hrun
          simp [pendingEvent]
        · cases hrun
      · rename_i hc
        refine ih (fun v => ?_) hrun
        simp [pendingEvent, hp v, Ne.symm hc]

theorem inRange_of_armed {s : State} (hlen : s.rx.length = s.cfg.par.nRx) {c : Conn}
    (ha : (handle s c).1 = true) : inRange s.cfg.par c = true := by
  cases c with
  | tx => rfl
  | rx j =>
    by_contra hj
    have hle : s.rx.length ≤ j := by simpa [inRange, hlen] using hj
    simp [handle, rxSlot_of_le hle, RxSlot.reset] at ha

/-- A fire consumes a connection's schedule exactly where it disarms it (R264). -/
theorem live_fired {i : Instr} {s : State} (hlen : s.rx.length = s.cfg.par.nRx) (c : Conn) :
    Live ((liveSchedules s).filter (fun x => some x ≠ firedBy i)) c (afterFire i s c) := by
  intro v
  simp only [List.mem_filter, live_liveSchedules s c v, decide_eq_true_eq, afterFire]
  constructor
  · rintro ⟨⟨ha, rfl⟩, hne⟩
    exact ⟨by rw [if_neg fun hf => hne hf.1.symm]; exact ha, rfl⟩
  · rintro ⟨ha, rfl⟩
    split at ha
    · cases ha
    · rename_i hf
      exact ⟨⟨ha, rfl⟩, fun he => hf ⟨he.symm, inRange_of_armed hlen ha⟩⟩

/-- Settles O60: the schedules at the TimerPort follow the handles, before, at the fire and at every
event. -/
theorem liveSchedulesFollowEvents : Obligations.LiveSchedulesFollowEvents := by
  rintro i s t r hlen h hr ⟨c, v⟩
  have hafter := live_foldl (live_fired hlen c) (exec_accounts h r hr c)
  exact (hafter v).trans (live_liveSchedules t c v).symm

end Sys2Proof.Machine
end

section
/-!
Proofs of the family 30_encoding, the messages (spec/30_encoding.md R89 to R92): the tiles of a message,
the fragments RX parses, and the ACK TX reads.
-/

namespace Sys2Proof.Machine

open Sys2Proof.Safety

/-! ### Tiles -/

theorem flatMap_tileOf (tb : Nat) (d : List Byte) (k : Nat) :
    (List.range k).flatMap (tileOf tb d) = (unpack d).take (k * tb) := by
  induction k with
  | zero => simp
  | succ k ih => simp [List.range_succ, ih, tileOf, Nat.succ_mul, List.take_add]

theorem tileOf_length (tb : Nat) (d : List Byte) (j : Nat) :
    (tileOf tb d j).length = min tb (8 * d.length - j * tb) := by
  simp [tileOf]

/-- Tile `j` of a message begins before its end (R171). -/
theorem tile_start_lt {mtu : Nat} {r : FragRule} {len j : Nat} (h : mtuFits mtu r)
    (hj : j < tileCount mtu r len) : j * tileBits mtu r < 8 * len := by
  have htb := tileBits_pos h
  rcases Nat.eq_zero_or_pos len with rfl | hlen
  · have h0 : tileCount mtu r 0 = 0 := Nat.div_eq_of_lt (by omega)
    omega
  · have hlast := (tileCount_spec len h).2 hlen
    have hle : j * tileBits mtu r ≤ (tileCount mtu r len - 1) * tileBits mtu r :=
      Nat.mul_le_mul_right _ (by omega)
    omega

/-- A tile but the last is full (R171). -/
theorem tileOf_length_of_not_last {mtu : Nat} {r : FragRule} {d : List Byte} {j : Nat}
    (h : mtuFits mtu r) (hj : j + 1 < tileCount mtu r d.length) :
    (tileOf (tileBits mtu r) d j).length = tileBits mtu r := by
  have hnext := tile_start_lt h hj
  rw [Nat.succ_mul] at hnext
  rw [tileOf_length]
  omega

/-- A regular fragment is its header and its tile, packed (R89). -/
theorem fragment_length (mtu : Nat) (r : FragRule) (dtag : Nat) (d : List Byte) (j : Nat) :
    (fragment mtu r dtag d j).length = (hdrBits r + (tile mtu r d j).length + 7) / 8 := by
  simp [fragment, pack_length, hdrBits, Nat.add_assoc]

/-- Settles O40: the tiles are consecutive cuts of the message's bits, of which the last alone may be
short. -/
theorem tilesMakeTheMessage : Obligations.TilesMakeTheMessage := by
  intro mtu r d hfit
  have htb := tileBits_pos hfit
  have hall := (tileCount_spec d.length hfit).1
  have htile : tile mtu r d = tileOf (tileBits mtu r) d :=
    funext fun j => (tileOf_eq_tile mtu r d j).symm
  dsimp only
  rw [htile]
  refine ⟨?_, fun j hj => tileOf_length_of_not_last hfit hj, fun j hj => ?_, fun dtag j hj => ?_⟩
  · exact (flatMap_tileOf _ d (tileCount mtu r d.length)).trans
      (List.take_of_length_le (by rwa [unpack_length]))
  · have hstart := tile_start_lt (len := d.length) hfit (Nat.lt_of_succ_le hj.le)
    rw [tileOf_length]
    exact ⟨Nat.le_min.2 ⟨htb, by omega⟩, Nat.min_le_left _ _⟩
  · rw [fragment_length, htile, tileOf_length_of_not_last hfit hj, tileBits]
    have := hfit.1
    omega

/-! ### Fields of a message -/

/-- A field that stands after `p` bits is read as written (R10, R11). -/
theorem valAt_field {s : Bits} {p n v : Nat} (hp : s.length = p) (hv : v < 2 ^ n) (u : Bits) :
    valAt (s ++ (bitsOf n v ++ u)) p n = v := by
  have h := valAt_append s (bitsOf n v) u
  rwa [hp, bitsOf_length, valOf_bitsOf_of_lt hv] at h

theorem fragHeader_length (r : FragRule) (dtag w fcn : Nat) :
    (fragHeader r dtag w fcn).length = hdrBits r := by
  simp [fragHeader, hdrBits, Nat.add_assoc]

section
variable {r : FragRule} {dtag w fcn : Nat} (u : Bits)

theorem valAt_fragHeader_ruleId (h : r.rid.ruleId < 2 ^ r.rid.ridw) :
    valAt (fragHeader r dtag w fcn ++ u) 0 r.rid.ridw = r.rid.ruleId := by
  simpa [fragHeader] using valAt_field (s := []) rfl h _

theorem valAt_fragHeader_dtag (h : dtag < 2 ^ r.t) :
    valAt (fragHeader r dtag w fcn ++ u) r.rid.ridw r.t = dtag := by
  simpa [fragHeader] using valAt_field (s := bitsOf r.rid.ridw r.rid.ruleId) (by simp) h _

theorem valAt_fragHeader_w (h : w < 2 ^ r.m) :
    valAt (fragHeader r dtag w fcn ++ u) (r.rid.ridw + r.t) r.m = w := by
  simpa [fragHeader] using
    valAt_field (s := bitsOf r.rid.ridw r.rid.ruleId ++ bitsOf r.t dtag) (by simp) h _

theorem valAt_fragHeader_fcn (h : fcn < 2 ^ r.n) :
    valAt (fragHeader r dtag w fcn ++ u) (r.rid.ridw + r.t + r.m) r.n = fcn := by
  simpa [fragHeader] using
    valAt_field (s := bitsOf r.rid.ridw r.rid.ruleId ++ bitsOf r.t dtag ++ bitsOf r.m w)
      (by simp [Nat.add_assoc]) h _

end

/-! ### Fragments on the wire -/

/-- Parse (R212) under the first rule that opens the message. -/
theorem parseFrag_of_first {cfg : Config} {b : Bits} {ri : Nat} {r : FragRule}
    (hr : cfg.ctx.frag[ri]? = some r) (hopen : opensWith (otherDir cfg.par.txDir) b r)
    (hfirst : ∀ n < ri, ∀ g, cfg.ctx.frag[n]? = some g → ¬ opensWith (otherDir cfg.par.txDir) b g)
    (hok : fragRuleOk r) (hlen : hdrBits r ≤ b.length) :
    parseFrag cfg b = .ok ((parseBody r b).map fun body =>
      { ri := ri, rule := r, dt := valAt b r.rid.ridw r.t,
        w := valAt b (r.rid.ridw + r.t) r.m, body := body }) := by
  obtain ⟨hlt, hget⟩ := List.getElem?_eq_some_iff.1 hr
  have hfind : cfg.ctx.frag.findIdx?
      (fun r => decide (opensWith (otherDir cfg.par.txDir) b r)) = some ri := by
    refine List.findIdx?_eq_some_iff_getElem.2 ⟨hlt, ?_, fun n hn => ?_⟩
    · rw [hget]
      exact decide_eq_true hopen
    · simpa only [decide_eq_true_eq] using
        hfirst n hn _ (List.getElem?_eq_getElem (hn.trans hlt))
  rw [parseFrag, hfind]
  simp only [hr, not_not.2 hok, Nat.not_lt.2 hlen, if_false]

/-- A message that begins with a fragment header parses as that header says, with what `parseBody` makes
of the rest (R89, R90, R212). -/
theorem parseFrag_fragHeader {cfg : Config} {ri : Nat} {r : FragRule} {dtag w fcn : Nat} {u : Bits}
    (hr : cfg.ctx.frag[ri]? = some r) (hsv : serves r (otherDir cfg.par.txDir))
    (hok : fragRuleOk r) (hdt : dtag < 2 ^ r.t) (hw : w < 2 ^ r.m)
    (hfirst : ∀ n < ri, ∀ g, cfg.ctx.frag[n]? = some g →
      ¬ opensWith (otherDir cfg.par.txDir) (fragHeader r dtag w fcn ++ u) g) :
    parseFrag cfg (fragHeader r dtag w fcn ++ u) =
      .ok ((parseBody r (fragHeader r dtag w fcn ++ u)).map fun body =>
        { ri := ri, rule := r, dt := dtag, w := w, body := body }) := by
  have hlen : hdrBits r ≤ (fragHeader r dtag w fcn ++ u).length := by
    rw [List.length_append, fragHeader_length]
    omega
  have hrid : r.rid.ridw ≤ hdrBits r := by
    unfold hdrBits
    omega
  have hopen : opensWith (otherDir cfg.par.txDir) (fragHeader r dtag w fcn ++ u) r :=
    ⟨hsv, hrid.trans hlen, valAt_fragHeader_ruleId u hok.2.1⟩
  rw [parseFrag_of_first hr hopen hfirst hok hlen, valAt_fragHeader_dtag u hdt,
    valAt_fragHeader_w u hw]

/-- The FCN of a regular fragment gives its position, and its tile is all that follows (R89, R212). -/
theorem parseBody_regular {r : FragRule} {dtag w q : Nat} {tl : Bits} (hok : fragRuleOk r)
    (hq : q < r.ws) (htl : tl ≠ []) :
    parseBody r (fragHeader r dtag w (r.ws - 1 - q) ++ tl) = some (.reg q tl) := by
  obtain ⟨-, -, -, -, -, ⟨-, hws⟩, -, -, -⟩ := hok
  have hdrop : (fragHeader r dtag w (r.ws - 1 - q) ++ tl).drop (hdrBits r) = tl :=
    List.drop_left' (fragHeader_length r dtag w _)
  simp only [parseBody, valAt_fragHeader_fcn tl (show r.ws - 1 - q < 2 ^ r.n by omega), hdrop]
  rw [if_neg (by omega), if_pos (by omega), if_neg htl,
    show r.ws - 1 - (r.ws - 1 - q) = q by omega]

/-- The All-1 FCN is followed by the MIC, whatever comes after it (R90, R212). -/
theorem parseBody_allOne {r : FragRule} {dtag w : Nat} (mic : Word) (u : Bits) :
    parseBody r (fragHeader r dtag w (2 ^ r.n - 1) ++ (bitsOf micW mic.toNat ++ u)) =
      some (.all1 mic) := by
  have hfcn : 2 ^ r.n - 1 < 2 ^ r.n := Nat.sub_lt (Nat.two_pow_pos _) Nat.one_pos
  have hmic := valAt_field (fragHeader_length r dtag w (2 ^ r.n - 1)) (n := micW) mic.isLt u
  simp only [parseBody, valAt_fragHeader_fcn _ hfcn, if_true, hmic, BitVec.ofNat_toNat,
    BitVec.setWidth_eq]
  rw [if_neg (by simp only [List.length_append, fragHeader_length, bitsOf_length]; omega)]

/-- The padding of `pack` (R12). -/
theorem unpack_pack_zeros (s : Bits) :
    unpack (pack s) = s ++ zeros ((8 - s.length % 8) % 8) := by
  rw [unpack_pack, zeros, show 8 * ((s.length + 7) / 8) - s.length = (8 - s.length % 8) % 8 by omega]

/-- Settles O41: both messages begin with their fragment header. -/
theorem wireFormatIsParsed : Obligations.WireFormatIsParsed := by
  intro cfg ri r dtag w hr hsv hok hdt hw
  refine ⟨fun q tl hq htl => ?_, fun mic extra => ?_⟩
  · intro b hfirst
    have hb : unpack (pack b) = fragHeader r dtag w (r.ws - 1 - q) ++
        (tl ++ zeros ((8 - b.length % 8) % 8)) :=
      (unpack_pack_zeros b).trans (List.append_assoc ..)
    rw [hb] at hfirst ⊢
    rw [parseFrag_fragHeader hr hsv hok hdt hw hfirst, parseBody_regular hok hq (by simp [htl])]
    rfl
  · intro b hfirst
    have hb : unpack (pack b) = fragHeader r dtag w (2 ^ r.n - 1) ++
        (bitsOf micW mic.toNat ++ (extra ++ zeros ((8 - b.length % 8) % 8))) := by
      simp [unpack_pack_zeros, b, fragHeader, micW]
    rw [hb] at hfirst ⊢
    rw [parseFrag_fragHeader hr hsv hok hdt hw hfirst, parseBody_allOne]
    rfl

/-! ### ACKs -/

/-- The bits of an ACK before C (R91). -/
def ackBits (r : FragRule) (dtag w : Nat) (bm : Bits) : Bits :=
  bitsOf r.rid.ridw r.rid.ruleId ++ bitsOf r.t dtag ++ bitsOf r.m w ++ bm

theorem sendAck_eq (r : FragRule) (dtag : Byte) (w : Nat) (bm : Bits) (c : Option Bool) :
    sendAck r dtag w bm c = .send (pack (ackBits r dtag.toNat w bm ++ c.toList)) := rfl

theorem ackBits_length {r : FragRule} {dtag w : Nat} {bm : Bits} (h : bm.length = r.ws) :
    (ackBits r dtag w bm).length = ackNeed r := by
  simp [ackBits, ackNeed, h, Nat.add_assoc]

/-- The fields of an ACK as TX reads them, whatever follows the bitmap (R180). -/
theorem ackFields_ackBits {r : FragRule} {dtag w : Nat} {bm : Bits} (hw : w < 2 ^ r.m)
    (hbm : bm.length = r.ws) (u : Bits) :
    ackFields r (ackBits r dtag w bm ++ u) = { w := w, bm := bm, c := u.getD 0 false } := by
  have hwin : valAt (ackBits r dtag w bm ++ u) (r.rid.ridw + r.t) r.m = w := by
    simpa [ackBits] using
      valAt_field (s := bitsOf r.rid.ridw r.rid.ruleId ++ bitsOf r.t dtag) (by simp) hw (bm ++ u)
  have hmap : ((ackBits r dtag w bm ++ u).drop (r.rid.ridw + r.t + r.m)).take r.ws = bm := by
    rw [ackBits, List.append_assoc _ bm u, List.drop_left' (by simp [Nat.add_assoc]),
      List.take_left' hbm]
  have hc : (ackBits r dtag w bm ++ u).getD (ackNeed r) false = u.getD 0 false := by
    rw [← ackBits_length hbm, List.getD_append_right _ _ _ _ (Nat.le_refl _), Nat.sub_self]
  rw [ackFields, hwin, hmap, hc]

/-- Settles O42: TX reads the packed bits from the front, so the padding matters only where no C was
sent. -/
theorem ackFormatIsRead : Obligations.AckFormatIsRead := by
  intro s r w bm c bytes hok hdt hw hbm hwl hwin hc hsend
  rw [sendAck_eq, Event.send.injEq] at hsend
  subst hsend
  obtain ⟨pad, hbits⟩ : ∃ pad, unpack (pack (ackBits r s.tx.dtag.toNat w bm ++ c.toList)) =
      ackBits r s.tx.dtag.toNat w bm ++ (c.toList ++ pad) :=
    ⟨_, (unpack_pack_zeros _).trans (List.append_assoc ..)⟩
  rw [hbits, ackAccepted, ackFields_ackBits hw hbm]
  refine ⟨⟨?_, ?_, ?_, hwl, hwin, fun hlast => ?_⟩, rfl, rfl, ?_⟩
  · rw [List.length_append, ackBits_length hbm]
    omega
  · simpa [ackBits] using valAt_field (s := []) rfl hok.2.1 _
  · simpa [ackBits] using valAt_field (s := bitsOf r.rid.ridw r.rid.ruleId) (by simp) hdt _
  · obtain ⟨v, rfl⟩ := Option.ne_none_iff_exists'.1 (hc hlast)
    simp [ackBits_length hbm]
  · rintro v rfl
    rfl

end Sys2Proof.Machine
end

section
/-!
Proofs of the family 30_encoding, the ACK of a window (spec/30_encoding.md R91, spec/42_rx.md R216,
R219): the slot a tile is stored in, and the bitmap that answers the All-0.
-/

namespace Sys2Proof.Machine

open Sys2Proof.Safety

/-! ### A tile stored -/

/-- RX_RCVD after a tile arrived (canonical stores, R216). -/
theorem RxSlot.rcvdBit_accept {x : RxSlot} (h : Store.Wf false x.rcvd) (r : FragRule) (p q : Nat)
    (tl : Bits) :
    (x.accept r p tl).rcvdBit q = if q = p then true else x.rcvdBit q := by
  rcases RxSlot.accept_cases x r p tl with ⟨-, ha⟩ | ⟨-, hb, ha⟩ | ⟨-, -, ha⟩
  · rw [ha]
    exact RxSlot.rcvdBit_store h p q tl
  · rw [ha]
    split
    · rename_i hq
      rw [hq, hb]
    · rfl
  · rw [ha, RxSlot.rcvdBit_store h]

/-- RX_TILE after a tile arrived (canonical stores, R216): a received position keeps its first tile. -/
theorem RxSlot.tileAt_accept {x : RxSlot} (h : Store.Wf [] x.tile) (r : FragRule) (p q : Nat)
    (tl : Bits) :
    (x.accept r p tl).tileAt q =
      if q = p ∧ (noAck0 r ∨ x.rcvdBit p = false) then tl else x.tileAt q := by
  rcases RxSlot.accept_cases x r p tl with ⟨hn, ha⟩ | ⟨hn, hb, ha⟩ | ⟨-, hb, ha⟩
  · rw [ha, if_congr (and_iff_left (.inl hn)) rfl rfl]
    exact RxSlot.tileAt_store h p q tl
  · rw [ha, if_neg (by simp [hn, hb])]
  · rw [ha, if_congr (and_iff_left (.inr hb)) rfl rfl]
    exact RxSlot.tileAt_store h p q tl

theorem RxSlot.accept_nAppend (x : RxSlot) (r : FragRule) (p : Nat) (tl : Bits) :
    (x.accept r p tl).nAppend = if noAck0 r then x.nAppend + 1 else x.nAppend := by
  rcases RxSlot.accept_cases x r p tl with ⟨hn, ha⟩ | ⟨hn, -, ha⟩ | ⟨hn, -, ha⟩
  · rw [ha, if_pos hn]
  · rw [ha, if_neg hn]
  · rw [ha, if_neg hn, RxSlot.store_nAppend]

/-- Accepting a tile and arming the timer is what R216 says. -/
theorem tileStored_accept {p : Params} {x : RxSlot} (h : SlotStoresOk p x) (r : FragRule) (n : Nat)
    (tl : Bits) : TileStored r n tl x (x.accept r n tl).arm := by
  obtain ⟨hr, ht, -, -, -⟩ := h
  refine ⟨?_, fun q => RxSlot.rcvdBit_accept hr r n q tl, fun q => RxSlot.tileAt_accept ht r n q tl⟩
  rw [← RxSlot.accept_nAppend x r n tl, RxSlot.arm, RxSlot.accept_eq]

/-! ### The ACK of a window -/

theorem isBitmap_windowMap (s : State) (i : Nat) (r : FragRule) (w : Nat) :
    IsBitmap (windowMap s i r w) r.ws (fun q => !rcvdAt s i (w * r.ws + q)) :=
  ⟨by simp [windowMap], fun q hq => by simp [windowMap, hq]⟩

/-- A bitmap that is not all zeros marks a position. -/
theorem ne_zeros_iff {bm : Bits} {n : Nat} (h : bm.length = n) : bm ≠ zeros n ↔ true ∈ bm := by
  rw [zeros, ne_eq, List.eq_replicate_iff]
  simp [h]

/-- WindowEval (R219) answers ONGOING; the ACK is sent in ACK_ALWAYS, and where it marks a position. -/
theorem windowEval_eq (r : FragRule) (i w : Nat) (evs : List Event) (s : State) :
    windowEval r i w evs s = reply s (slotResult .ongoing i (evs ++
      if r.mode = 1 ∨ true ∈ windowMap s i r w then
        [sendAck r (rxSlot s i).dtag w (windowMap s i r w) none] else [])) := by
  have hmarks := ne_zeros_iff (isBitmap_windowMap s i r w).1
  simp only [windowEval, isAckAlways, hmarks]
  split
  · rfl
  · rw [List.append_nil]

/-- The All-0 of a window in an ACK mode, on a slot without its All-1 and within its storage (R216). -/
theorem rxRegular_allZero {r : FragRule} {w i : Nat} {tl : Bits} {evs : List Event} {s : State}
    (hmode : r.mode ≠ 0) (hall1 : (rxSlot s i).all1 = false)
    (hp : w * r.ws + (r.ws - 1) < s.cfg.par.rxMaxSlots) (htl : tl.length ≤ s.cfg.par.rxTileBits) :
    rxRegular r w (r.ws - 1) tl i evs s =
      windowEval r i w (evs ++ armRxEvents s i (rxSlot s i))
        (setRx s i ((rxSlot s i).accept r (w * r.ws + (r.ws - 1)) tl).arm) := by
  have hn : ¬ noAck0 r := fun h => hmode h.1
  have hfits : ¬ beyondStorage s (w * r.ws + (r.ws - 1)) tl :=
    not_or.2 ⟨Nat.not_le.2 hp, Nat.not_lt.2 htl⟩
  simp only [rxRegular, tilePos, if_neg hn, hall1, if_neg hfits, if_neg hmode, if_true,
    Bool.false_eq_true, false_and, and_false, if_false]

/-- Settles O54: the All-0 stores its tile and runs WindowEval on the slot it leaves. -/
theorem rxWindowAcknowledged : Obligations.RxWindowAcknowledged := by
  intro d s f i tl hparse hconn hstores hst hbody hmode hall1
  dsimp only
  intro hp htl
  refine ⟨_, _, tileStored_accept hstores f.rule _ tl, isBitmap_windowMap _ i f.rule f.w, ?_⟩
  calc exec (.rxFragInput d) s
      = rxDeliver f i [] s :=
        (execRxFragInput_of_parse hparse).trans (rxAccept_of_recv hconn hst)
    _ = rxRegular f.rule f.w (f.rule.ws - 1) tl i [] s := by rw [rxDeliver, hbody]
    _ = windowEval f.rule i f.w _ _ := rxRegular_allZero hmode hall1 hp htl
    _ = _ := by
        rw [windowEval_eq, rxSlot_setRx_self _ (findConn_some hconn).1, RxSlot.arm_dtag,
          RxSlot.accept_dtag]
        rfl

end Sys2Proof.Machine
end

section
/-!
Proofs of the family 40_codec, the BitBuffer commands and the field value (spec/40_codec.md R121,
R122, R126 to R135): what a write and a read at POS leave, and the answer of each command.
-/

namespace Sys2Proof.Machine

open Sys2Proof.Safety

/-! ### Bits and bytes -/

theorem Memory.bit_ofBytes (d : List Byte) (p : Nat) :
    Memory.bit (Memory.ofBytes 0 d) p = byteBit d p := by
  rw [Memory.bit, Memory.readByte_ofBytes 0 d _ (Nat.zero_le _)]
  rfl

theorem Memory.bit_nil (p : Nat) : Memory.bit [] p = false := by
  simp [Memory.bit, Memory.readByte, unlistedByte]

theorem Memory.bitRead_getD (m : List Host.Cell) (p n j : Nat) :
    (Memory.bitRead m p n).getD j false = (decide (j < n) && Memory.bit m (p + j)) := by
  rcases lt_or_ge j n with hj | hj
  · rw [List.getD_eq_getElem _ _ (by simpa using hj), Memory.bitRead_getElem]
    simp [hj]
  · rw [List.getD_eq_default _ _ (by simpa using hj)]
    simp [hj]

/-- Bit `j` of the value of `n` bits of CBUF is the one at `n - 1 - j`, the first most significant
(R10). -/
theorem testBit_valOf_bitRead (m : List Host.Cell) (p n j : Nat) :
    (valOf (Memory.bitRead m p n)).testBit j =
      (decide (j < n) && Memory.bit m (p + (n - 1 - j))) := by
  rcases lt_or_ge j n with hj | hj
  · have hlen : n - 1 - j < (Memory.bitRead m p n).length := by
      rw [Memory.bitRead_length]
      omega
    have hbit := testBit_valOf _ _ hlen
    rw [Memory.bitRead_getElem, Memory.bitRead_length,
      show n - 1 - (n - 1 - j) = j by omega] at hbit
    simp [hbit, hj]
  · have hlt := valOf_lt (Memory.bitRead m p n)
    rw [Memory.bitRead_length] at hlt
    rw [Nat.testBit_lt_two_pow (hlt.trans_le (Nat.pow_le_pow_right (by omega) hj))]
    simp [hj]

theorem unpack_eq_bitsOf (d : List Byte) : unpack d = bitsOf (8 * d.length) (bigEndian d) := by
  rw [← valOf_unpack, bitsOf_valOf_of_length (unpack_length d)]

/-- A whole number of bytes is packed without padding (R12). -/
theorem bigEndian_pack_bitsOf (n v : Nat) :
    bigEndian (pack (bitsOf (8 * n) v)) = v % 2 ^ (8 * n) := by
  have hpad : 8 * ((8 * n + 7) / 8) - 8 * n = 0 := by omega
  rw [← valOf_unpack, unpack_pack, bitsOf_length, hpad, List.replicate_zero, List.append_nil,
    valOf_bitsOf]

/-! ### Writes and reads at POS -/

theorem fitsWrite_lt {s : State} {n : Nat} (hp : paramsOk s.cfg.par) (h : fitsWrite s n) :
    s.cod.pos.toNat + n < 2 ^ 32 := by
  obtain ⟨-, -, -, -, -, -, ⟨-, hcap⟩, -, -⟩ := hp
  simp only [fitsWrite, cbufBits] at h
  omega

theorem wrote_writeAtPos {s : State} (hp : paramsOk s.cfg.par) (hwf : Memory.wf s.cod.cbuf)
    {n : Nat} (v : Nat) (hfit : fitsWrite s n) (r : CmdResult) :
    Wrote s (withResult (writeAtPos s (bitsOf n v)) r) n v := by
  have hlt : s.cod.pos.toNat + (bitsOf n v).length < 2 ^ 32 := by
    rw [bitsOf_length]
    exact fitsWrite_lt hp hfit
  refine ⟨rfl, ?_, ?_, fun p => ?_⟩
  · rw [withResult_cod, writeAtPos_pos_toNat hlt, bitsOf_length]
  · rw [withResult_cod, writeAtPos_cbLen_toNat hlt, bitsOf_length]
  · rw [withResult_cod, bit_writeAtPos hwf, bitsOf_length]
    refine if_ctx_congr Iff.rfl (fun hin => ?_) fun _ => rfl
    rw [bitsOf_getD v (by omega)]
    congr 1
    omega

/-- A command that writes `n` bits of `v` where they fit CBUF, and else answers ERR_RANGE (R121,
R125). -/
theorem wrote_or_errRange {s : State} (hp : paramsOk s.cfg.par) (hwf : Memory.wf s.cod.cbuf)
    {n v : Nat} {r : CmdResult} {ans : Answer}
    (hans : ans = if ¬ fitsWrite s n then raise s .errRange
      else reply (writeAtPos s (bitsOf n v)) r) :
    if 8 * s.cfg.par.cbufBytes < s.cod.pos.toNat + n then
      ans = .next (withResult s (CmdResult.plain .errRange))
    else ∃ t, ans = .next t ∧ Wrote s t n v ∧ t.result = some r := by
  split
  · rename_i hover
    exact hans.trans (if_pos (Nat.not_le.2 hover))
  · rename_i hfit
    rw [Nat.not_lt] at hfit
    exact ⟨_, hans.trans (if_neg (not_not.2 hfit)), wrote_writeAtPos hp hwf v hfit r, rfl⟩

theorem fitsRead_lt {s : State} {n : Nat} (h : fitsRead s n) : s.cod.pos.toNat + n < 2 ^ 32 :=
  Nat.lt_of_le_of_lt h s.cod.cbLen.isLt

theorem moved_advancePos {s : State} {n : Nat} (h : fitsRead s n) (r : CmdResult) :
    Moved s (withResult (advancePos s n) r) n :=
  ⟨rfl, advancePos_pos_toNat (fitsRead_lt h)⟩

/-! ### The obligations -/

/-- Settles O24: CB_LOAD's bytes fit the 32 bits of CB_LEN, since `CBUF_BYTES` is at most
`2 ^ 28`. -/
theorem cbLoadClearAndSeek : Obligations.CbLoadClearAndSeek := by
  refine ⟨fun d s hcfg => ?_, fun s => ?_, fun p s => ?_⟩
  · obtain ⟨⟨-, -, -, -, -, -, ⟨-, hcap⟩, -, -⟩, -⟩ := hcfg
    split
    · exact if_pos ‹_›
    · refine ⟨_, if_neg ‹_›, rfl, rfl, ?_, rfl, Memory.bit_ofBytes d, rfl⟩
      exact Nat.mod_eq_of_lt (by omega)
  · exact ⟨_, rfl, rfl, rfl, rfl, rfl, Memory.bit_nil, rfl⟩
  · split
    · exact if_pos ‹_›
    · exact if_neg ‹_›

/-- Settles O25: DATA_IN is the bit string of its big-endian value, so both commands write
`bits(v, n)` at POS. -/
theorem cbWriteAndAppendStoreBits : Obligations.CbWriteAndAppendStoreBits := by
  rintro s ⟨hpar, -⟩ ⟨hwf, -⟩
  refine ⟨fun a v => ?_, fun d => wrote_or_errRange hpar hwf ?_⟩
  · by_cases ha : 32 < a.toNat
    · rw [if_pos (.inl ha)]
      exact if_pos ha
    · simp only [ha, false_or]
      exact wrote_or_errRange hpar hwf (if_neg ha)
  · rw [← unpack_eq_bitsOf]
    rfl

/-- Settles O26: the value of at most 32 bits fits R0, bit by bit. -/
theorem cbReadReturnsBits : Obligations.CbReadReturnsBits := by
  intro a s
  split
  · rename_i hbad
    by_cases ha : 32 < a.toNat
    · exact if_pos ha
    · exact (if_neg ha).trans (if_pos (Nat.not_le.2 (hbad.resolve_left ha)))
  · rename_i hok
    obtain ⟨ha, hfit⟩ := not_or.1 hok
    rw [Nat.not_lt] at ha hfit
    refine ⟨_, _, exec_cbRead_of_fits ha hfit, moved_advancePos hfit _, rfl, rfl, ?_,
      fun j _ => ?_⟩
    · exact (toNat_ofNat_valOf_bitsAtPos ha).trans (valOf_bitRead _ _ _)
    · rw [BitVec.getLsbD, toNat_ofNat_valOf_bitsAtPos ha]
      exact testBit_valOf_bitRead _ _ _ _

/-- Settles O28: both pack the bits read, and the padding of `pack` is 0. -/
theorem cbUnloadAndTail : Obligations.CbUnloadAndTail := by
  rintro s ⟨hpos, -⟩
  refine ⟨⟨_, rfl, rfl, ?_, fun p => ?_⟩, _, rfl, rfl, ?_, ?_, fun p => ?_⟩
  · rw [pack_length, Memory.bitRead_length]
  · rw [byteBit_pack, Memory.bitRead_getD, Nat.zero_add]
  · exact BitVec.toNat_sub_of_le hpos
  · rw [pack_length, bitsAtPos, Memory.bitRead_length]
  · rw [byteBit_pack, bitsAtPos, Memory.bitRead_getD]

/-- Settles O29: `val` of the unpacked bytes is their big-endian value, and FV_STORE packs whole
bytes. -/
theorem fvLoadAndStore : Obligations.FvLoadAndStore := by
  refine ⟨fun d s => ?_, fun a s => ?_⟩
  · split
    · exact if_pos ‹_›
    · rw [← valOf_unpack]
      exact if_neg ‹_›
  · split
    · exact if_pos ‹_›
    · refine ⟨_, if_neg ‹_›, rfl, ?_, ?_, bigEndian_pack_bitsOf _ _⟩
      · exact Nat.mod_eq_of_lt (a.isLt.trans (by decide))
      · rw [pack_length, bitsOf_length]
        omega

end Sys2Proof.Machine
end

section
/-!
Proofs of the family 40_codec, the field descriptors (spec/40_codec.md R123, R124, R136 to R138,
R143): the shared checks, the answer of each command on an applicable descriptor, and the round trip.
-/

namespace Sys2Proof.Machine

open Sys2Proof.Safety

/-! ### Target values -/

theorem targetIndex_eq_some_iff {f : FieldDesc} {v n : Nat} :
    targetIndex f v = some n ↔ f.tv[n]? = some v ∧ ∀ k < n, f.tv[k]? ≠ some v := by
  rw [targetIndex, List.findIdx?_eq_some_iff_getElem]
  constructor
  · rintro ⟨hn, heq, hmin⟩
    refine ⟨by simpa [hn] using heq, fun k hk => ?_⟩
    have hkn : k < f.tv.length := hk.trans hn
    simpa [hkn] using hmin k hk
  · rintro ⟨hn, hmin⟩
    obtain ⟨hlt, heq⟩ := List.getElem?_eq_some_iff.1 hn
    refine ⟨hlt, by simpa using heq, fun k hk => ?_⟩
    have hkn : k < f.tv.length := hk.trans hlt
    simpa [hkn] using hmin k hk

theorem targetIndex_eq_none_iff {f : FieldDesc} {v : Nat} : targetIndex f v = none ↔ v ∉ f.tv := by
  rw [targetIndex, List.findIdx?_eq_none_iff]
  simp only [beq_eq_false_iff_ne]
  exact ⟨fun h hv => h v hv rfl, fun h x hx hxv => h (hxv ▸ hx)⟩

theorem target0_of_getElem? {f : FieldDesc} {v : Nat} (h : f.tv[0]? = some v) : target0 f = v := by
  simp [target0, List.head?_eq_getElem?, h]

/-- Every operator but MATCHMAP has one target value (R44). -/
theorem getElem?_target0 {p : Params} {f : FieldDesc} (h : fieldDescOk p f) (hmo : f.mo ≠ 3) :
    f.tv[0]? = some (target0 f) := by
  obtain ⟨-, -, -, -, -, hlen, -⟩ := h
  rw [targetCount, if_neg hmo] at hlen
  obtain ⟨v, hv⟩ := List.length_eq_one_iff.1 hlen
  simp [target0, hv]

/-- Under MATCHMAP an index is below `x` (R44). -/
theorem lt_x_of_getElem? {p : Params} {f : FieldDesc} (h : fieldDescOk p f) (hmo : f.mo = 3)
    {n v : Nat} (hn : f.tv[n]? = some v) : n < f.x := by
  obtain ⟨-, -, -, -, -, hlen, -⟩ := h
  rw [targetCount, if_pos hmo] at hlen
  exact hlen ▸ (List.getElem?_eq_some_iff.1 hn).1

theorem matchmap_of_mappingSent {p : Params} {f : FieldDesc} (h : fieldDescOk p f)
    (hcda : f.cda = 2) : f.mo = 3 := by
  obtain ⟨-, -, -, -, -, -, -, hmap, -⟩ := h
  exact hmap hcda

theorem msb_of_lsb {p : Params} {f : FieldDesc} (h : fieldDescOk p f) (hcda : f.cda = 3) :
    f.mo = 2 := by
  obtain ⟨-, -, -, -, -, -, -, -, hlsb⟩ := h
  exact hlsb hcda

/-- The codes of R44, by name of the spec: NOT-SENT, VALUE-SENT, MAPPING-SENT, LSB and COMPUTE-*. -/
theorem cda_cases {p : Params} {f : FieldDesc} (h : fieldDescOk p f) :
    f.cda = 0 ∨ f.cda = 1 ∨ f.cda = 2 ∨ f.cda = 3 ∨ f.cda = 4 ∨ f.cda = 5 := by
  obtain ⟨-, -, hcda, -⟩ := h
  generalize f.cda = c at hcda
  revert c
  decide

/-- The top of a number and its low `w` bits (R138, LSB). -/
theorem shiftRight_shiftLeft_or {v w : Nat} (t : Nat) (hv : v < 2 ^ w) :
    (t >>> w) <<< w ||| v = t / 2 ^ w * 2 ^ w + v := by
  rw [← Nat.shiftLeft_add_eq_or_of_lt hv, Nat.shiftLeft_eq, Nat.shiftRight_eq_div_pow]

/-! ### The shared checks -/

theorem fdCheck_direction {s : State} {a b : Byte} (h : b ≠ 1 ∧ b ≠ 2) :
    fdCheck s a b = .error .errReserved := if_pos h

theorem fdCheck_missing {s : State} {a b : Byte} (hb : b = 1 ∨ b = 2)
    (h : s.cfg.ctx.fd[a.toNat]? = none) : fdCheck s a b = .error .errLookup := by
  rw [fdCheck, if_neg (by tauto), h]

theorem fdCheck_of_getElem? {s : State} {a b : Byte} {f : FieldDesc} (hb : b = 1 ∨ b = 2)
    (h : s.cfg.ctx.fd[a.toNat]? = some f) :
    fdCheck s a b = if fieldDescOk s.cfg.par f then .ok f else .error .errConfig := by
  rw [fdCheck, if_neg (by tauto), h]

theorem fdCheck_passes {s : State} {a b : Byte} {f : FieldDesc} (hb : b = 1 ∨ b = 2)
    (h : s.cfg.ctx.fd[a.toNat]? = some f) (hok : fieldDescOk s.cfg.par f) : fdCheck s a b = .ok f :=
  (fdCheck_of_getElem? hb h).trans (if_pos hok)

theorem fdCheck_ok_getElem? {s : State} {a b : Byte} {f : FieldDesc} (h : fdCheck s a b = .ok f) :
    s.cfg.ctx.fd[a.toNat]? = some f := by
  by_cases hb : b = 1 ∨ b = 2
  · cases hf : s.cfg.ctx.fd[a.toNat]? with
    | none => cases (fdCheck_missing hb hf).symm.trans h
    | some g =>
      rw [fdCheck_of_getElem? hb hf] at h
      split at h
      · rw [Except.ok.inj h]
      · cases h
  · cases (fdCheck_direction (not_or.1 hb)).symm.trans h

/-! ### FD_MATCH, FD_ENCODE and FD_DECODE by the outcome of their checks -/

section
variable {s : State} {a b : Byte} {f : FieldDesc}

/-- The three commands answer a failed check alike (R123). -/
theorem exec_fd_of_error {st : Status} {i : Instr}
    (hi : i ∈ [Instr.fdMatch a b, .fdEncode a b, .fdDecode a b]) (h : fdCheck s a b = .error st) :
    exec i s = raise s st := by
  simp only [List.mem_cons, List.not_mem_nil, or_false] at hi
  rcases hi with rfl | rfl | rfl
  · simp only [exec, execFdMatch, h]
  · simp only [exec, execFdEncode, h]
  · simp only [exec, execFdDecode, h]

theorem exec_fd_of_notApplicable {i : Instr}
    (hi : i ∈ [Instr.fdMatch a b, .fdEncode a b, .fdDecode a b]) (h : fdCheck s a b = .ok f)
    (happ : ¬ applicable f b) :
    exec i s = reply s { CmdResult.plain .ok with r0 := if i = .fdMatch a b then 1 else 0 } := by
  simp only [List.mem_cons, List.not_mem_nil, or_false] at hi
  rcases hi with rfl | rfl | rfl
  · simp only [exec, execFdMatch, h, if_pos happ, if_true]
  · simp only [exec, execFdEncode, h, if_pos happ]
    rfl
  · simp only [exec, execFdDecode, h, if_pos happ]
    rfl

section
variable (h : fdCheck s a b = .ok f) (happ : applicable f b)
include h happ

/-- FD_MATCH and FD_ENCODE take no value wider than the field (R124). -/
theorem exec_fd_of_wide {i : Instr} (hi : i ∈ [Instr.fdMatch a b, .fdEncode a b])
    (hv : 2 ^ f.fl ≤ s.cod.fv) : exec i s = raise s .errRange := by
  simp only [List.mem_cons, List.not_mem_nil, or_false] at hi
  rcases hi with rfl | rfl
  · simp only [exec, execFdMatch, h, if_neg (not_not.2 happ), if_pos hv]
  · simp only [exec, execFdEncode, h, if_neg (not_not.2 happ), if_pos hv]

theorem exec_fdMatch_of_lt (hv : s.cod.fv < 2 ^ f.fl) :
    exec (.fdMatch a b) s = reply s { CmdResult.plain .ok with
      r0 := if (matchField f s.cod.fv).1 then 1 else 0
      r1 := BitVec.ofNat 32 (matchField f s.cod.fv).2 } := by
  simp only [exec, execFdMatch, h, if_neg (not_not.2 happ), if_neg (Nat.not_le.2 hv)]

theorem exec_fdEncode_of_error (hv : s.cod.fv < 2 ^ f.fl) {st : Status}
    (hres : residueOf f s.cod.fv = .error st) : exec (.fdEncode a b) s = raise s st := by
  simp only [exec, execFdEncode, h, if_neg (not_not.2 happ), if_neg (Nat.not_le.2 hv), hres]

theorem exec_fdEncode_of_residue (hv : s.cod.fv < 2 ^ f.fl) {bs : Bits}
    (hres : residueOf f s.cod.fv = .ok bs) :
    exec (.fdEncode a b) s = if ¬ fitsWrite s bs.length then raise s .errRange
      else reply (writeAtPos s bs)
        { CmdResult.plain .ok with r0 := BitVec.ofNat 32 bs.length } := by
  simp only [exec, execFdEncode, h, if_neg (not_not.2 happ), if_neg (Nat.not_le.2 hv), hres]

/-- FD_DECODE of an action that sends nothing (R138). -/
theorem exec_fdDecode_unsent (hcda : f.cda = 0 ∨ f.cda = 4 ∨ f.cda = 5) :
    exec (.fdDecode a b) s =
      reply (setFv s (valueOfResidue f 0)) { CmdResult.plain .ok with r1 := deferred f } := by
  simp only [exec, execFdDecode, h, if_neg (not_not.2 happ), if_pos hcda]

theorem exec_fdDecode_sent (hcda : f.cda = 1 ∨ f.cda = 2 ∨ f.cda = 3) :
    exec (.fdDecode a b) s =
      if ¬ fitsRead s (residueWidth f) then raise s .errRange
      else if f.cda = 2 ∧ f.x ≤ valOf (bitsAtPos s (residueWidth f)) then raise s .errRange
      else reply (setFv (advancePos s (residueWidth f))
          (valueOfResidue f (valOf (bitsAtPos s (residueWidth f)))))
        { CmdResult.plain .ok with r0 := BitVec.ofNat 32 (residueWidth f) } := by
  have hsent : ¬ (f.cda = 0 ∨ f.cda = 4 ∨ f.cda = 5) := by
    rcases hcda with hc | hc | hc <;> simp [hc]
  simp only [exec, execFdDecode, h, if_neg (not_not.2 happ), if_neg hsent]

end
end

/-- Settles O30: the checks in the order of R123, then applicability, then R124. -/
theorem fdChecksInOrder : Obligations.FdChecksInOrder := by
  intro a b s i hi
  split
  · rename_i hb
    exact exec_fd_of_error hi (fdCheck_direction hb)
  rename_i hb
  replace hb : b = 1 ∨ b = 2 := by tauto
  split
  · rename_i hlen
    exact exec_fd_of_error hi (fdCheck_missing hb (List.getElem?_eq_none hlen))
  rename_i hlen
  rw [Nat.not_le] at hlen
  refine ⟨_, List.getElem?_eq_getElem hlen, fun hbad => ?_, fun hok hdi hne => ?_,
    fun hok happ hwide hne => ?_⟩
  · refine exec_fd_of_error hi ?_
    rw [fdCheck_of_getElem? hb (List.getElem?_eq_getElem hlen), if_neg hbad]
  · exact exec_fd_of_notApplicable hi (fdCheck_passes hb (List.getElem?_eq_getElem hlen) hok)
      (not_or.2 ⟨hdi, hne⟩)
  · refine exec_fd_of_wide (fdCheck_passes hb (List.getElem?_eq_getElem hlen) hok) happ ?_ hwide
    simpa [hne] using hi

/-! ### FD_MATCH -/

theorem matchField_ignore {f : FieldDesc} (hmo : f.mo = 0) (v : Nat) : matchField f v = (true, 0) :=
  if_pos hmo

theorem matchField_equal {f : FieldDesc} (hmo : f.mo = 1) (v : Nat) :
    matchField f v = (v == target0 f, 0) := by
  simp [matchField, hmo]

theorem matchField_msb {f : FieldDesc} (hmo : f.mo = 2) (v : Nat) :
    matchField f v =
      (v / 2 ^ (f.fl - f.x) == target0 f / 2 ^ (f.fl - f.x), 0) := by
  simp [matchField, hmo, Nat.shiftRight_eq_div_pow]

theorem matchField_matchmap {f : FieldDesc} (hmo : f.mo = 3) (v : Nat) :
    matchField f v = ((targetIndex f v).isSome, (targetIndex f v).getD 0) := by
  simp only [matchField, hmo]
  cases targetIndex f v <;> rfl

/-- R0 of FD_MATCH. -/
theorem matchWord_eq_one (m : Bool) : (if m then (1 : Word) else 0) = 1 ↔ m = true := by
  cases m <;> decide

theorem matchWord_eq_zero (m : Bool) : (if m then (1 : Word) else 0) = 0 ↔ m = false := by
  cases m <;> decide

/-- Settles O31: one target value under EQUAL and MSB; under MATCHMAP fewer than `2 ^ 16`, so R1
holds the index. -/
theorem fdMatchTestsOperator : Obligations.FdMatchTestsOperator := by
  rintro a b s f ⟨-, -, -, -, -, -, hsize⟩ hb hf hok happ hv
  obtain ⟨-, hx⟩ := hsize f (List.mem_of_getElem? hf)
  refine ⟨_, exec_fdMatch_of_lt (fdCheck_passes hb hf hok) happ hv, rfl, ?_, fun hmo => ?_,
    fun hmo => ?_, fun hmo => ?_, fun hmo => ?_⟩
  · cases (matchField f s.cod.fv).1
    · exact .inl rfl
    · exact .inr rfl
  · rw [matchField_ignore hmo]
    exact ⟨rfl, rfl⟩
  · rw [matchField_equal hmo, matchWord_eq_one, getElem?_target0 hok (by simp [hmo])]
    exact ⟨beq_iff_eq.trans (eq_comm.trans Option.some_inj.symm), rfl⟩
  · rw [matchField_msb hmo, matchWord_eq_one, getElem?_target0 hok (by simp [hmo])]
    exact ⟨by simp, rfl⟩
  · rw [matchField_matchmap hmo, matchWord_eq_one, matchWord_eq_zero]
    cases hn : targetIndex f s.cod.fv with
    | none => simpa using targetIndex_eq_none_iff.1 hn
    | some n =>
      obtain ⟨hat, hmin⟩ := targetIndex_eq_some_iff.1 hn
      have hword : (BitVec.ofNat 32 n).toNat = n := by
        have := lt_x_of_getElem? hok hmo hat
        exact Nat.mod_eq_of_lt (by omega)
      simp only [Option.isSome_some, Option.getD_some, hword, true_iff]
      exact ⟨List.mem_of_getElem? hat, by simp, fun _ => ⟨hat, hmin⟩⟩

/-! ### FD_ENCODE -/

theorem residueOf_unsent {f : FieldDesc} (hcda : f.cda = 0 ∨ f.cda = 4 ∨ f.cda = 5) (v : Nat) :
    residueOf f v = .ok [] := by
  rcases hcda with hc | hc | hc <;> simp [residueOf, hc]

theorem residueOf_valueSent {f : FieldDesc} (hcda : f.cda = 1) (v : Nat) :
    residueOf f v = .ok (bitsOf f.fl v) := if_pos hcda

theorem residueOf_mappingSent_none {f : FieldDesc} (hcda : f.cda = 2) {v : Nat}
    (hn : targetIndex f v = none) : residueOf f v = .error .errNoMatch := by
  simp [residueOf, hcda, hn]

theorem residueOf_mappingSent_some {f : FieldDesc} (hcda : f.cda = 2) {v n : Nat}
    (hn : targetIndex f v = some n) : residueOf f v = .ok (bitsOf (clog2 f.x) n) := by
  simp [residueOf, hcda, hn]

theorem residueOf_lsb {f : FieldDesc} (hcda : f.cda = 3) (v : Nat) :
    residueOf f v = .ok (bitsOf (f.fl - f.x) v) := by
  simp [residueOf, hcda]

/-- Settles O32: each action's residue is `bits(v, n)` for its width and value. -/
theorem fdEncodeWritesResidue : Obligations.FdEncodeWritesResidue := by
  rintro a b s f ⟨hpar, -⟩ ⟨hwf, -⟩ hb hf hok happ hv
  have hc := fdCheck_passes hb hf hok
  intro writes
  have hwrites : ∀ n v, residueOf f s.cod.fv = .ok (bitsOf n v) → writes n v := fun n v hres =>
    wrote_or_errRange hpar hwf (by rw [exec_fdEncode_of_residue hc happ hv hres, bitsOf_length])
  refine ⟨fun hcda => hwrites 0 0 (residueOf_unsent hcda _),
    fun hcda => hwrites _ _ (residueOf_valueSent hcda _), fun hcda hmiss => ?_,
    fun hcda n hat hmin => ?_, fun hcda => hwrites _ _ ?_⟩
  · exact exec_fdEncode_of_error hc happ hv
      (residueOf_mappingSent_none hcda (targetIndex_eq_none_iff.2 hmiss))
  · have hx : n < f.x := lt_x_of_getElem? hok (matchmap_of_mappingSent hok hcda) hat
    exact ⟨clog2 f.x, le_two_pow_clog2 _, fun u hu => two_pow_lt_of_lt_clog2 hu,
      hx.trans_le (le_two_pow_clog2 _),
      hwrites _ _ (residueOf_mappingSent_some hcda (targetIndex_eq_some_iff.2 ⟨hat, hmin⟩))⟩
  · rw [bitsOf_mod]
    exact residueOf_lsb hcda _

/-! ### FD_DECODE -/

theorem residueWidth_notSent {f : FieldDesc} (hcda : f.cda = 0) : residueWidth f = 0 := by
  simp [residueWidth, hcda]

theorem residueWidth_valueSent {f : FieldDesc} (hcda : f.cda = 1) : residueWidth f = f.fl := by
  simp [residueWidth, hcda]

theorem residueWidth_mappingSent {f : FieldDesc} (hcda : f.cda = 2) :
    residueWidth f = clog2 f.x := by
  simp [residueWidth, hcda]

theorem residueWidth_lsb {f : FieldDesc} (hcda : f.cda = 3) : residueWidth f = f.fl - f.x := by
  simp [residueWidth, hcda]

theorem valueOfResidue_notSent {f : FieldDesc} (hcda : f.cda = 0) (v : Nat) :
    valueOfResidue f v = target0 f := by
  simp [valueOfResidue, hcda]

theorem valueOfResidue_compute {f : FieldDesc} (hcda : f.cda = 4 ∨ f.cda = 5) (v : Nat) :
    valueOfResidue f v = 0 := by
  rcases hcda with hc | hc <;> simp [valueOfResidue, hc]

theorem valueOfResidue_valueSent {f : FieldDesc} (hcda : f.cda = 1) (v : Nat) :
    valueOfResidue f v = v := if_pos hcda

theorem valueOfResidue_mappingSent {f : FieldDesc} (hcda : f.cda = 2) (v : Nat) :
    valueOfResidue f v = f.tv.getD v 0 := by
  simp [valueOfResidue, hcda]

theorem valueOfResidue_lsb {f : FieldDesc} (hcda : f.cda = 3) {v : Nat}
    (hv : v < 2 ^ (f.fl - f.x)) :
    valueOfResidue f v = target0 f / 2 ^ (f.fl - f.x) * 2 ^ (f.fl - f.x) + v := by
  rw [← shiftRight_shiftLeft_or _ hv]
  simp [valueOfResidue, residueWidth_lsb, hcda]

section
variable {s : State} {a b : Byte} {f : FieldDesc}
variable (h : fdCheck s a b = .ok f) (happ : applicable f b)
include h happ

/-- FD_DECODE of an action that reads `w` bits, whose value `v` becomes the field value `val v`
(R138); an index of MAPPING-SENT within the list. -/
theorem fdDecode_reads (hcda : f.cda = 1 ∨ f.cda = 2 ∨ f.cda = 3) {w : Nat} {val : Nat → Nat}
    (hw : residueWidth f = w) (hval : ∀ v < 2 ^ w, valueOfResidue f v = val v)
    (hidx : f.cda = 2 → fitsRead s w → fieldAt s.cod.cbuf s.cod.pos.toNat w < f.x) :
    if s.cod.cbLen.toNat < s.cod.pos.toNat + w then
      exec (.fdDecode a b) s = .next (withResult s (CmdResult.plain .errRange))
    else ∃ t, exec (.fdDecode a b) s = .next t ∧
      t = { s with
        cod := { s.cod with
          pos := t.cod.pos, fv := val (fieldAt s.cod.cbuf s.cod.pos.toNat w) }
        result := t.result } ∧
      t.cod.pos.toNat = s.cod.pos.toNat + w ∧
      t.result = some { CmdResult.plain .ok with r0 := BitVec.ofNat 32 w, r1 := 0 } := by
  subst hw
  split
  · rename_i hover
    exact (exec_fdDecode_sent h happ hcda).trans (if_pos (Nat.not_le.2 hover))
  · rename_i hfit
    rw [Nat.not_lt] at hfit
    have hin : ¬ (f.cda = 2 ∧ f.x ≤ valOf (bitsAtPos s (residueWidth f))) := by
      rintro ⟨hc, hx⟩
      rw [bitsAtPos, valOf_bitRead] at hx
      exact Nat.not_lt.2 hx (hidx hc hfit)
    refine ⟨_, (exec_fdDecode_sent h happ hcda).trans
      ((if_neg (not_not.2 hfit)).trans (if_neg hin)), ?_, advancePos_pos_toNat (fitsRead_lt hfit), rfl⟩
    have hfv : valueOfResidue f (valOf (bitsAtPos s (residueWidth f))) =
        val (fieldAt s.cod.cbuf s.cod.pos.toNat (residueWidth f)) :=
      (hval _ (valOf_bitsAtPos_lt s _)).trans (congrArg val (valOf_bitRead _ _ _))
    rw [hfv]
    rfl

end

/-- Settles O33: nothing is read for NOT-SENT and COMPUTE-*; the others read their width. -/
theorem fdDecodeReadsResidue : Obligations.FdDecodeReadsResidue := by
  intro a b s f hb hf hok happ sets reads
  have hc := fdCheck_passes hb hf hok
  have hunsent : f.cda = 0 ∨ f.cda = 4 ∨ f.cda = 5 → sets 0 (valueOfResidue f 0) (deferred f) :=
    fun hcda => ⟨_, exec_fdDecode_unsent hc happ hcda, rfl, rfl, rfl⟩
  refine ⟨fun hcda v hv => ?_, fun hcda => ?_, fun hcda => ?_, fun hcda => ?_,
    fun hcda v0 hv0 => ?_⟩
  · have hsets := hunsent (.inl hcda)
    rwa [valueOfResidue_notSent hcda, target0_of_getElem? hv, deferred, if_neg (by simp [hcda])]
      at hsets
  · have hsets := hunsent (.inr hcda)
    rwa [valueOfResidue_compute hcda, deferred, if_pos hcda] at hsets
  · exact fdDecode_reads hc happ (.inl hcda) (residueWidth_valueSent hcda)
      (fun v _ => valueOfResidue_valueSent hcda v) (by simp [hcda])
  · refine ⟨clog2 f.x, le_two_pow_clog2 _, fun u hu => two_pow_lt_of_lt_clog2 hu, ?_⟩
    split
    · rename_i hbad
      obtain ⟨hfit, hx⟩ := hbad
      rw [← valOf_bitRead] at hx
      rw [exec_fdDecode_sent hc happ (.inr (.inl hcda)), residueWidth_mappingSent hcda,
        if_neg (not_not.2 hfit)]
      exact if_pos ⟨hcda, hx⟩
    · rename_i hin
      exact fdDecode_reads hc happ (.inr (.inl hcda)) (residueWidth_mappingSent hcda)
        (fun v _ => valueOfResidue_mappingSent hcda v)
        fun _ hfit => Nat.not_le.1 fun hx => hin ⟨hfit, hx⟩
  · rw [← target0_of_getElem? hv0]
    exact fdDecode_reads hc happ (.inr (.inr hcda)) (residueWidth_lsb hcda)
      (fun v hv => valueOfResidue_lsb hcda hv) (by simp [hcda])

/-! ### The round trip -/

/-- A value that matches is made again from its own residue (R143): NOT-SENT by the target value,
the least index by its entry, LSB by the top bits it shares with the target value. -/
theorem valueOfResidue_residueOf {p : Params} {f : FieldDesc} {v : Nat} {bs : Bits}
    (hok : fieldDescOk p f) (hv : v < 2 ^ f.fl) (hm : (matchField f v).1 = true)
    (h4 : f.cda ≠ 4) (h5 : f.cda ≠ 5) (h0 : f.cda = 0 → f.mo = 1 ∨ f.tv[0]? = some v)
    (hres : residueOf f v = .ok bs) :
    bs.length = residueWidth f ∧ valueOfResidue f (valOf bs) = v ∧
      (f.cda = 2 → valOf bs < f.x) := by
  rcases cda_cases hok with hc | hc | hc | hc | hc | hc
  · rw [residueOf_unsent (.inl hc)] at hres
    cases hres
    refine ⟨(residueWidth_notSent hc).symm, ?_, by simp [hc]⟩
    rw [valueOfResidue_notSent hc]
    rcases h0 hc with hmo | htv
    · rw [matchField_equal hmo] at hm
      exact (eq_of_beq hm).symm
    · exact target0_of_getElem? htv
  · rw [residueOf_valueSent hc] at hres
    cases hres
    refine ⟨by rw [bitsOf_length, residueWidth_valueSent hc], ?_, by simp [hc]⟩
    rw [valueOfResidue_valueSent hc, valOf_bitsOf_of_lt hv]
  · cases hn : targetIndex f v with
    | none => cases (residueOf_mappingSent_none hc hn).symm.trans hres
    | some n =>
      rw [residueOf_mappingSent_some hc hn] at hres
      cases hres
      obtain ⟨hat, -⟩ := targetIndex_eq_some_iff.1 hn
      have hx : n < f.x := lt_x_of_getElem? hok (matchmap_of_mappingSent hok hc) hat
      rw [valOf_bitsOf_of_lt (hx.trans_le (le_two_pow_clog2 _))]
      refine ⟨by rw [bitsOf_length, residueWidth_mappingSent hc], ?_, fun _ => hx⟩
      rw [valueOfResidue_mappingSent hc, List.getD_eq_getElem?_getD, hat, Option.getD_some]
  · rw [residueOf_lsb hc] at hres
    cases hres
    rw [matchField_msb (msb_of_lsb hok hc)] at hm
    refine ⟨by rw [bitsOf_length, residueWidth_lsb hc], ?_, by simp [hc]⟩
    rw [valOf_bitsOf, valueOfResidue_lsb hc (Nat.mod_lt _ (Nat.two_pow_pos _)), ← eq_of_beq hm,
      Nat.mul_comm, Nat.div_add_mod]
  · exact absurd hc h4
  · exact absurd hc h5

theorem result_of_reply {s t : State} {r : CmdResult} (h : reply s r = .next t) :
    t.result = some r := by
  rw [← reply_next.1 h]
  rfl

section
variable {s t : State} {a b : Byte} {f : FieldDesc}

/-- FD_MATCH answers OK with R0 = 1 on an applicable descriptor only where every check passed and
the operator matched (R123, R124, R136). -/
theorem matchField_of_exec_fdMatch {r : CmdResult} (hf : s.cfg.ctx.fd[a.toNat]? = some f)
    (happ : applicable f b) (h : exec (.fdMatch a b) s = .next t) (hr : t.result = some r)
    (hst : r.status = .ok) (hr0 : r.r0 = 1) :
    fdCheck s a b = .ok f ∧ s.cod.fv < 2 ^ f.fl ∧ (matchField f s.cod.fv).1 = true := by
  cases hc : fdCheck s a b with
  | error st =>
    rw [exec_fd_of_error (List.mem_cons_self ..) hc] at h
    cases (result_of_reply h).symm.trans hr
    rcases fdCheck_error hc with rfl | rfl | rfl <;> cases hst
  | ok g =>
    obtain rfl : g = f := Option.some.inj ((fdCheck_ok_getElem? hc).symm.trans hf)
    rcases lt_or_ge s.cod.fv (2 ^ g.fl) with hv | hv
    · rw [exec_fdMatch_of_lt hc happ hv] at h
      cases (result_of_reply h).symm.trans hr
      exact ⟨rfl, hv, (matchWord_eq_one _).1 hr0⟩
    · rw [exec_fd_of_wide hc happ (List.mem_cons_self ..) hv] at h
      cases (result_of_reply h).symm.trans hr
      cases hst

/-- FD_ENCODE answers OK only where there is a residue and it fits (R137). -/
theorem residueOf_of_exec_fdEncode (hc : fdCheck s a b = .ok f) (happ : applicable f b)
    (hv : s.cod.fv < 2 ^ f.fl) (h : exec (.fdEncode a b) s = .next t)
    (hst : ∀ r, t.result = some r → r.status = .ok) :
    ∃ bs r, residueOf f s.cod.fv = .ok bs ∧ fitsWrite s bs.length ∧
      t = withResult (writeAtPos s bs) r := by
  cases hres : residueOf f s.cod.fv with
  | error st =>
    rw [exec_fdEncode_of_error hc happ hv hres] at h
    have hok := hst _ (result_of_reply h)
    rw [residueOf_error hres] at hok
    cases hok
  | ok bs =>
    rw [exec_fdEncode_of_residue hc happ hv hres] at h
    split at h
    · cases hst _ (result_of_reply h)
    · rename_i hfit
      exact ⟨bs, _, rfl, not_not.1 hfit, (reply_next.1 h).symm⟩

/-- FD_DECODE where a bit string of the residue's width stands at POS (R138). -/
theorem exec_fdDecode_of_bits {bs : Bits} (hc : fdCheck s a b = .ok f) (happ : applicable f b)
    (hcda : f.cda = 0 ∨ f.cda = 1 ∨ f.cda = 2 ∨ f.cda = 3) (hw : bs.length = residueWidth f)
    (hfit : fitsRead s bs.length) (hbits : bitsAtPos s bs.length = bs)
    (hidx : f.cda = 2 → valOf bs < f.x) :
    ∃ t, exec (.fdDecode a b) s = .next t ∧ t.cod.fv = valueOfResidue f (valOf bs) ∧
      t.cod.pos = BitVec.ofNat 32 (s.cod.pos.toNat + bs.length) := by
  rcases hcda with h0 | hsent
  · obtain rfl : bs = [] := List.eq_nil_of_length_eq_zero (hw.trans (residueWidth_notSent h0))
    exact ⟨_, exec_fdDecode_unsent hc happ (.inl h0), rfl, by simp⟩
  · refine ⟨_, (exec_fdDecode_sent hc happ hsent).trans ((if_neg (not_not.2 (hw ▸ hfit))).trans
      (if_neg ?_)), ?_, by rw [hw]; rfl⟩
    · rw [← hw, hbits]
      exact fun hbad => Nat.not_lt.2 hbad.2 (hidx hbad.1)
    · rw [← hw, hbits]
      rfl

end

theorem fdCheck_of_cfg_eq {s t : State} (h : t.cfg = s.cfg) (a b : Byte) :
    fdCheck t a b = fdCheck s a b := by
  rw [fdCheck, fdCheck, h]

theorem exec_cbSeek_next {s : State} {p : Word} (h : p.toNat ≤ s.cod.cbLen.toNat) :
    ∃ t, exec (.cbSeek p) s = .next t ∧ t.cfg = s.cfg ∧ t.cod = { s.cod with pos := p } :=
  ⟨_, exec_cbSeek_of_le h, rfl, rfl⟩

/-- Settles O34: the residue stands where FD_DECODE looks after the seek, and it makes the value
again. -/
theorem fieldRoundTrip : Obligations.FieldRoundTrip := by
  rintro a b s m t f v r ⟨hpar, -⟩ ⟨hwf, -⟩ hf happ h4 h5 h0 hmatch hr hst hr0 henc hest
  obtain ⟨hc, hv, hm⟩ := matchField_of_exec_fdMatch hf happ hmatch hr hst hr0
  obtain ⟨bs, e, hres, hfit, rfl⟩ := residueOf_of_exec_fdEncode hc happ hv henc hest
  obtain ⟨hw, hval, hidx⟩ := valueOfResidue_residueOf (fdCheck_ok hc) hv hm h4 h5 h0 hres
  have hcda : f.cda = 0 ∨ f.cda = 1 ∨ f.cda = 2 ∨ f.cda = 3 := by
    simpa only [h4, h5, or_false] using cda_cases (fdCheck_ok hc)
  have hlen : (withResult (writeAtPos s bs) e).cod.cbLen.toNat =
      max s.cod.cbLen.toNat (s.cod.pos.toNat + bs.length) :=
    writeAtPos_cbLen_toNat (fitsWrite_lt hpar hfit)
  obtain ⟨t1, hseek, hcfg, hcod⟩ := exec_cbSeek_next
    (s := withResult (writeAtPos s bs) e) (p := s.cod.pos) (by omega)
  obtain ⟨t2, hdec, hfv, hpos⟩ := exec_fdDecode_of_bits (bs := bs)
    (s := { t1 with cod := { t1.cod with fv := v } }) ((fdCheck_of_cfg_eq hcfg a b).trans hc) happ
    hcda hw (by simp only [fitsRead, hcod]; omega)
    (by simp only [bitsAtPos, hcod]; exact Memory.bitRead_bitWrite hwf _ _) hidx
  refine ⟨t1, t2, hseek, hdec, hfv.trans hval, hpos.trans ?_⟩
  simp only [hcod]
  rfl

end Sys2Proof.Machine
end

section
/-!
Proofs of the family 40_codec, the rule IDs (spec/40_codec.md R139, R140): the rule RID_WRITE names,
and the candidates of RID_LOOKUP in their order.
-/

namespace Sys2Proof.Machine

open Sys2Proof.Safety

/-! ### RID_WRITE -/

/-- The rule of kind `b` and index `a`, in the numbers of R139; the uncompressed rule has
index 0. -/
theorem ruleAt_eq (c : Ctx) (a b : Byte) :
    ruleAt c a b =
      if b.toNat = 0 then c.uncomp.filter (fun _ => a.toNat = 0)
      else if b.toNat = 1 then (c.comp.map (·.rid))[a.toNat]?
      else (c.frag.map (·.rid))[a.toNat]? := by
  have hb0 : b = 0 ↔ b.toNat = 0 := BitVec.toNat_inj.symm
  have hb1 : b = 1 ↔ b.toNat = 1 := BitVec.toNat_inj.symm
  have ha0 : a = 0 ↔ a.toNat = 0 := BitVec.toNat_inj.symm
  simp only [ruleAt, hb0, hb1, ha0, List.getElem?_map]
  refine if_congr Iff.rfl ?_ rfl
  cases c.uncomp with
  | none => simp
  | some r => simp [Option.filter]

/-- Settles O35: the kind, then the rule, then the write of its ID. -/
theorem ridWriteWritesRuleId : Obligations.RidWriteWritesRuleId := by
  rintro a b s ⟨hpar, -⟩ ⟨hwf, -⟩
  split
  · exact if_pos ‹_›
  rename_i hb
  intro named
  have hnamed : ruleAt s.cfg.ctx a b = named := ruleAt_eq s.cfg.ctx a b
  refine ⟨fun hnone => ?_, fun r hr => wrote_or_errRange hpar hwf ?_⟩
  · simp only [exec, execRidWrite, if_neg hb, hnamed.trans hnone]
    rfl
  · simp only [exec, execRidWrite, if_neg hb, hnamed.trans hr]

/-! ### The candidates of RID_LOOKUP -/

/-- The rules of a kind in declaration order (R140). -/
def kindRules (c : Ctx) (kind : Nat) : List RuleId :=
  if kind = 0 then c.uncomp.toList
  else if kind = 1 then c.comp.map (·.rid) else c.frag.map (·.rid)

/-- The order of R140: by kind, then by index. -/
def RidCand.Before (x y : RidCand) : Prop := x.kind < y.kind ∨ (x.kind = y.kind ∧ x.index < y.index)

theorem mem_candsFrom {kind n : Nat} {rs : List RuleId} {x : RidCand} :
    x ∈ candsFrom kind n rs ↔ x.kind = kind ∧ n ≤ x.index ∧ rs[x.index - n]? = some x.rid := by
  induction rs generalizing n with
  | nil => simp [candsFrom]
  | cons r rs ih =>
    rw [candsFrom, List.mem_cons, ih]
    obtain ⟨k, i, rid⟩ := x
    simp only [RidCand.mk.injEq]
    rcases lt_trichotomy i n with hi | rfl | hi
    · simp [show ¬ n ≤ i by omega, show ¬ n + 1 ≤ i by omega, show i ≠ n by omega]
    · simp [eq_comm]
    · obtain ⟨j, rfl⟩ : ∃ j, i = n + 1 + j := ⟨i - (n + 1), by omega⟩
      rw [show n + 1 + j - n = j + 1 by omega, Nat.add_sub_cancel_left, List.getElem?_cons_succ]
      simp [show n + 1 + j ≠ n by omega, show n ≤ n + 1 + j by omega]

theorem candsFrom_pairwise (kind n : Nat) (rs : List RuleId) :
    (candsFrom kind n rs).Pairwise RidCand.Before := by
  induction rs generalizing n with
  | nil => exact .nil
  | cons r rs ih =>
    refine .cons (fun y hy => ?_) (ih (n + 1))
    obtain ⟨hk, hi, -⟩ := mem_candsFrom.1 hy
    exact .inr ⟨hk.symm, hi⟩

/-- The candidates of one kind, if the mask selects it. -/
def kindCands (c : Ctx) (b : Byte) (kind : Nat) : List RidCand :=
  if b.toNat.testBit kind then candsFrom kind 0 (kindRules c kind) else []

theorem candidates_eq (c : Ctx) (b : Byte) :
    candidates c b = (List.range 3).flatMap (kindCands c b) :=
  (List.append_assoc ..).trans (by simp [kindCands, kindRules, List.range_succ, BitVec.getLsbD])

theorem mem_kindCands {c : Ctx} {b : Byte} {kind : Nat} {x : RidCand} :
    x ∈ kindCands c b kind ↔
      x.kind = kind ∧ b.toNat.testBit kind = true ∧ (kindRules c kind)[x.index]? = some x.rid := by
  unfold kindCands
  split
  · simp [mem_candsFrom, *]
  · simp [*]

/-- A candidate is a rule of a selected kind at its index (R140). -/
theorem mem_candidates {c : Ctx} {b : Byte} {x : RidCand} :
    x ∈ candidates c b ↔
      x.kind < 3 ∧ b.toNat.testBit x.kind = true ∧ (kindRules c x.kind)[x.index]? = some x.rid := by
  simp only [candidates_eq, List.mem_flatMap, List.mem_range, mem_kindCands]
  constructor
  · rintro ⟨_, hk, rfl, hx⟩
    exact ⟨hk, hx⟩
  · rintro ⟨hk, hx⟩
    exact ⟨_, hk, rfl, hx⟩

theorem candidates_pairwise (c : Ctx) (b : Byte) : (candidates c b).Pairwise RidCand.Before := by
  rw [candidates_eq, List.pairwise_flatMap]
  refine ⟨fun kind _ => ?_, List.pairwise_lt_range.imp fun hlt x hx y hy => .inl ?_⟩
  · unfold kindCands
    split
    · exact candsFrom_pairwise _ _ _
    · exact .nil
  · rwa [(mem_kindCands.1 hx).1, (mem_kindCands.1 hy).1]

/-- In a list in order, the element that passes and comes before every other that does is the one
found. -/
theorem find?_eq_some_of_pairwise {α : Type} {R : α → α → Prop} {p : α → Bool} {l : List α} {x : α}
    (hl : l.Pairwise R) (hx : x ∈ l) (hp : p x = true)
    (hfirst : ∀ y ∈ l, p y = true → ¬ R y x) : l.find? p = some x := by
  induction l with
  | nil => cases hx
  | cons y l ih =>
    obtain ⟨hy, hl⟩ := List.pairwise_cons.1 hl
    rcases List.mem_cons.1 hx with rfl | hxl
    · exact List.find?_cons_of_pos hp
    · have hpy : ¬ p y = true := fun hpy => hfirst y (List.mem_cons_self ..) hpy (hy x hxl)
      rw [List.find?_cons_of_neg hpy]
      exact ih hl hxl fun z hz => hfirst z (List.mem_cons_of_mem _ hz)

/-! ### RID_LOOKUP -/

theorem ridAtPos_iff {s : State} {r : RuleId} :
    ridAtPos s r ↔ s.cod.pos.toNat + r.ridw ≤ s.cod.cbLen.toNat ∧
      fieldAt s.cod.cbuf s.cod.pos.toNat r.ridw = r.ruleId := by
  rw [ridAtPos, bitsAtPos, valOf_bitRead]

section
variable {s : State} {b : Byte} (hb : ¬ (b = 0 ∨ 7 < b.toNat))
include hb

theorem exec_ridLookup_of_none
    (h : (candidates s.cfg.ctx b).find? (fun c => decide (ridAtPos s c.rid)) = none) :
    exec (.ridLookup b) s = raise s .errLookup := by
  simp only [exec, execRidLookup, if_neg hb, h]

theorem exec_ridLookup_of_some {x : RidCand}
    (h : (candidates s.cfg.ctx b).find? (fun c => decide (ridAtPos s c.rid)) = some x) :
    exec (.ridLookup b) s = reply (advancePos s x.rid.ridw)
      { CmdResult.plain .ok with
        r0 := BitVec.ofNat 32 x.kind, r1 := BitVec.ofNat 32 x.index } := by
  simp only [exec, execRidLookup, if_neg hb, h]

end

/-- Settles O36: the candidates stand in the order of R140, so the first whose ID stands at POS is
the least. -/
theorem ridLookupFirstMatchWins : Obligations.RidLookupFirstMatchWins := by
  intro b s rules found
  have hmask : (b.toNat = 0 ∨ 7 < b.toNat) ↔ (b = 0 ∨ 7 < b.toNat) :=
    or_congr_left (BitVec.toNat_inj (x := b) (y := 0))
  have hfound : ∀ x : RidCand,
      (x ∈ candidates s.cfg.ctx b ∧ ridAtPos s x.rid) ↔ found x.kind x.index x.rid := fun x => by
    rw [mem_candidates, ridAtPos_iff, and_assoc, and_assoc]
    rfl
  split
  · rename_i hbad
    exact if_pos (hmask.1 hbad)
  rename_i hok
  rw [hmask] at hok
  refine ⟨fun hnone => exec_ridLookup_of_none hok ?_, fun kind n r hr hfirst => ?_⟩
  · rw [List.find?_eq_none]
    exact fun x hx hp => hnone _ _ _ ((hfound x).1 ⟨hx, of_decide_eq_true hp⟩)
  · obtain ⟨hmem, hat⟩ := (hfound ⟨kind, n, r⟩).2 hr
    have hfind := find?_eq_some_of_pairwise (p := fun c => decide (ridAtPos s c.rid))
      (candidates_pairwise s.cfg.ctx b) hmem (decide_eq_true hat) fun y hy hp hbefore => by
        have hle := hfirst _ _ _ ((hfound y).1 ⟨hy, of_decide_eq_true hp⟩)
        simp only [RidCand.Before] at hbefore
        omega
    exact ⟨_, exec_ridLookup_of_some hok hfind, moved_advancePos hat.1 _, rfl⟩

end Sys2Proof.Machine
end

section
/-!
Proofs of the family 41_tx, the invariant and the checks (spec/41_tx.md R179, R186, R187, R190): the
TX timer along a run, what each check of TX_OUTPUT answers, and the commands that answer in every
state.
-/

namespace Sys2Proof.Machine

open Sys2Proof.Safety

/-! ### The TX timer -/

/-- Settles O20: every command keeps the TX timer armed exactly in WAIT, and reset leaves WAIT. -/
theorem stepKeepsTxTimer : Obligations.StepKeepsTxTimer :=
  ⟨fun _ _ hs h => step_keeps (P := TxTimerOk) (fun _ _ h => h) (fun _ _ h => h)
      (fun s _ _ => txTimerOk_resetWith s.cfg) (fun _ _ _ _ hs h => exec_keeps_txTimer hs h) hs h,
    fun _ => ⟨rfl, rfl⟩⟩

/-! ### Commands that only read -/

/-- The command answers in every state, changes nothing else, and does not read the last result. -/
def ReadsOnly (i : Instr) : Prop :=
  ∀ s, ∃ r, exec i s = reply s r ∧ ∀ q, exec i (withResult s q) = reply (withResult s q) r

theorem readsOnly_of_reply {i : Instr} (res : State → CmdResult)
    (h : ∀ s, exec i s = reply s (res s)) (hres : ∀ s q, res (withResult s q) = res s) :
    ReadsOnly i :=
  fun s => ⟨res s, h s, fun q => (h _).trans (by rw [hres])⟩

/-- A command that checks what no command writes, and otherwise only reads. -/
theorem readsOnly_of_check {i : Instr} {st : Status} (bad : State → Prop) [DecidablePred bad]
    (res : State → CmdResult)
    (h : ∀ s, exec i s = if bad s then raise s st else reply s (res s))
    (hbad : ∀ s q, bad (withResult s q) ↔ bad s)
    (hres : ∀ s q, res (withResult s q) = res s) : ReadsOnly i := by
  refine readsOnly_of_reply (fun s => if bad s then CmdResult.plain st else res s)
    (fun s => ?_) fun s q => ?_
  · rw [h]
    split
    · rfl
    · rfl
  · simp only [hbad, hres]

theorem readsOnly_of_mem {i : Instr} {a : Byte}
    (hi : i ∈ [Instr.nop, .txQuery, .rxQuery a, .cbUnload, .cbTail, .fvStore a]) :
    ReadsOnly i := by
  simp only [List.mem_cons, List.not_mem_nil, or_false] at hi
  rcases hi with rfl | rfl | rfl | rfl | rfl | rfl
  · exact readsOnly_of_reply _ (fun _ => rfl) fun _ _ => rfl
  · exact readsOnly_of_reply _ (fun _ => rfl) fun _ _ => rfl
  · exact readsOnly_of_check _ _ (fun _ => rfl) (fun _ _ => .rfl) fun _ _ => rfl
  · exact readsOnly_of_reply _ (fun _ => rfl) fun _ _ => rfl
  · exact readsOnly_of_reply _ (fun _ => rfl) fun _ _ => rfl
  · exact readsOnly_of_check _ _ (fun _ => rfl) (fun _ _ => .rfl) fun _ _ => rfl

theorem ReadsOnly.idempotent {i : Instr} (hi : ReadsOnly i) {s t : State}
    (h : exec i s = .next t) : OnlyResult s t ∧ exec i t = .next t := by
  obtain ⟨r, hr, hagain⟩ := hi s
  obtain rfl : withResult s r = t := reply_next.1 (hr.symm.trans h)
  exact ⟨rfl, hagain r⟩

/-- A field written above the bits in use adds its value at its place (R232). -/
theorem or_field_toNat {x : Word} {w : Nat} (y : BitVec w) {n : Nat} (hx : x.toNat < 2 ^ n)
    (hn : w + n ≤ 32) :
    (x ||| y.setWidth 32 <<< n).toNat = x.toNat + 2 ^ n * y.toNat := by
  have hy : y.toNat * 2 ^ n < 2 ^ 32 :=
    calc y.toNat * 2 ^ n < 2 ^ w * 2 ^ n := Nat.mul_lt_mul_of_pos_right y.isLt (Nat.two_pow_pos n)
      _ = 2 ^ (w + n) := (Nat.pow_add ..).symm
      _ ≤ 2 ^ 32 := Nat.pow_le_pow_right (by omega) hn
  have hw : (y.setWidth 32).toNat = y.toNat :=
    BitVec.toNat_setWidth_of_le (by omega)
  rw [BitVec.toNat_or, BitVec.toNat_shiftLeft, hw, Nat.shiftLeft_eq, Nat.mod_eq_of_lt hy,
    Nat.or_comm, Nat.mul_comm, ← Nat.two_pow_add_eq_or_of_lt hx, Nat.add_comm]

/-- R1 of RX_QUERY as a number (R232). -/
theorem queryWord_toNat (x : RxSlot) :
    (queryWord x).toNat = x.rule.toNat + 2 ^ 8 * x.dtag.toNat + 2 ^ 16 * x.all1.toNat +
      2 ^ 17 * x.micRounds.toNat := by
  have hrule : (x.rule.setWidth 32).toNat = x.rule.toNat :=
    BitVec.toNat_setWidth_of_le (by omega)
  have hr := x.rule.isLt
  have hd := x.dtag.isLt
  have ha := x.all1.toNat_lt
  have h8 := or_field_toNat (x := x.rule.setWidth 32) x.dtag (n := 8) (by omega) (by omega)
  have h16 := or_field_toNat (x := x.rule.setWidth 32 ||| x.dtag.setWidth 32 <<< 8)
    (BitVec.ofBool x.all1) (n := 16) (by omega) (by omega)
  rw [BitVec.toNat_ofBool] at h16
  rw [queryWord, or_field_toNat (n := 17) _ (by omega) (by omega), h16, h8, hrule,
    BitVec.toNat_ofBool]

/-- Settles O37: the answers of NOP, TX_ABORT, TX_QUERY and RX_QUERY, and the commands that only
read. -/
theorem nopAbortAndQueriesAnswer : Obligations.NopAbortAndQueriesAnswer := by
  refine ⟨fun s => ⟨rfl, rfl, ?_, fun a => ?_⟩, fun i a s t hi => (readsOnly_of_mem hi).idempotent⟩
  · simp only [exec, execTxQuery, reply]
    cases s.tx.state <;> rfl
  · split
    · exact if_pos ‹_›
    · refine ⟨_, if_neg ‹_›, rfl, ?_, queryWord_toNat _⟩
      cases (rxSlot s a.toNat).state <;> rfl

/-! ### The checks of TX_OUTPUT -/

section
variable {a : Byte} {d : List Byte} {s : State} {r : FragRule}

/-- TX_OUTPUT where no exchange waits and the rule is there (R179): the checks that the rule and the
message must pass. -/
theorem execTxOutput_of_rule (hlen : ¬ d.length < s.cfg.par.mtu) (hw : s.tx.state ≠ .wait)
    (hr : s.cfg.ctx.frag[a.toNat]? = some r) :
    execTxOutput a d s =
      if ¬ serves r s.cfg.par.txDir then raise s .errContract
      else if ¬ (fragRuleOk r ∧ mtuFits s.cfg.par.mtu r) then raise s .errConfig
      else if s.cfg.par.txMaxBytes < d.length then raise s .errResource
      else if tooManyWindows s.cfg.par.mtu r d.length then raise s .errTooLarge
      else txLaunch r (txLoad s a r d) := by
  rw [execTxOutput, if_neg hlen, if_neg hw, hr]

theorem execTxOutput_of_checks (hlen : s.cfg.par.mtu ≤ d.length) (hw : s.tx.state ≠ .wait)
    (hr : s.cfg.ctx.frag[a.toNat]? = some r) (hserves : serves r s.cfg.par.txDir)
    (hok : fragRuleOk r) (hfit : mtuFits s.cfg.par.mtu r) (hmax : d.length ≤ s.cfg.par.txMaxBytes)
    (hwin : ¬ tooManyWindows s.cfg.par.mtu r d.length) :
    execTxOutput a d s = txLaunch r (txLoad s a r d) := by
  rw [execTxOutput_of_rule (Nat.not_lt.2 hlen) hw hr, if_neg (not_not.2 hserves),
    if_neg (not_not.2 ⟨hok, hfit⟩), if_neg (Nat.not_lt.2 hmax), if_neg hwin]

theorem not_serves_iff {dir : Direction} :
    ¬ serves r dir ↔ r.dir ≠ 3 ∧ r.dir.toNat ≠ dirCode dir := not_or

theorem not_fits_iff {mtu : Nat} :
    ¬ (fragRuleOk r ∧ mtuFits mtu r) ↔
      ¬ fragRuleOk r ∨ 8 * mtu < hdrBits r + 1 ∨ 8 * mtu < hdrBits r + 32 := by
  have hfit : ¬ mtuFits mtu r ↔ 8 * mtu < hdrBits r + 1 ∨ 8 * mtu < hdrBits r + 32 := by
    rw [mtuFits, not_and_or, Nat.not_le, Nat.not_le, micW]
  exact not_and_or.trans (or_congr_right hfit)

end

/-- One check of a chain: it fails with its answer, or the rest of the chain holds. -/
theorem answer_of_check {p q P : Prop} [Decidable p] [Decidable q] {e x y : Answer}
    (hpq : p ↔ q) (he : e = if q then x else y) (hrest : ¬ p → e = y → P) :
    if p then e = x else P := by
  split
  · exact he.trans (if_pos (hpq.1 ‹_›))
  · exact hrest ‹_› (he.trans (if_neg (mt hpq.2 ‹_›)))

/-- Settles O38: the checks in their order, and SUCCESS where all are passed. -/
theorem txOutputChecksInOrder : Obligations.TxOutputChecksInOrder := by
  intro a d s
  refine answer_of_check .rfl rfl fun hlen h => answer_of_check .rfl h fun hw h => ?_
  split
  · rename_i hidx
    rw [List.getElem?_eq_none hidx] at h
    exact h
  rename_i hidx
  have hr := List.getElem?_eq_getElem (Nat.not_le.1 hidx)
  have hexec := execTxOutput_of_rule hlen hw hr
  refine ⟨_, hr, answer_of_check not_serves_iff.symm hexec fun _ h =>
    answer_of_check not_fits_iff.symm h fun _ h => answer_of_check .rfl h fun _ h =>
    answer_of_check .rfl h fun _ h => ?_⟩
  obtain ⟨u, res, hlaunch, hst⟩ := txLaunch_replies s.cfg.ctx.frag[a.toNat] (txLoad s a _ d)
  exact ⟨_, h.trans hlaunch, res, rfl, hst⟩

end Sys2Proof.Machine
end

section
/-!
Proofs of the family 41_tx, the exchange (spec/41_tx.md R171 to R185): what TX_OUTPUT starts, what an
ACK does in each case, and what a timer fire does.
-/

namespace Sys2Proof.Machine

open Sys2Proof.Safety

/-! ### What a rule within its constraints says (R41) -/

theorem one_le_ws {r : FragRule} (h : fragRuleOk r) : 1 ≤ r.ws := by
  obtain ⟨-, -, -, -, -, ⟨hws, -⟩, -⟩ := h
  exact hws

theorem mode_cases {r : FragRule} (h : fragRuleOk r) : r.mode = 0 ∨ r.mode = 1 ∨ r.mode = 2 := by
  obtain ⟨-, -, hmode, -⟩ := h
  generalize r.mode = m at hmode ⊢
  revert m
  decide

/-! ### TX_OUTPUT -/

theorem txLaunch_noAck {r : FragRule} {s : State} (h : r.mode = 0) :
    txLaunch r s = reply (txGoto s s.tx.wl .ended)
      { CmdResult.plain .success with events := txAll s r } := by
  rw [txLaunch, if_pos h, sendAll_eq]

theorem txLaunch_ackAlways {r : FragRule} {s : State} (h : r.mode = 1) (hws : 1 ≤ r.ws) :
    txLaunch r s = reply (armTx (txGoto s 0 .wait))
      { CmdResult.plain .success with events := txWindow s r 0 ++ armTxEvents s } := by
  rw [txLaunch, if_neg (by simp [h]), if_pos h, sendWindow_eq _ _ _ hws]

theorem txLaunch_ackOnError {r : FragRule} {s : State} (h : r.mode = 2) :
    txLaunch r s = reply (armTx (txGoto s s.tx.wl .wait))
      { CmdResult.plain .success with events := txAll s r ++ armTxEvents s } := by
  rw [txLaunch, if_neg (by simp [h]), if_neg (by simp [h]), sendAll_eq]

theorem tileCountReg_toNat {k : Nat} (s : State) (h : k < 2 ^ 32) :
    (tileCountReg s k).toNat = k := by
  rw [tileCountReg, if_pos h, BitVec.toNat_ofNat, Nat.mod_eq_of_lt h]

theorem lastWindowReg_toNat {wl : Nat} (s : State) (h : wl < 2 ^ 8) :
    (lastWindowReg s wl).toNat = wl := by
  rw [lastWindowReg, if_pos h, BitVec.toNat_ofNat, Nat.mod_eq_of_lt h]

/-- DTAG_NEXT mod `2 ^ T` fits TX_DTAG (R31, R179). -/
theorem txLoad_dtag_toNat (s : State) (a : Byte) (r : FragRule) (d : List Byte) :
    (txLoad s a r d).tx.dtag.toNat = s.dtagNext.toNat % 2 ^ r.t := by
  rw [txLoad_tx_dtag, BitVec.toNat_ofNat]
  exact Nat.mod_eq_of_lt ((Nat.mod_le _ _).trans_lt s.dtagNext.isLt)

/-- Settles O39: the registers as `txLoad` leaves them, and the launch by mode. -/
theorem txOutputStartsExchange : Obligations.TxOutputStartsExchange := by
  intro a d s r hlen hw hr hserves hok hfit hmax k wl hwin
  have hexec : exec (.txOutput a d) s = txLaunch r (txLoad s a r d) :=
    execTxOutput_of_checks hlen hw hr hserves hok hfit hmax hwin
  have hk : k < 2 ^ 32 → (tileCountReg s k).toNat = k := tileCountReg_toNat s
  have hwl : wl < 2 ^ 8 → (lastWindowReg s wl).toNat = wl := lastWindowReg_toNat s
  have hbig : 1 ≤ r.m → k < 2 ^ 32 ∧ wl < 2 ^ 8 := fun hm =>
    (windows_fit hok hm hwin).2.symm
  have hdtag := txLoad_dtag_toNat s a r d
  rcases mode_cases hok with hm | hm | hm
  · exact ⟨_, _, hexec.trans (txLaunch_noAck hm), rfl, rfl, rfl, rfl, rfl, hdtag, rfl, rfl, rfl,
      hk, hwl, hbig, fun _ => ⟨rfl, rfl, rfl, rfl, rfl⟩,
      fun h => absurd (hm.symm.trans h) (by decide), fun h => absurd (hm.symm.trans h) (by decide)⟩
  · exact ⟨_, _, hexec.trans (txLaunch_ackAlways hm (one_le_ws hok)), rfl, rfl, rfl, rfl, rfl,
      hdtag, rfl, rfl, rfl, hk, hwl, hbig, fun h => absurd (hm.symm.trans h) (by decide),
      fun _ => ⟨rfl, rfl, rfl, rfl, rfl⟩, fun h => absurd (hm.symm.trans h) (by decide)⟩
  · exact ⟨_, _, hexec.trans (txLaunch_ackOnError hm), rfl, rfl, rfl, rfl, rfl, hdtag, rfl, rfl,
      rfl, hk, hwl, hbig, fun h => absurd (hm.symm.trans h) (by decide),
      fun h => absurd (hm.symm.trans h) (by decide), fun _ => ⟨rfl, rfl, rfl, rfl, rfl⟩⟩

/-! ### TX_ACK_INPUT -/

section
variable {d : List Byte} {s : State} {r : FragRule}

theorem exec_txAckInput_of_init (h : s.tx.state = .init) :
    exec (.txAckInput d) s = raise s .errContract := if_pos h

theorem exec_txAckInput_of_left (hi : s.tx.state ≠ .init) (hw : s.tx.state ≠ .wait) :
    exec (.txAckInput d) s = reply s (ackIgnored s) := (if_neg hi).trans (if_pos hw)

/-- TX_ACK_INPUT in WAIT (R181). -/
theorem exec_txAckInput_of_wait (hw : s.tx.state = .wait)
    (hr : s.cfg.ctx.frag[s.tx.rule.toNat]? = some r) :
    exec (.txAckInput d) s =
      if ¬ ackAccepted s r (unpack d) then reply s (ackIgnored s)
      else if (ackFields r (unpack d)).w < s.tx.wl.toNat then
        nonFinalAck (txAttempts0 s) r (ackFields r (unpack d))
      else finalAck (txAttempts0 s) r (ackFields r (unpack d)) := by
  rw [exec, execTxAckInput, if_neg (by simp [hw]), if_neg (not_not.2 hw), txRule, hr]

theorem exec_txAckInput_earlier (hw : s.tx.state = .wait)
    (hr : s.cfg.ctx.frag[s.tx.rule.toNat]? = some r) (ha : ackAccepted s r (unpack d))
    (hlt : (ackFields r (unpack d)).w < s.tx.wl.toNat) :
    exec (.txAckInput d) s = nonFinalAck (txAttempts0 s) r (ackFields r (unpack d)) := by
  rw [exec_txAckInput_of_wait hw hr, if_neg (not_not.2 ha), if_pos hlt]

theorem exec_txAckInput_last (hw : s.tx.state = .wait)
    (hr : s.cfg.ctx.frag[s.tx.rule.toNat]? = some r) (ha : ackAccepted s r (unpack d))
    (heq : (ackFields r (unpack d)).w = s.tx.wl.toNat) :
    exec (.txAckInput d) s = finalAck (txAttempts0 s) r (ackFields r (unpack d)) := by
  rw [exec_txAckInput_of_wait hw hr, if_neg (not_not.2 ha), if_neg (Nat.not_lt.2 heq.ge)]

/-- Each way an ACK fails R180. -/
theorem not_ackAccepted {b : Bits} (h : b.length < ackNeed r ∨ valAt b 0 r.rid.ridw ≠ r.rid.ruleId ∨
      valAt b r.rid.ridw r.t ≠ s.tx.dtag.toNat ∨ s.tx.wl.toNat < (ackFields r b).w ∨
      (r.mode = 1 ∧ (ackFields r b).w ≠ s.tx.win.toNat) ∨
      ((ackFields r b).w = s.tx.wl.toNat ∧ b.length = ackNeed r)) :
    ¬ ackAccepted s r b := by
  rintro ⟨hneed, hrid, hdtag, hwl, hwin, hc⟩
  rcases h with h | h | h | h | ⟨hm, h⟩ | ⟨hlast, h⟩
  · omega
  · exact h hrid
  · exact h hdtag
  · omega
  · exact h (hwin hm)
  · have := hc hlast
    omega

/-- The rule of an exchange that waits has windows (R41). -/
theorem one_le_ws_of_exchange (hs : TxExchangeOk s) (hw : s.tx.state = .wait)
    (hr : s.cfg.ctx.frag[s.tx.rule.toNat]? = some r) : 1 ≤ r.ws := by
  obtain ⟨r', hr', hok, -⟩ := hs hw
  obtain rfl : r = r' := Option.some.inj (hr.symm.trans hr')
  exact one_le_ws hok

/-- NonFinalAck with tiles marked (R182). -/
theorem nonFinalAck_marked {m : AckMsg} (h : missing m.bm r.ws ≠ []) :
    nonFinalAck s r m = reply (armTx s) (ackWait
      (((missing m.bm r.ws).filter (fun q => q ≠ r.ws - 1)).map
          (fun q => txFragment s r (m.w * r.ws + q)) ++
        [txFragment s r (m.w * r.ws + r.ws - 1)] ++ armTxEvents s)) := by
  simp only [nonFinalAck, if_pos h, sendFrag_eq]

/-- NonFinalAck with none marked, in ACK_ALWAYS (R182). -/
theorem nonFinalAck_advance {m : AckMsg} (h : missing m.bm r.ws = []) (hm : r.mode = 1)
    (hws : 1 ≤ r.ws) :
    nonFinalAck s r m = reply (armTx { s with tx := { s.tx with win := BitVec.ofNat 8 (m.w + 1) } })
      (ackWait (txWindow s r (m.w + 1) ++ armTxEvents s)) := by
  simp only [nonFinalAck, if_neg (not_not.2 h), isAckAlways, if_pos hm, sendWindow_eq _ _ _ hws]

/-- NonFinalAck with none marked, in ACK_ON_ERROR (R182). -/
theorem nonFinalAck_nothing {m : AckMsg} (h : missing m.bm r.ws = []) (hm : r.mode = 2) :
    nonFinalAck s r m = reply s (ackWait []) := by
  simp [nonFinalAck, h, hm]

/-- FinalAck with C = 0 and tiles marked (R183). -/
theorem finalAck_marked {m : AckMsg} (hc : m.c = false)
    (h : missing m.bm (s.tx.k.toNat - s.tx.wl.toNat * r.ws) ≠ []) :
    finalAck s r m = reply (armTx s) (ackWait
      ((missing m.bm (s.tx.k.toNat - s.tx.wl.toNat * r.ws)).map
          (fun q => txFragment s r (s.tx.wl.toNat * r.ws + q)) ++
        [txAll1 s r] ++ armTxEvents s)) := by
  simp only [finalAck, hc, Bool.false_eq_true, if_false, if_pos h, sendFrag_eq, sendAll1_eq]

theorem finalAck_complete {m : AckMsg} (hc : m.c = true) :
    finalAck s r m = reply (leaveTx s .ended) { CmdResult.plain .ackHandled with
      r0 := TxPhase.ended.code, events := cancelEvents .tx s.tx.armed } := if_pos hc

/-- FinalAck with C = 0 and none marked (R183). -/
theorem finalAck_micRound {m : AckMsg} (hc : m.c = false)
    (h : missing m.bm (s.tx.k.toNat - s.tx.wl.toNat * r.ws) = []) :
    finalAck s r m = micRound s r := by
  simp only [finalAck, hc, Bool.false_eq_true, if_false, if_neg (not_not.2 h)]

theorem missing_eq_nil {bm : Bits} {n : Nat} (h : ∀ q < n, bm.getD q false = false) :
    missing bm n = [] := by
  refine List.filter_eq_nil_iff.2 fun q hq => ?_
  rw [h q (List.mem_range.1 hq)]
  exact Bool.false_ne_true

/-- The one MIC round in ACK_ALWAYS (R184). -/
theorem micRound_ackAlways (h : s.tx.micRounds = false) (hm : r.mode = 1) (hws : 1 ≤ r.ws) :
    micRound s r = reply (armTx { s with tx := { s.tx with micRounds := true, win := 0 } })
      (ackWait (txWindow s r 0 ++ armTxEvents s)) := by
  rw [micRound, if_pos h, if_pos hm, sendWindow_eq _ _ _ hws]

/-- The one MIC round in ACK_ON_ERROR (R184). -/
theorem micRound_ackOnError (h : s.tx.micRounds = false) (hm : r.mode = 2) :
    micRound s r = reply (armTx { s with tx := { s.tx with micRounds := true } })
      (ackWait (txAll s r ++ armTxEvents s)) := by
  rw [micRound, if_pos h, if_neg (by simp [hm]), sendAll_eq]

/-- The MIC round has been used (R184). -/
theorem micRound_used (h : s.tx.micRounds = true) :
    micRound s r = reply (leaveTx s .aborted) { CmdResult.plain .txMicFailed with
      r0 := TxPhase.aborted.code, events := cancelEvents .tx s.tx.armed } :=
  if_neg (by simp [h])

end

/-- Settles O43: TX_STATE decides, and in WAIT the conditions of R180. -/
theorem txAckNotHandled : Obligations.TxAckNotHandled := by
  refine fun d s => ⟨fun h => exec_txAckInput_of_init h, fun h => ?_, fun h => ?_,
    fun hw r hr hbad => ?_⟩
  · rw [exec_txAckInput_of_left (by simp [h]) (by simp [h]), ackIgnored, h]
    rfl
  · rw [exec_txAckInput_of_left (by simp [h]) (by simp [h]), ackIgnored, h]
    rfl
  · rw [exec_txAckInput_of_wait hw hr, if_pos (not_ackAccepted hbad), ackIgnored, hw]
    rfl

/-- Settles O44: NonFinalAck on the exchange with its attempts cleared. -/
theorem txAckOfEarlierWindow : Obligations.TxAckOfEarlierWindow := by
  intro d s r hs hw hr ha
  dsimp only
  intro hlt
  have hexec := exec_txAckInput_earlier hw hr ha hlt
  exact ⟨fun hmark => hexec.trans (nonFinalAck_marked hmark),
    fun hnone hm => hexec.trans
      (nonFinalAck_advance hnone hm (one_le_ws_of_exchange hs hw hr)),
    fun hnone hm => hexec.trans (nonFinalAck_nothing hnone hm)⟩

/-- Settles O45: FinalAck on the exchange with its attempts cleared. -/
theorem txAckOfLastWindow : Obligations.TxAckOfLastWindow := by
  intro d s r hw hr ha
  dsimp only
  intro hlast
  have hexec := exec_txAckInput_last hw hr ha hlast
  exact ⟨fun hc => hexec.trans (finalAck_complete hc),
    fun hc hmark => hexec.trans (finalAck_marked hc hmark)⟩

/-- Settles O46: with no tile marked FinalAck is MicRound. -/
theorem txMicRoundOnce : Obligations.TxMicRoundOnce := by
  intro d s r hs hw hr ha
  dsimp only
  intro hlast hc hnone
  have hexec : exec (.txAckInput d) s = micRound (txAttempts0 s) r :=
    (exec_txAckInput_last hw hr ha hlast).trans
      (finalAck_micRound hc (missing_eq_nil hnone))
  exact ⟨fun hmic hm => hexec.trans
      (micRound_ackAlways hmic hm (one_le_ws_of_exchange hs hw hr)),
    fun hmic hm => hexec.trans (micRound_ackOnError hmic hm),
    fun hmic => hexec.trans (micRound_used hmic)⟩

/-! ### TX_TIMER_FIRE -/

/-- A current fire in WAIT with an attempt left (R185). -/
theorem exec_txTimerFire_resend {s : State} {r : FragRule} (ha : s.tx.armed = true)
    (hw : s.tx.state = .wait) (hlt : s.tx.attempts.toNat < s.cfg.par.maxAckReq)
    (hr : s.cfg.ctx.frag[s.tx.rule.toNat]? = some r) :
    exec (.txTimerFire s.tx.gen) s =
      .next (withResult
        { s with tx := { s.tx with attempts := s.tx.attempts + 1, gen := s.tx.gen + 1 } }
        { CmdResult.plain .resent with
          events := [sendTerminal s r s.tx.win.toNat,
            .sched .tx s.cfg.par.retxDelay (s.tx.gen + 1)] }) := by
  have hstale : ¬ (s.tx.armed = false ∨ s.tx.gen ≠ s.tx.gen) := by simp [ha]
  have hrearmed : { s.tx with attempts := s.tx.attempts + 1, gen := s.tx.gen + 1 } =
      { s.tx with attempts := s.tx.attempts + 1, armed := true, gen := s.tx.gen + 1 } := by
    rw [← ha]
  rw [hrearmed]
  simp only [exec, execTxTimerFire, if_neg hstale, if_neg (not_not.2 hw), if_pos hlt, txRule, hr]
  rfl

/-- Settles O47: a fire in WAIT with an attempt left resends; each other case is one branch. -/
theorem txTimerFireOutcomes : Obligations.TxTimerFireOutcomes := by
  intro g s hs
  split
  · exact if_pos ‹_›
  rename_i hcur
  obtain ⟨ha, hg⟩ : s.tx.armed = true ∧ g = s.tx.gen := by simpa [not_or] using hcur
  split
  · exact (if_neg hcur).trans (if_pos ‹_›)
  rename_i hw
  split
  · rename_i hle
    exact (if_neg hcur).trans ((if_neg hw).trans (if_neg (Nat.not_lt.2 hle)))
  · rename_i hlt
    obtain ⟨r, hr, -⟩ := hs (not_not.1 hw)
    refine ⟨r, hr, ?_⟩
    rw [hg, exec_txTimerFire_resend ha (not_not.1 hw) (Nat.not_le.1 hlt) hr, sendTerminal_eq]
    simp only [BitVec.toNat_inj]

end Sys2Proof.Machine
end

section
/-!
Proofs of the family 41_tx, the message at the receiver (spec/41_tx.md R171; spec/42_rx.md R216, R217,
R220 to R223): its tiles reassemble to it, and a slot that holds them all delivers it.
-/

namespace Sys2Proof.Machine

open Sys2Proof.Safety

/-! ### Reassembly -/

/-- The first `k` tiles of a slot, of which only the last is more than its tile of the message. -/
theorem flatMap_tileAt {x : RxSlot} {f : Nat → Bits} {pad : Bits} (k : Nat)
    (hfull : ∀ j, j + 1 < k → x.tileAt j = f j) (hlast : ∀ j, j + 1 = k → x.tileAt j = f j ++ pad) :
    (List.range k).flatMap x.tileAt =
      (List.range k).flatMap f ++ if k = 0 then [] else pad := by
  cases k with
  | zero => rfl
  | succ n =>
    have hinit : (List.range n).flatMap x.tileAt = (List.range n).flatMap f := by
      rw [List.flatMap_def, List.flatMap_def,
        List.map_congr_left fun j hj => hfull j (Nat.succ_lt_succ (List.mem_range.1 hj))]
    rw [List.range_succ, List.flatMap_append, List.flatMap_append, hinit, List.flatMap_singleton,
      List.flatMap_singleton, hlast n rfl, if_neg (Nat.succ_ne_zero n), List.append_assoc]

/-- Less than a byte of padding is dropped (R222). -/
theorem pack_whole_bytes {d : List Byte} {pad : Bits} (h : pad.length < 8) :
    pack ((unpack d ++ pad).take (8 * ((unpack d ++ pad).length / 8))) = d := by
  have hlen : 8 * ((unpack d ++ pad).length / 8) = (unpack d).length := by
    rw [List.length_append, unpack_length]
    omega
  rw [hlen, List.take_left, pack_unpack]

/-- Settles O58: the tiles join to the message's bits and the padding, of which the whole bytes are
the message. -/
theorem reassemblyUndoesTiling : Obligations.ReassemblyUndoesTiling := by
  intro mtu r d x pad hfit k hpad hfull hlast
  rw [reassemble, flatMap_tileAt k hfull hlast, (tilesMakeTheMessage mtu r d hfit).1]
  refine pack_whole_bytes ?_
  split
  · decide
  · exact hpad

/-! ### Messages one by one -/

theorem feed_cons {d : List Byte} {ds : List (List Byte)} {s t : State} {r : CmdResult}
    (h : exec (.rxFragInput d) s = .next (withResult t r)) :
    feed (d :: ds) s = (feed ds (withResult t r)).map fun x => (x.1, r :: x.2) := by
  rw [feed, h]
  rfl

theorem feed_append {ds es : List (List Byte)} {s t u : State} {rs qs : List CmdResult}
    (h : feed ds s = some (t, rs)) (h' : feed es t = some (u, qs)) :
    feed (ds ++ es) s = some (u, rs ++ qs) := by
  induction ds generalizing s rs with
  | nil =>
    obtain ⟨rfl, rfl⟩ := Prod.mk.inj (Option.some.inj h)
    exact h'
  | cons d ds ih =>
    rw [List.cons_append, feed]
    rw [feed] at h
    split at h
    · obtain ⟨⟨v, vs⟩, hv, heq⟩ := Option.map_eq_some_iff.1 h
      obtain ⟨rfl, rfl⟩ := Prod.mk.inj heq
      simp only [ih hv, Option.map_some, List.append_assoc]
    · cases h
    · cases h

/-- Only the first message meets the state; after it the two runs are one. -/
theorem feed_congr {d : List Byte} {ds : List (List Byte)} {s t : State}
    (h : exec (.rxFragInput d) s = exec (.rxFragInput d) t) :
    feed (d :: ds) s = feed (d :: ds) t := by
  rw [feed, feed, h]

/-! ### The tiles of a message as RX reads them -/

/-- The zero bits `pack` adds after tile `j` (R12, R89). -/
def tilePad (mtu : Nat) (r : FragRule) (d : List Byte) (j : Nat) : Bits :=
  zeros ((8 - (hdrBits r + (tile mtu r d j).length) % 8) % 8)

/-- Tile `j` as RX reads it: all that follows the header of its fragment (R89, R212). -/
def paddedTile (mtu : Nat) (r : FragRule) (d : List Byte) (j : Nat) : Bits :=
  tile mtu r d j ++ tilePad mtu r d j

section
variable {mtu : Nat} {r : FragRule} {d : List Byte} {j : Nat}

theorem tilePad_length_lt : (tilePad mtu r d j).length < 8 := by
  rw [tilePad, zeros_length]
  omega

theorem tile_length_le : (tile mtu r d j).length ≤ tileBits mtu r := by
  rw [← tileOf_eq_tile, tileOf_length]
  exact Nat.min_le_left _ _

theorem tile_ne_nil (hfit : mtuFits mtu r) (hj : j < tileCount mtu r d.length) :
    tile mtu r d j ≠ [] := by
  have hstart := tile_start_lt hfit hj
  have hpos := tileBits_pos hfit
  rw [← List.length_pos_iff, ← tileOf_eq_tile, tileOf_length]
  omega

/-- A fragment is never longer than the MTU, so its padded tile fits where a tile does (R171). -/
theorem paddedTile_length_le (hfit : mtuFits mtu r) :
    (paddedTile mtu r d j).length ≤ tileBits mtu r := by
  have hle := tile_length_le (mtu := mtu) (r := r) (d := d) (j := j)
  have hmtu := hfit.1
  rw [paddedTile, tilePad, List.length_append, zeros_length]
  unfold tileBits at hle ⊢
  omega

/-- A fragment but the last fills the MTU, so its tile is not padded (R92, R171). -/
theorem paddedTile_of_not_last (hfit : mtuFits mtu r) (hj : j + 1 < tileCount mtu r d.length) :
    paddedTile mtu r d j = tile mtu r d j := by
  have hlen : (tile mtu r d j).length = tileBits mtu r := by
    rw [← tileOf_eq_tile, tileOf_length_of_not_last hfit hj]
  have hmtu : hdrBits r + tileBits mtu r = 8 * mtu := Nat.add_sub_of_le (Nat.le_of_succ_le hfit.1)
  rw [paddedTile, tilePad, hlen, hmtu, Nat.mul_mod_right]
  exact List.append_nil _

/-- A slot that holds the tiles as RX reads them reassembles to the message (R222). -/
theorem reassemble_paddedTiles {x : RxSlot} (hfit : mtuFits mtu r)
    (htile : ∀ j < tileCount mtu r d.length, x.tileAt j = paddedTile mtu r d j) :
    reassemble x (tileCount mtu r d.length) = d := by
  refine reassemblyUndoesTiling mtu r d x (tilePad mtu r d (tileCount mtu r d.length - 1)) hfit
    tilePad_length_lt (fun j hj => ?_) fun j hj => ?_
  · rw [htile j (Nat.lt_of_succ_lt hj), paddedTile_of_not_last hfit hj]
  · have hlast : j = tileCount mtu r d.length - 1 := Nat.eq_sub_of_add_eq hj
    rw [htile j (Nat.lt_of_succ_le hj.le), paddedTile, ← hlast]

end

/-! ### A slot that holds the first tiles -/

/-- The slot is a connection in RECV, without its All-1, that holds the tiles `tl` at the positions
below `j` and no other (R216). -/
structure HoldsTiles (p : Params) (r : FragRule) (tl : Nat → Bits) (j : Nat) (x : RxSlot) :
    Prop where
  state : x.state = .recv
  stores : SlotStoresOk p x
  all1 : x.all1 = false
  rcvd : ∀ n, x.rcvdBit n = decide (n < j)
  tile : ∀ n < j, x.tileAt n = tl n
  count : noAck0 r → x.nAppend.toNat = j

/-- A FREE slot just opened holds no tile (R38, R214). -/
theorem holdsTiles_opened {p : Params} {r : FragRule} {tl : Nat → Bits} {x : RxSlot} {ri dt : Nat}
    (hx : SlotStoresOk p x) (hfree : x = x.released) : HoldsTiles p r tl 0 (x.opened ri dt) := by
  have hr : x.rcvd = [] := by rw [hfree]; rfl
  have ha : x.all1 = false := by rw [hfree]; rfl
  have hn : x.nAppend = 0 := by rw [hfree]; rfl
  refine ⟨rfl, hx, ha, fun n => ?_, nofun, fun _ => ?_⟩
  · rw [RxSlot.rcvdBit, RxSlot.opened_rcvd, hr]
    rfl
  · rw [RxSlot.opened_nAppend, hn]
    rfl

/-- The next tile stored (R216). -/
theorem HoldsTiles.stored {p : Params} {r : FragRule} {tl : Nat → Bits} {j : Nat} {x y : RxSlot}
    (h : HoldsTiles p r tl j x) (hj : j < 2 ^ 16) (hy : TileStored r j (tl j) x y)
    (hstores : SlotStoresOk p y) : HoldsTiles p r tl (j + 1) y := by
  obtain ⟨heq, hrcvd, htile⟩ := hy
  have hnew : x.rcvdBit j = false := by simp [h.rcvd]
  refine ⟨?_, hstores, ?_, fun n => ?_, fun n hn => ?_, fun hn => ?_⟩
  · rw [heq, h.state]
  · rw [heq, h.all1]
  · rw [hrcvd, h.rcvd]
    split
    · rw [eq_comm, decide_eq_true_eq]
      omega
    · rw [decide_eq_decide]
      omega
  · rw [htile]
    split
    · rename_i hnj
      rw [hnj.1]
    · rename_i hnj
      have hne : n ≠ j := fun h => hnj ⟨h, .inr hnew⟩
      exact h.tile n (by omega)
  · have hcount := h.count hn
    rw [heq]
    simp only [if_pos hn]
    bv_omega

/-! ### A regular fragment on its slot -/

/-- A tile that fits, on a slot without its All-1, is accepted and answered ONGOING (R216, R219). -/
theorem rxRegular_ongoing {r : FragRule} {w q i : Nat} {t : Bits} {evs : List Event} {s : State}
    (hall1 : (rxSlot s i).all1 = false)
    (hfits : ¬ beyondStorage s (tilePos r (rxSlot s i) w q) t) :
    ∃ evs', rxRegular r w q t i evs s =
      reply (setRx s i ((rxSlot s i).accept r (tilePos r (rxSlot s i) w q) t).arm)
        (slotResult .ongoing i evs') := by
  simp only [rxRegular, hall1, Bool.false_eq_true, false_and, and_false, if_false, if_neg hfits,
    windowEval_eq]
  split
  · exact ⟨_, rfl⟩
  split
  · exact ⟨_, rfl⟩
  · exact ⟨_, rfl⟩

/-- The connection stays the one of its slot while the slot keeps its key (R213). -/
theorem findConn_setRx_of_isConn {s : State} {ri dt i : Nat} {y : RxSlot}
    (h : findConn s ri dt = some i) (hy : isConn ri dt y) :
    findConn (setRx s i y) ri dt = some i := by
  obtain ⟨hi, -, hmin⟩ := findConn_some h
  have hi' : i < (setRx s i y).rx.length := by rwa [setRx_length]
  refine List.findIdx?_eq_some_iff_getElem.2 ⟨hi', ?_, fun n hn => ?_⟩
  · rw [← rxSlot_eq_getElem hi', rxSlot_setRx_self _ hi]
    exact decide_eq_true hy
  · rw [← rxSlot_eq_getElem (hn.trans hi'), rxSlot_setRx_ne _ hn.ne]
    simpa only [decide_eq_true_eq] using hmin n hn

/-! ### The All-1 on a slot that holds every tile -/

/-- HP where the positions below `hp` are received and no other (R221). -/
theorem highPos_eq {got : Nat → Bool} {n hp : Nat} (hgot : ∀ q < n, got q = decide (q < hp))
    (hn : hp ≤ n) : highPos got n = hp := by
  induction n with
  | zero => exact (Nat.le_zero.1 hn).symm
  | succ n ih =>
    rw [highPos, hgot n n.lt_succ_self]
    rcases Nat.lt_or_ge n hp with hlt | hge
    · rw [if_pos (decide_eq_true hlt)]
      omega
    · rw [if_neg (by simpa using hge)]
      exact ih (fun q hq => hgot q (Nat.lt_succ_of_lt hq)) hge

/-- Slot `i` has received the `k` first positions and no other, and `k / WS` is its last window
(R171, R217). -/
structure HasAll (s : State) (i : Nat) (r : FragRule) (k : Nat) : Prop where
  ws : 1 ≤ r.ws
  rcvd : ∀ p, rcvdAt s i p = decide (p < k)
  wl : (rxSlot s i).wl.toNat = k / r.ws

namespace HasAll
variable {s : State} {i k : Nat} {r : FragRule}

theorem windowMap_eq (h : HasAll s i r k) {w : Nat} (hw : w < (rxSlot s i).wl.toNat) :
    windowMap s i r w = zeros r.ws := by
  rw [windowMap, zeros, List.eq_replicate_iff]
  refine ⟨by simp, fun b hb => ?_⟩
  obtain ⟨q, hq, rfl⟩ := List.mem_map.1 hb
  have hlt : w * r.ws + q < k := by
    have hq := List.mem_range.1 hq
    have hle : (w + 1) * r.ws ≤ k / r.ws * r.ws := Nat.mul_le_mul_right _ (h.wl ▸ hw)
    have hk := Nat.div_mul_le_self k r.ws
    rw [Nat.succ_mul] at hle
    omega
  rw [h.rcvd, decide_eq_true hlt]
  rfl

theorem firstGap_eq (h : HasAll s i r k) : firstGap s i r = none := by
  refine List.find?_eq_none.2 fun w hw => ?_
  simp [h.windowMap_eq (List.mem_range.1 hw)]

theorem rcvd_last (h : HasAll s i r k) (q : Nat) :
    rcvdAt s i ((rxSlot s i).wl.toNat * r.ws + q) = decide (q < k % r.ws) := by
  have hk := Nat.div_add_mod' k r.ws
  rw [h.rcvd, h.wl, decide_eq_decide]
  omega

theorem hpOf_eq (h : HasAll s i r k) : hpOf s i r = k % r.ws :=
  highPos_eq (fun q _ => h.rcvd_last q) (Nat.mod_lt k h.ws).le

theorem lastMap_eq (h : HasAll s i r k) : lastMap s i r = zeros r.ws := by
  rw [lastMap, zeros, List.eq_replicate_iff]
  refine ⟨by simp, fun b hb => ?_⟩
  obtain ⟨q, -, rfl⟩ := List.mem_map.1 hb
  rw [h.hpOf_eq, h.rcvd_last, Bool.and_not_self]

theorem wholeMessage_eq (h : HasAll s i r k) :
    wholeMessage s i r = reassemble (rxSlot s i) k := by
  rw [wholeMessage, h.hpOf_eq, h.wl, Nat.div_add_mod']

/-- FinalEval (R220) delivers the message where its MIC is the slot's. -/
theorem finalEval_completes (h : HasAll s i r k) (evs : List Event)
    (hmic : micOf s.cfg.par.micFn (reassemble (rxSlot s i) k) = (rxSlot s i).mic) :
    ∃ evs', finalEval r i evs s = reply (setRx s i (rxSlot s i).completed)
      { slotResult .completed i evs' with dataOut := reassemble (rxSlot s i) k } := by
  rw [← h.wholeMessage_eq] at hmic ⊢
  simp only [finalEval, h.firstGap_eq, h.lastMap_eq, ne_eq, not_true_eq_false, if_false,
    if_pos hmic]
  exact ⟨_, rfl⟩

/-- NoAckFinal (R223) with `M ≥ 1` delivers the message where its MIC is the slot's. -/
theorem noAckFinal_completes (h : HasAll s i r k) (evs : List Event) (hm : r.m ≠ 0)
    (hmic : micOf s.cfg.par.micFn (reassemble (rxSlot s i) k) = (rxSlot s i).mic) :
    noAckFinal r i evs s = reply (setRx s i (rxSlot s i).completed)
      { slotResult .completed i evs with dataOut := reassemble (rxSlot s i) k } := by
  rw [← h.wholeMessage_eq] at hmic ⊢
  have hgap : ¬ noAckGap s i r := by simp [noAckGap, h.firstGap_eq, h.lastMap_eq]
  simp only [noAckFinal, if_neg hm, hgap, and_false, if_false, if_pos hmic]

end HasAll

/-- NoAckFinal (R223) with `M = 0` delivers the appended tiles where their MIC is the slot's. -/
theorem noAckFinal_appended {s : State} {i : Nat} {r : FragRule} (evs : List Event) (hm : r.m = 0)
    (hmic : micOf s.cfg.par.micFn (reassemble (rxSlot s i) (rxSlot s i).nAppend.toNat) =
      (rxSlot s i).mic) :
    noAckFinal r i evs s = reply (setRx s i (rxSlot s i).completed)
      { slotResult .completed i evs with
        dataOut := reassemble (rxSlot s i) (rxSlot s i).nAppend.toNat } := by
  simp only [noAckFinal, hm, ne_eq, not_true_eq_false, false_and, if_false, if_true, if_pos hmic]

end Sys2Proof.Machine
end

section
/-!
Proofs of the family 41_tx, the round trip (spec/42_rx.md R227): one message after the other, with
what the receiver's slot holds between them.
-/

namespace Sys2Proof.Machine

open Sys2Proof.Safety

/-- The messages of an exchange in order: its `k` regular fragments and the All-1 (R171, R174). -/
def exchangeMessages (cfg : Config) (mtu : Nat) (r : FragRule) (dtag : Nat) (d : List Byte) :
    List (List Byte) :=
  (List.range (tileCount mtu r d.length)).map (fragment mtu r dtag d) ++
    [all1Message cfg.par.micFn r dtag (tileCount mtu r d.length / r.ws) d]

/-- The premises on a message and its receiver's configuration (R171, R212, R216): the rule serves RX
and no earlier one opens the messages, and the windows and tiles fit the W field and the slot. -/
structure Deliverable (cfg : Config) (mtu ri : Nat) (r : FragRule) (dtag : Nat) (d : List Byte) :
    Prop where
  cfgOk : paramsOk cfg.par ∧ ctxOk cfg.ctx
  rule : cfg.ctx.frag[ri]? = some r
  serves : serves r (otherDir cfg.par.txDir)
  ruleOk : fragRuleOk r
  fits : mtuFits mtu r
  dtag_lt : dtag < 2 ^ r.t
  windows : 1 ≤ r.m → tileCount mtu r d.length / r.ws < 2 ^ r.m
  slots : tileCount mtu r d.length ≤ cfg.par.rxMaxSlots
  tiles : tileBits mtu r ≤ cfg.par.rxTileBits
  first : ∀ msg ∈ exchangeMessages cfg mtu r dtag d, ∀ n < ri, ∀ g, cfg.ctx.frag[n]? = some g →
    ¬ opensWith (otherDir cfg.par.txDir) (unpack msg) g

/-- `Frag(j)` as RX parses it (R212). -/
def tileFrag (mtu ri : Nat) (r : FragRule) (dtag : Nat) (d : List Byte) (j : Nat) : Frag :=
  { ri := ri, rule := r, dt := dtag, w := j / r.ws % 2 ^ r.m
    body := .reg (j % r.ws) (paddedTile mtu r d j) }

/-- The All-1 as RX parses it (R212). -/
def allOneFrag (f : MicFn) (mtu ri : Nat) (r : FragRule) (dtag : Nat) (d : List Byte) : Frag :=
  { ri := ri, rule := r, dt := dtag, w := tileCount mtu r d.length / r.ws % 2 ^ r.m
    body := .all1 (micOf f d) }

/-- The slot of the connection holds the first `j` tiles of the message (R213, R216). -/
structure Receiving (cfg : Config) (mtu ri : Nat) (r : FragRule) (dtag : Nat) (d : List Byte)
    (i j : Nat) (u : State) : Prop where
  cfgEq : u.cfg = cfg
  conn : findConn u ri dtag = some i
  slot : HoldsTiles cfg.par r (paddedTile mtu r d) j (rxSlot u i)

/-- The answer delivers the message on slot `i` (R220, R223). -/
def Delivers (d : List Byte) (i : Nat) (a : Answer) : Prop :=
  ∃ t res, a = .next (withResult t res) ∧ res.status = .completed ∧ res.dataOut = d ∧
    res.r0 = slotWord i ∧ (rxSlot t i).state = .done

theorem delivers_completed {d : List Byte} {i : Nat} {s : State} (x : RxSlot) (evs : List Event)
    (hi : i < s.rx.length) :
    Delivers d i (reply (setRx s i x.completed)
      { slotResult .completed i evs with dataOut := d }) :=
  ⟨_, _, rfl, rfl, rfl, rfl, by rw [rxSlot_setRx_self _ hi, RxSlot.completed_state]⟩

/-- The evaluation of a slot that has every tile delivers the message they make, where its MIC is
the slot's (R220, R223): under NO_ACK with `M = 0` by the number of tiles appended. -/
theorem delivers_of_hasAll {d : List Byte} {i k : Nat} {r : FragRule} {s : State} (evs : List Event)
    (hok : fragRuleOk r) (hi : i < s.rx.length) (hall : 1 ≤ r.m → HasAll s i r k)
    (hcount : noAck0 r → (rxSlot s i).nAppend.toNat = k) (hmsg : reassemble (rxSlot s i) k = d)
    (hmic : micOf s.cfg.par.micFn d = (rxSlot s i).mic) :
    Delivers d i (if isNoAck r then noAckFinal r i evs s else finalEval r i evs s) := by
  subst hmsg
  split
  · rename_i hmode
    rcases Nat.eq_zero_or_pos r.m with hm | hm
    · obtain rfl := hcount ⟨hmode, hm⟩
      rw [noAckFinal_appended evs hm hmic]
      exact delivers_completed _ _ hi
    · rw [(hall hm).noAckFinal_completes evs hm.ne' hmic]
      exact delivers_completed _ _ hi
  · rename_i hmode
    obtain ⟨evs', hfinal⟩ := (hall (one_le_m hok hmode)).finalEval_completes evs hmic
    rw [hfinal]
    exact delivers_completed _ _ hi

/-- A fragment of the connection is delivered to its slot (R211). -/
theorem Receiving.exec {cfg : Config} {mtu ri : Nat} {r : FragRule} {dtag : Nat} {d : List Byte}
    {i j : Nat} {u : State} (hu : Receiving cfg mtu ri r dtag d i j u) {msg : List Byte}
    {rule : FragRule} {w : Nat} {body : FragBody}
    (h : parseFrag cfg (unpack msg) = .ok (some ⟨ri, rule, dtag, w, body⟩)) :
    exec (.rxFragInput msg) u = rxDeliver ⟨ri, rule, dtag, w, body⟩ i [] u :=
  (execRxFragInput_of_parse (hu.cfgEq ▸ h)).trans (rxAccept_of_recv hu.conn hu.slot.state)

/-- The first All-1 of a slot is stored, and the slot evaluated (R217). -/
theorem rxAllOne_accepted {r : FragRule} {w i : Nat} {mic : Word} {evs : List Event} {s : State}
    (h : (rxSlot s i).all1 = false) :
    rxAllOne r w mic i evs s =
      if isNoAck r then noAckFinal r i (evs ++ armRxEvents s i (rxSlot s i))
        (setRx s i ((rxSlot s i).acceptAll1 w mic).arm)
      else finalEval r i (evs ++ armRxEvents s i (rxSlot s i))
        (setRx s i ((rxSlot s i).acceptAll1 w mic).arm) := by
  simp only [rxAllOne, h, Bool.false_eq_true, false_and, and_false, if_false]

namespace Deliverable
variable {cfg : Config} {mtu ri : Nat} {r : FragRule} {dtag : Nat} {d : List Byte}

theorem slots_le (h : Deliverable cfg mtu ri r dtag d) : cfg.par.rxMaxSlots ≤ 2 ^ 16 := by
  obtain ⟨-, -, ⟨-, hmax⟩, -⟩ := h.cfgOk.1
  exact hmax

theorem parse_fragment (h : Deliverable cfg mtu ri r dtag d) {j : Nat}
    (hj : j < tileCount mtu r d.length) :
    parseFrag cfg (unpack (fragment mtu r dtag d j)) =
      .ok (some (tileFrag mtu ri r dtag d j)) := by
  have hmem : fragment mtu r dtag d j ∈ exchangeMessages cfg mtu r dtag d :=
    List.mem_append_left _ (List.mem_map_of_mem (List.mem_range.2 hj))
  have hparse := (wireFormatIsParsed cfg ri r dtag (j / r.ws % 2 ^ r.m) h.rule h.serves h.ruleOk
    h.dtag_lt (Nat.mod_lt _ (Nat.two_pow_pos _))).1 (j % r.ws) (tile mtu r d j)
    (Nat.mod_lt _ (one_le_ws h.ruleOk)) (tile_ne_nil h.fits hj) (h.first _ hmem)
  simpa [hdrBits, tileFrag, paddedTile, tilePad, fragment, Nat.add_assoc] using hparse

theorem parse_all1 (h : Deliverable cfg mtu ri r dtag d) :
    parseFrag cfg (unpack (all1Message cfg.par.micFn r dtag (tileCount mtu r d.length / r.ws) d)) =
      .ok (some (allOneFrag cfg.par.micFn mtu ri r dtag d)) := by
  have hfirst := h.first _ (List.mem_append_right _ (List.mem_singleton_self _))
  have hparse := (wireFormatIsParsed cfg ri r dtag (tileCount mtu r d.length / r.ws % 2 ^ r.m)
    h.rule h.serves h.ruleOk h.dtag_lt (Nat.mod_lt _ (Nat.two_pow_pos _))).2
    (micOf cfg.par.micFn d) []
  simp only [List.append_nil] at hparse
  exact hparse hfirst

/-- Tile `j`'s window and FCN name position `j`: the W field holds its window (R172, R173). -/
theorem position_eq (h : Deliverable cfg mtu ri r dtag d) {j : Nat}
    (hj : j < tileCount mtu r d.length) (hn : ¬ noAck0 r) :
    j / r.ws % 2 ^ r.m * r.ws + j % r.ws = j := by
  have hm : 1 ≤ r.m := by
    by_contra hm0
    exact hn ⟨not_not.1 fun hmode => hm0 (one_le_m h.ruleOk hmode), by omega⟩
  have hwin : j / r.ws < 2 ^ r.m := (Nat.div_le_div_right hj.le).trans_lt (h.windows hm)
  rw [Nat.mod_eq_of_lt hwin, Nat.div_add_mod']

/-- Tile `j` goes to position `j`, also where it is the next one appended (R216). -/
theorem tilePos_eq (h : Deliverable cfg mtu ri r dtag d) {j : Nat}
    (hj : j < tileCount mtu r d.length) {x : RxSlot} (hx : noAck0 r → x.nAppend.toNat = j) :
    tilePos r x (j / r.ws % 2 ^ r.m) (j % r.ws) = j := by
  unfold tilePos
  split
  · exact hx ‹_›
  · exact h.position_eq hj ‹_›

theorem paddedTile_length_le (h : Deliverable cfg mtu ri r dtag d) (j : Nat) :
    (paddedTile mtu r d j).length ≤ cfg.par.rxTileBits :=
  (Machine.paddedTile_length_le h.fits).trans h.tiles

theorem not_beyondStorage (h : Deliverable cfg mtu ri r dtag d) {p : Nat}
    (hp : p < tileCount mtu r d.length) (j : Nat) {s : State} (hs : s.cfg = cfg) :
    ¬ beyondStorage s p (paddedTile mtu r d j) := by
  rw [beyondStorage, hs, not_or]
  exact ⟨Nat.not_le.2 (hp.trans_le h.slots), Nat.not_lt.2 (h.paddedTile_length_le j)⟩

/-- A regular fragment is answered ONGOING and its tile is kept (R216). -/
theorem feed_fragment (h : Deliverable cfg mtu ri r dtag d) {i j : Nat} {u : State}
    (hu : Receiving cfg mtu ri r dtag d i j u) (hj : j < tileCount mtu r d.length) :
    ∃ t rs, feed [fragment mtu r dtag d j] u = some (t, rs) ∧ rs.map (·.status) = [.ongoing] ∧
      Receiving cfg mtu ri r dtag d i (j + 1) t := by
  have hpos := h.tilePos_eq hj hu.slot.count
  obtain ⟨evs, hreg⟩ := rxRegular_ongoing (r := r) (w := j / r.ws % 2 ^ r.m) (q := j % r.ws)
    (t := paddedTile mtu r d j) (evs := []) hu.slot.all1
    (by rw [hpos]; exact h.not_beyondStorage hj j hu.cfgEq)
  rw [hpos] at hreg
  have hexec := (hu.exec (h.parse_fragment hj)).trans hreg
  have hstores : SlotStoresOk cfg.par ((rxSlot u i).accept r j (paddedTile mtu r d j)) := by
    have := slotStoresOk_accept (t := paddedTile mtu r d j) hu.slot.stores
      (hpos.symm ▸ hj.trans_le h.slots) (h.paddedTile_length_le j)
    rwa [hpos] at this
  have hslot := hu.slot.stored ((hj.trans_le h.slots).trans_le h.slots_le)
    (tileStored_accept hu.slot.stores r j (paddedTile mtu r d j)) hstores
  obtain ⟨hi, hkey, -⟩ := findConn_some hu.conn
  refine ⟨_, _, feed_cons hexec, rfl, hu.cfgEq, findConn_setRx_of_isConn hu.conn ?_,
    (rxSlot_setRx_self (s := u) _ hi).symm ▸ hslot⟩
  simpa only [isConn, RxSlot.arm_state, RxSlot.accept_state, RxSlot.arm_rule, RxSlot.accept_rule,
    RxSlot.arm_dtag, RxSlot.accept_dtag] using hkey

/-- The regular fragments below `j`, in order (R227). -/
theorem feed_fragments (h : Deliverable cfg mtu ri r dtag d) {i : Nat} {u : State}
    (hu : Receiving cfg mtu ri r dtag d i 0 u) (j : Nat) (hj : j ≤ tileCount mtu r d.length) :
    ∃ t rs, feed ((List.range j).map (fragment mtu r dtag d)) u = some (t, rs) ∧
      rs.map (·.status) = List.replicate j .ongoing ∧ Receiving cfg mtu ri r dtag d i j t := by
  induction j with
  | zero => exact ⟨u, [], rfl, rfl, hu⟩
  | succ j ih =>
    obtain ⟨t, rs, hfeed, hst, ht⟩ := ih (Nat.le_of_succ_le hj)
    obtain ⟨v, qs, hfeed', hst', hv⟩ := h.feed_fragment ht hj
    refine ⟨v, rs ++ qs, ?_, ?_, hv⟩
    · rw [List.range_succ, List.map_append]
      exact feed_append hfeed hfeed'
    · rw [List.map_append, hst, hst', List.replicate_succ']

/-- A slot with all the tiles and the window of the All-1, under a rule with windows (R217). -/
theorem hasAll_setRx (h : Deliverable cfg mtu ri r dtag d) {i : Nat} {u : State}
    (hu : Receiving cfg mtu ri r dtag d i (tileCount mtu r d.length) u) (hm : 1 ≤ r.m) {y : RxSlot}
    (hrcvd : y.rcvdBit = (rxSlot u i).rcvdBit)
    (hwl : y.wl = BitVec.ofNat 8 (tileCount mtu r d.length / r.ws % 2 ^ r.m)) :
    HasAll (setRx u i y) i r (tileCount mtu r d.length) := by
  have hself := rxSlot_setRx_self (s := u) y (findConn_some hu.conn).1
  refine ⟨one_le_ws h.ruleOk, fun p => ?_, ?_⟩
  · rw [rcvdAt, hself, setRx_cfg, hu.cfgEq, hrcvd, hu.slot.rcvd, ← Bool.decide_and,
      decide_eq_decide]
    exact and_iff_right_of_imp fun hp => hp.trans_le h.slots
  · obtain ⟨-, -, -, -, -, -, hm8, -⟩ := h.ruleOk
    have hlt : tileCount mtu r d.length / r.ws < 2 ^ 8 :=
      (h.windows hm).trans_le (Nat.pow_le_pow_right (by decide) hm8)
    rw [hself, hwl, BitVec.toNat_ofNat, Nat.mod_eq_of_lt (h.windows hm), Nat.mod_eq_of_lt hlt]

/-- The All-1, once every tile is there, delivers the message (R217, R220, R223). -/
theorem exec_all1 (h : Deliverable cfg mtu ri r dtag d) {i : Nat} {u : State}
    (hu : Receiving cfg mtu ri r dtag d i (tileCount mtu r d.length) u) :
    Delivers d i (exec (.rxFragInput
      (all1Message cfg.par.micFn r dtag (tileCount mtu r d.length / r.ws) d)) u) := by
  have hi := (findConn_some hu.conn).1
  rw [hu.exec h.parse_all1, rxDeliver]
  dsimp only
  rw [rxAllOne_accepted hu.slot.all1]
  generalize hy : ((rxSlot u i).acceptAll1 (tileCount mtu r d.length / r.ws % 2 ^ r.m)
    (micOf cfg.par.micFn d)).arm = y
  have hself : rxSlot (setRx u i y) i = y := rxSlot_setRx_self y hi
  have htile : y.tileAt = (rxSlot u i).tileAt := by rw [← hy]; rfl
  refine delivers_of_hasAll _ h.ruleOk (by rwa [setRx_length]) (k := tileCount mtu r d.length)
    (fun hm => h.hasAll_setRx hu hm (by rw [← hy]; rfl) (by rw [← hy]; rfl)) (fun hn => ?_) ?_ ?_
  · rw [hself, ← hy]
    exact hu.slot.count hn
  · rw [hself]
    exact reassemble_paddedTiles h.fits (htile ▸ hu.slot.tile)
  · rw [hself, setRx_cfg, hu.cfgEq, ← hy]
    rfl

/-! ### The first message -/

/-- The messages of the exchange can all open a slot (R214). -/
theorem parse_message (h : Deliverable cfg mtu ri r dtag d) {msg : List Byte}
    (hmsg : msg ∈ exchangeMessages cfg mtu r dtag d) {s : State} (hs : s.cfg = cfg) :
    ∃ f, parseFrag cfg (unpack msg) = .ok (some f) ∧ f.ri = ri ∧ f.dt = dtag ∧
      firstTooBig s f = false := by
  rcases List.mem_append.1 hmsg with hfrag | hall1
  · obtain ⟨j, hj, rfl⟩ := List.mem_map.1 hfrag
    have hj := List.mem_range.1 hj
    have hpos : (if noAck0 r then 0 else j / r.ws % 2 ^ r.m * r.ws + j % r.ws) <
        tileCount mtu r d.length := by
      split
      · exact Nat.zero_lt_of_lt hj
      · rwa [h.position_eq hj ‹_›]
    exact ⟨_, h.parse_fragment hj, rfl, rfl, decide_eq_false (h.not_beyondStorage hpos j hs)⟩
  · obtain rfl := List.mem_singleton.1 hall1
    exact ⟨_, h.parse_all1, rfl, rfl, rfl⟩

/-- The first message of a new connection does what it would on the slot already opened (R214). -/
theorem exec_first (h : Deliverable cfg mtu ri r dtag d) {msg : List Byte}
    (hmsg : msg ∈ exchangeMessages cfg mtu r dtag d) {s : State} (hs : s.cfg = cfg) {i : Nat}
    (hnone : findConn s ri dtag = none) (hfree : findFree s = some i) :
    exec (.rxFragInput msg) s =
      exec (.rxFragInput msg) (setRx s i ((rxSlot s i).opened ri dtag)) := by
  obtain ⟨f, hparse, rfl, rfl, hbig⟩ := h.parse_message hmsg hs
  subst hs
  calc exec (.rxFragInput msg) s = rxAccept f s := execRxFragInput_of_parse hparse
    _ = rxCreate f s := by rw [rxAccept, hnone]
    _ = rxOpen f [] s := by rw [rxCreate, if_neg (by simp [hfree]), if_neg (by simp [hbig])]
    _ = rxDeliver f i [] (setRx s i ((rxSlot s i).opened f.ri f.dt)) := by rw [rxOpen, hfree]
    _ = exec (.rxFragInput msg) (setRx s i ((rxSlot s i).opened f.ri f.dt)) :=
      (execRxFragInput_opened h.cfgOk hparse hnone (findFree_some hfree).1).symm

theorem receiving_opened (h : Deliverable cfg mtu ri r dtag d) {s : State} (hs : s.cfg = cfg)
    (hrx : RxSlotsOk s) {i : Nat} (hnone : findConn s ri dtag = none)
    (hfree : findFree s = some i) :
    Receiving cfg mtu ri r dtag d i 0 (setRx s i ((rxSlot s i).opened ri dtag)) := by
  subst hs
  obtain ⟨hi, hst, -⟩ := findFree_some hfree
  obtain ⟨hstores, ⟨-, hreleased⟩, -⟩ := hrx.2 _ (rxSlot_mem hi)
  have hf := fragOk_of_parseFrag h.parse_all1
  refine ⟨rfl, findConn_opened hnone hi (hf.ri_lt h.cfgOk.2) hf.dt_lt, ?_⟩
  rw [rxSlot_setRx_self _ hi]
  exact holdsTiles_opened hstores (hreleased hst)

/-- The regular fragments leave every tile in the slot, and the All-1 finds them (R227). -/
theorem feed_messages (h : Deliverable cfg mtu ri r dtag d) {i : Nat} {u : State}
    (hu : Receiving cfg mtu ri r dtag d i 0 u) :
    ∃ t rs last, feed (exchangeMessages cfg mtu r dtag d) u = some (t, rs ++ [last]) ∧
      rs.map (·.status) = List.replicate (tileCount mtu r d.length) .ongoing ∧
      last.status = .completed ∧ last.dataOut = d ∧ last.r0 = slotWord i ∧
      (rxSlot t i).state = .done := by
  obtain ⟨t, rs, hfeed, hst, ht⟩ := h.feed_fragments hu _ le_rfl
  obtain ⟨v, last, hexec, hlast⟩ := h.exec_all1 ht
  exact ⟨withResult v last, rs, last, feed_append hfeed (feed_cons hexec), hst, hlast⟩

end Deliverable

/-- Settles O59: the first message opens the slot, each regular one adds its tile, and the All-1
finds them all. -/
theorem fragmentationRoundTrip : Obligations.FragmentationRoundTrip := by
  intro mtu s ri r dtag i d hcfg hrx hr hserves hok hfit hdt k wl hwin hslots htiles messages hfirst
    hnone hfree
  have h : Deliverable s.cfg mtu ri r dtag d :=
    ⟨hcfg, hr, hserves, hok, hfit, hdt, hwin, hslots, htiles, hfirst⟩
  obtain ⟨msg, rest, hmsgs⟩ : ∃ msg rest, messages = msg :: rest :=
    List.exists_cons_of_ne_nil (List.append_ne_nil_of_right_ne_nil _ (List.cons_ne_nil _ _))
  have hopen : feed messages s = feed messages (setRx s i ((rxSlot s i).opened ri dtag)) := by
    have hmem : msg ∈ messages := hmsgs ▸ List.mem_cons_self
    rw [hmsgs, feed_congr (h.exec_first hmem rfl hnone hfree)]
  rw [hopen]
  exact h.feed_messages (h.receiving_opened rfl hrx hnone hfree)

end Sys2Proof.Machine
end

section
/-!
Proofs of the family 42_rx, a fragment before any slot is looked at and on no live connection
(spec/42_rx.md R211 to R215, R225): what Parse answers, the slot a new connection opens, the answer
to a duplicate, and the silence of NO_ACK.
-/

namespace Sys2Proof.Machine

open Sys2Proof.Safety

/-! ### Parse -/

theorem dirCode_otherDir (d : Direction) : dirCode (otherDir d) = 3 - dirCode d := by
  cases d with
  | up => rfl
  | down => rfl

theorem parseFrag_of_no_rule {cfg : Config} {b : Bits}
    (h : ∀ r ∈ cfg.ctx.frag, ¬ opensWith (otherDir cfg.par.txDir) b r) :
    parseFrag cfg b = .error .errLookup := by
  rw [parseFrag, List.findIdx?_eq_none_iff.2 fun r hr => decide_eq_false (h r hr)]

/-- The checks of Parse (R212) on the first rule that opens the message. -/
theorem parseFrag_of_opens {cfg : Config} {b : Bits} {ri : Nat} {r : FragRule}
    (hr : cfg.ctx.frag[ri]? = some r) (hopen : opensWith (otherDir cfg.par.txDir) b r)
    (hfirst : ∀ n < ri, ∀ g, cfg.ctx.frag[n]? = some g →
      ¬ opensWith (otherDir cfg.par.txDir) b g) :
    (¬ fragRuleOk r → parseFrag cfg b = .error .errConfig) ∧
      (fragRuleOk r → b.length < hdrBits r ∨ parseBody r b = none →
        parseFrag cfg b = .ok none) := by
  obtain ⟨hlt, hget⟩ := List.getElem?_eq_some_iff.1 hr
  have hfind : cfg.ctx.frag.findIdx?
      (fun r => decide (opensWith (otherDir cfg.par.txDir) b r)) = some ri := by
    refine List.findIdx?_eq_some_iff_getElem.2 ⟨hlt, hget.symm ▸ decide_eq_true hopen, ?_⟩
    exact fun n hn h =>
      hfirst n hn _ (List.getElem?_eq_getElem (hn.trans hlt)) (of_decide_eq_true h)
  rw [parseFrag, hfind]
  simp only [hr]
  refine ⟨fun hbad => if_pos hbad, fun hok hnone => (if_neg (not_not.2 hok)).trans ?_⟩
  split
  · rfl
  · rename_i hlen
    rw [hnone.resolve_left hlen, Option.map_none]

/-- What makes a message with a whole header malformed (R212). -/
theorem parseBody_none {r : FragRule} {b : Bits} (hok : fragRuleOk r)
    (h : let f := valAt b (r.rid.ridw + r.t + r.m) r.n
      (f = 2 ^ r.n - 1 ∧ b.length < hdrBits r + micW) ∨ (r.ws ≤ f ∧ f < 2 ^ r.n - 1) ∨
        (f < r.ws ∧ b.length = hdrBits r)) : parseBody r b = none := by
  obtain ⟨-, -, -, -, -, ⟨hpos, hws⟩, -⟩ := hok
  unfold parseBody
  dsimp only at h ⊢
  rcases h with ⟨hf, hlen⟩ | ⟨hge, hlt⟩ | ⟨hlt, hlen⟩
  · rw [if_pos hf, if_pos hlen]
  · rw [if_neg (by omega), if_neg (by omega)]
  · rw [if_neg (by omega), if_pos (by omega), if_pos (List.drop_eq_nil_of_le hlen.le)]

theorem exec_of_parse_error {d : List Byte} {s : State} {st : Status}
    (h : parseFrag s.cfg (unpack d) = .error st) : exec (.rxFragInput d) s = raise s st := by
  rw [exec, execRxFragInput, h]

theorem exec_of_parse_none {d : List Byte} {s : State}
    (h : parseFrag s.cfg (unpack d) = .ok none) :
    exec (.rxFragInput d) s = reply s (CmdResult.plain .ignored) := by
  rw [exec, execRxFragInput, h]

/-- Settles O49: the rule that opens the message, then its checks, then the body's. -/
theorem rxParseOutcomes : Obligations.RxParseOutcomes := by
  intro d s
  dsimp only
  rw [← dirCode_otherDir]
  refine ⟨fun hnone => exec_of_parse_error (parseFrag_of_no_rule hnone), ?_⟩
  intro ri r hr hopen hfirst
  obtain ⟨hbad, hmalformed⟩ := parseFrag_of_opens hr hopen hfirst
  refine ⟨fun hcfg => exec_of_parse_error (hbad hcfg), fun hok h => ?_⟩
  exact exec_of_parse_none (hmalformed hok (h.imp_right (parseBody_none hok)))

/-! ### A new connection -/

/-- Settles O50: Create opens the least FREE slot, and the fragment finds it there. -/
theorem rxCreateOpensSlot : Obligations.RxCreateOpensSlot := by
  intro d s f hcfg hparse hlive
  have hnone := findConn_none.2 hlive
  have hexec : exec (.rxFragInput d) s = rxCreate f s :=
    (execRxFragInput_of_parse hparse).trans (by rw [rxAccept, hnone])
  dsimp only
  rw [← firstTooBig_iff, hexec, rxCreate]
  refine ⟨fun h => ?_, fun hbig i hi hst hmin => ?_⟩
  · split
    · rfl
    · rename_i hfree
      exact if_pos (h.resolve_left fun hall => hfree (findFree_none.2 hall))
  · rw [findFree_eq_some hi hst hmin, if_neg (Option.some_ne_none i), if_neg hbig, rxOpen,
      findFree_eq_some hi hst hmin]
    exact (execRxFragInput_opened hcfg hparse hnone hi).symm

/-! ### A duplicate after DONE -/

/-- Duplicate (R215) in the terms of each kind of fragment. -/
theorem isDuplicate_iff {s : State} {i : Nat} {f : Frag} : isDuplicate s i f = true ↔
    (∃ q tl, f.body = .reg q tl ∧
      ((f.rule.mode = 0 ∧ f.rule.m = 0 ∧
          ∃ n < (rxSlot s i).nAppend.toNat, (rxSlot s i).tileAt n = tl) ∨
       (¬ (f.rule.mode = 0 ∧ f.rule.m = 0) ∧ rcvdAt s i (f.w * f.rule.ws + q) = true ∧
          (rxSlot s i).tileAt (f.w * f.rule.ws + q) = tl))) ∨
    ∃ mic, f.body = .all1 mic ∧ f.w = (rxSlot s i).wl.toNat ∧ mic = (rxSlot s i).mic := by
  unfold isDuplicate
  cases f.body with
  | reg q tl =>
    by_cases hn : noAck0 f.rule
    · simp [hn]
    · simp +contextual [hn, not_and.1 hn]
  | all1 mic => simp [and_comm]

theorem rxAccept_of_duplicate {s : State} {f : Frag} {i : Nat} (hc : findConn s f.ri f.dt = some i)
    (hst : (rxSlot s i).state = .done) (hdup : isDuplicate s i f = true) :
    rxAccept f s = reply s (slotResult .stayAlive i (doneReply s i f)) := by
  rw [rxAccept, hc]
  simp only [hst, hdup, if_true]

/-- Settles O51: the duplicate is found on its DONE slot, and DoneReply answers it. -/
theorem rxDuplicateAfterDone : Obligations.RxDuplicateAfterDone := by
  intro d s f i hparse hconn hdone
  dsimp only
  rw [← isDuplicate_iff]
  intro hdup
  exact (execRxFragInput_of_parse hparse).trans (rxAccept_of_duplicate hconn hdone hdup)

/-! ### The silence of NO_ACK -/

/-- No event of a list is a SEND. -/
def Silent (l : List Event) : Prop := ∀ bs, Event.send bs ∉ l

theorem silent_nil : Silent [] := fun _ => List.not_mem_nil

theorem Silent.append {l m : List Event} (hl : Silent l) (hm : Silent m) : Silent (l ++ m) :=
  fun bs h => (List.mem_append.1 h).elim (hl bs) (hm bs)

theorem silent_cancelEvents (c : Conn) (armed : Bool) : Silent (cancelEvents c armed) := by
  cases armed with
  | false => exact silent_nil
  | true => simp [Silent, cancelEvents]

theorem silent_armRxEvents (s : State) (i : Nat) (x : RxSlot) : Silent (armRxEvents s i x) :=
  (silent_cancelEvents _ _).append (by simp [Silent])

/-- The answer is a result whose events hold no SEND. -/
def AnswersSilently (a : Answer) : Prop := ∃ u r, a = reply u r ∧ Silent r.events

theorem answersSilently_reply {u : State} {r : CmdResult} (h : Silent r.events) :
    AnswersSilently (reply u r) := ⟨u, r, rfl, h⟩

section
variable {r : FragRule} {evs : List Event} (hmode : isNoAck r) (hevs : Silent evs) (i : Nat)
  (s : State)
include hevs

theorem micFail_silent : AnswersSilently (micFail i evs s) :=
  answersSilently_reply (hevs.append (silent_cancelEvents _ _))

theorem noAckFinal_silent (r : FragRule) : AnswersSilently (noAckFinal r i evs s) := by
  unfold noAckFinal
  dsimp only
  generalize (if r.m = 0 then _ else _ : List Byte) = m
  split
  · exact micFail_silent hevs i s
  split
  · exact answersSilently_reply hevs
  · exact micFail_silent hevs i s

include hmode

theorem rxRegular_silent (w q : Nat) (t : Bits) : AnswersSilently (rxRegular r w q t i evs s) := by
  unfold rxRegular
  dsimp only
  rw [if_pos hmode]
  split
  · exact answersSilently_reply hevs
  split
  · exact answersSilently_reply (hevs.append (silent_cancelEvents _ _))
  · exact answersSilently_reply (hevs.append (silent_armRxEvents _ _ _))

theorem rxAllOne_silent (w : Nat) (mic : Word) : AnswersSilently (rxAllOne r w mic i evs s) := by
  unfold rxAllOne
  dsimp only
  rw [if_pos hmode]
  split
  · exact answersSilently_reply hevs
  · exact noAckFinal_silent (hevs.append (silent_armRxEvents _ _ _)) i _ r

end

section
variable {f : Frag} (hmode : isNoAck f.rule) (s : State)
include hmode

theorem rxDeliver_silent {evs : List Event} (hevs : Silent evs) (i : Nat) :
    AnswersSilently (rxDeliver f i evs s) := by
  unfold rxDeliver
  split
  · exact rxRegular_silent hmode hevs _ _ _ _ _
  · exact rxAllOne_silent hmode hevs _ _ _ _

theorem rxOpen_silent {evs : List Event} (hevs : Silent evs) :
    AnswersSilently (rxOpen f evs s) := by
  unfold rxOpen
  split
  · exact answersSilently_reply silent_nil
  · exact rxDeliver_silent hmode _ hevs _

theorem doneReply_noAck (i : Nat) : doneReply s i f = [] :=
  if_neg fun h => h.1 hmode

theorem rxCreate_silent : AnswersSilently (rxCreate f s) := by
  unfold rxCreate
  split
  · exact answersSilently_reply silent_nil
  split
  · exact answersSilently_reply silent_nil
  · exact rxOpen_silent hmode s silent_nil

theorem rxSupersede_silent (i : Nat) : AnswersSilently (rxSupersede f i s) := by
  unfold rxSupersede
  split
  · exact answersSilently_reply silent_nil
  · exact rxOpen_silent hmode _ (silent_cancelEvents _ _)

theorem rxAccept_silent : AnswersSilently (rxAccept f s) := by
  unfold rxAccept
  split
  · exact rxCreate_silent hmode s
  split
  · split
    · rw [doneReply_noAck hmode]
      exact answersSilently_reply silent_nil
    · exact rxSupersede_silent hmode s _
  · exact rxDeliver_silent hmode s silent_nil _

end

/-- Settles O17: no step of a fragment under NO_ACK adds a SEND. -/
theorem noAckRxSendsNothing : Obligations.NoAckRxSendsNothing := by
  intro d s t f r hparse hmode h hr
  obtain ⟨u, r', ha, hsilent⟩ := rxAccept_silent hmode s
  have ht : reply u r' = .next t := (ha.symm.trans (execRxFragInput_of_parse hparse).symm).trans h
  rw [← reply_next.1 ht] at hr
  exact Option.some.inj hr ▸ hsilent

end Sys2Proof.Machine
end

section
/-!
Proofs of the family 42_rx, a fragment on its RECV slot (spec/42_rx.md R216, R217, R220 to R224):
where its tile goes, and what the final evaluations answer.
-/

namespace Sys2Proof.Machine

open Sys2Proof.Safety

/-! ### Gaps and the extent of the last window -/

theorem ne_zeros_iff_of_isBitmap {bm : Bits} {n : Nat} {miss : Nat → Bool}
    (h : IsBitmap bm n miss) : bm ≠ zeros n ↔ ∃ q < n, miss q = true := by
  obtain ⟨hlen, hget⟩ := h
  rw [ne_zeros_iff hlen, List.mem_iff_getElem]
  refine exists_congr fun q => ⟨fun ⟨hq, hbit⟩ => ?_, fun ⟨hq, hbit⟩ => ?_⟩
  · have hq' := hlen ▸ hq
    exact ⟨hq', by rw [← hget q hq', ← hbit, List.getD_eq_getElem _ _ hq]⟩
  · have hq' := hlen.symm ▸ hq
    exact ⟨hq', by rw [← hbit, ← hget q hq, List.getD_eq_getElem _ _ hq']⟩

/-- HP (R221) is 1 + the greatest position got, or 0. -/
theorem highPos_spec (got : Nat → Bool) (n : Nat) : highPos got n ≤ n ∧
    (1 ≤ highPos got n → got (highPos got n - 1) = true) ∧
    ∀ q, highPos got n ≤ q → q < n → got q = false := by
  induction n with
  | zero => exact ⟨le_rfl, nofun, nofun⟩
  | succ n ih =>
    obtain ⟨hle, hgot, hrest⟩ := ih
    rw [highPos]
    split
    · rename_i hn
      exact ⟨le_rfl, fun _ => hn, fun q hq hlt => absurd hlt (Nat.not_lt.2 hq)⟩
    · rename_i hn
      refine ⟨hle.trans n.le_succ, hgot, fun q hq hlt => ?_⟩
      rcases Nat.lt_succ_iff_lt_or_eq.1 hlt with hlt | rfl
      · exact hrest q hq hlt
      · exact Bool.eq_false_iff.2 hn

section
variable {s : State} {i : Nat} {r : FragRule}

theorem isExtent_hpOf : IsExtent s i r (hpOf s i r) := highPos_spec _ _

theorem windowMap_ne_zeros_iff {w : Nat} : windowMap s i r w ≠ zeros r.ws ↔ HasGap s i r w := by
  simp only [ne_zeros_iff_of_isBitmap (isBitmap_windowMap s i r w), HasGap, Bool.not_eq_true']

theorem isBitmap_lastMap : IsBitmap (lastMap s i r) r.ws (fun q =>
    decide (q < hpOf s i r) && !rcvdAt s i ((rxSlot s i).wl.toNat * r.ws + q)) :=
  ⟨by simp [lastMap], fun q hq => by simp [lastMap, hq]⟩

theorem lastMap_ne_zeros_iff : lastMap s i r ≠ zeros r.ws ↔
    ∃ q < hpOf s i r, rcvdAt s i ((rxSlot s i).wl.toNat * r.ws + q) = false := by
  rw [ne_zeros_iff_of_isBitmap isBitmap_lastMap]
  refine exists_congr fun q => ?_
  rw [Bool.and_eq_true, decide_eq_true_eq, Bool.not_eq_true']
  exact ⟨And.right, fun h => ⟨h.1.trans_le isExtent_hpOf.1, h⟩⟩

theorem firstGap_some {w : Nat} (h : firstGap s i r = some w) :
    w < (rxSlot s i).wl.toNat ∧ HasGap s i r w ∧ ∀ v < w, ¬ HasGap s i r v := by
  obtain ⟨hgap, hmem, hmin⟩ := List.find?_range_eq_some.1 h
  refine ⟨List.mem_range.1 hmem, windowMap_ne_zeros_iff.1 (of_decide_eq_true hgap),
    fun v hv hg => ?_⟩
  have := hmin v hv
  rw [decide_eq_true (windowMap_ne_zeros_iff.2 hg)] at this
  cases this

theorem firstGap_none : firstGap s i r = none ↔
    ∀ w < (rxSlot s i).wl.toNat, ¬ HasGap s i r w := by
  simp [firstGap, ← windowMap_ne_zeros_iff]

theorem noAckGap_iff : noAckGap s i r ↔ (∃ w < (rxSlot s i).wl.toNat, HasGap s i r w) ∨
    ∃ q < hpOf s i r, rcvdAt s i ((rxSlot s i).wl.toNat * r.ws + q) = false := by
  rw [noAckGap, lastMap_ne_zeros_iff, ne_eq, firstGap_none]
  push Not
  rfl

end

/-! ### The final evaluations -/

/-- FinalEval answers as R220 and R224 say, in every state. -/
theorem finalEval_verdict (r : FragRule) (i : Nat) (evs : List Event) (s : State) :
    ∃ t, finalEval r i evs s = .next t ∧ FinalVerdict r i evs s t := by
  unfold finalEval
  dsimp only
  split
  · rename_i w hw
    obtain ⟨hlt, hgap, hmin⟩ := firstGap_some hw
    exact ⟨_, rfl, .inl ⟨w, _, hlt, hgap, hmin, isBitmap_windowMap s i r w, rfl⟩⟩
  rename_i hnone
  have hwhole := firstGap_none.1 hnone
  split
  · rename_i hgap
    exact ⟨_, rfl, .inr ⟨_, hwhole, isExtent_hpOf,
      .inl ⟨_, lastMap_ne_zeros_iff.1 hgap, isBitmap_lastMap, rfl⟩⟩⟩
  rename_i hlast
  have hall : ∀ q < hpOf s i r, rcvdAt s i ((rxSlot s i).wl.toNat * r.ws + q) = true := by
    simpa [lastMap_ne_zeros_iff] using hlast
  split
  · rename_i hmic
    exact ⟨_, rfl, .inr ⟨_, hwhole, isExtent_hpOf, .inr ⟨hall, .inl ⟨hmic, rfl⟩⟩⟩⟩
  rename_i hmic
  unfold micDiscard
  dsimp only
  split
  · rename_i hround
    exact ⟨_, rfl, .inr ⟨_, hwhole, isExtent_hpOf, .inr ⟨hall, .inr (.inl ⟨hmic, hround, rfl⟩)⟩⟩⟩
  · rename_i hround
    exact ⟨_, rfl, .inr ⟨_, hwhole, isExtent_hpOf,
      .inr ⟨hall, .inr (.inr ⟨hmic, Bool.not_eq_false _ ▸ hround, rfl⟩)⟩⟩⟩

/-- The MIC of the message `m` decides between delivery and release (R223). -/
theorem micFail_or_completed (i : Nat) (evs : List Event) (s : State) (m : List Byte) :
    ∃ t, (if micOf s.cfg.par.micFn m = (rxSlot s i).mic then
        reply (setRx s i (rxSlot s i).completed) { slotResult .completed i evs with dataOut := m }
      else micFail i evs s) = .next t ∧
      if micOf s.cfg.par.micFn m = (rxSlot s i).mic then
        t = withResult (setRx s i (rxSlot s i).completed)
          { slotResult .completed i evs with dataOut := m }
      else t = withResult (releaseRx s i)
        { slotResult .micIncorrect i (evs ++ cancelEvents (.rx i) (rxSlot s i).armed) with
          r1 := 1 } := by
  split
  · exact ⟨_, rfl, rfl⟩
  · exact ⟨_, rfl, rfl⟩

/-- NoAckFinal answers as R223 says, in every state. -/
theorem noAckFinal_verdict (r : FragRule) (i : Nat) (evs : List Event) (s : State) :
    ∃ t, noAckFinal r i evs s = .next t ∧ NoAckVerdict r i evs s t := by
  unfold noAckFinal
  dsimp only
  split
  · rename_i hgap
    exact ⟨_, rfl, .inr ⟨hgap.1, _, isExtent_hpOf, .inl ⟨noAckGap_iff.1 hgap.2, rfl⟩⟩⟩
  rename_i hgap
  split
  · rename_i hm
    obtain ⟨t, ht, hchecked⟩ :=
      micFail_or_completed i evs s (reassemble (rxSlot s i) (rxSlot s i).nAppend.toNat)
    exact ⟨t, ht, .inl ⟨hm, hchecked⟩⟩
  · rename_i hm
    have hwhole : (∀ w < (rxSlot s i).wl.toNat, ¬ HasGap s i r w) ∧
        ∀ q < hpOf s i r, rcvdAt s i ((rxSlot s i).wl.toNat * r.ws + q) = true := by
      simpa [hm, noAckGap_iff] using hgap
    obtain ⟨t, ht, hchecked⟩ := micFail_or_completed i evs s (wholeMessage s i r)
    exact ⟨t, ht, .inr ⟨hm, _, isExtent_hpOf, .inr ⟨hwhole.1, hwhole.2, hchecked⟩⟩⟩

/-! ### A fragment on its slot -/

section
variable {d : List Byte} {s : State} {f : Frag} {i : Nat}
  (hparse : parseFrag s.cfg (unpack d) = .ok (some f)) (hconn : findConn s f.ri f.dt = some i)
  (hst : (rxSlot s i).state = .recv)
include hparse hconn hst

theorem exec_of_recv : exec (.rxFragInput d) s = rxDeliver f i [] s :=
  (execRxFragInput_of_parse hparse).trans (rxAccept_of_recv hconn hst)

theorem exec_regular {q : Nat} {tl : Bits} (hbody : f.body = .reg q tl) :
    exec (.rxFragInput d) s = rxRegular f.rule f.w q tl i [] s :=
  (exec_of_recv hparse hconn hst).trans (by rw [rxDeliver, hbody])

theorem exec_allOne {mic : Word} (hbody : f.body = .all1 mic) :
    exec (.rxFragInput d) s = rxAllOne f.rule f.w mic i [] s :=
  (exec_of_recv hparse hconn hst).trans (by rw [rxDeliver, hbody])

end

section
variable {r : FragRule} {w q i : Nat} {t : Bits} {evs : List Event} {s : State}

/-- A tile that fits and is not after the last window is stored, and the All-0 of an ACK mode
evaluated (R216). -/
theorem rxRegular_stored
    (hlast : ¬ (1 ≤ r.m ∧ (rxSlot s i).all1 = true ∧ (rxSlot s i).wl.toNat < w))
    (hfits : ¬ beyondStorage s (tilePos r (rxSlot s i) w q) t) :
    rxRegular r w q t i evs s =
      let s1 := setRx s i ((rxSlot s i).accept r (tilePos r (rxSlot s i) w q) t).arm
      let evs1 := evs ++ armRxEvents s i (rxSlot s i)
      if r.mode = 0 ∨ q ≠ r.ws - 1 then reply s1 (slotResult .ongoing i evs1)
      else if (rxSlot s i).all1 then finalEval r i evs1 s1
      else windowEval r i w evs1 s1 := by
  simp only [rxRegular, if_neg hlast, if_neg hfits]
  by_cases hmode : r.mode = 0
  · simp only [if_pos hmode, hmode, true_or, if_true]
  by_cases hq : q = r.ws - 1
  · simp only [hmode, hq, ne_eq, not_true_eq_false, or_self, if_true, if_false]
  · simp only [hmode, hq, ne_eq, not_false_eq_true, or_true, if_true, if_false]

/-- An All-1 that does not contradict the accepted last window is recorded, and the slot evaluated
(R217). -/
theorem rxAllOne_stored {mic : Word}
    (h : ¬ (1 ≤ r.m ∧ (rxSlot s i).all1 = true ∧ w ≠ (rxSlot s i).wl.toNat)) :
    rxAllOne r w mic i evs s =
      let s1 := setRx s i (allOneStored w mic (rxSlot s i))
      let evs1 := evs ++ armRxEvents s i (rxSlot s i)
      if r.mode = 0 then noAckFinal r i evs1 s1 else finalEval r i evs1 s1 :=
  if_neg h

end

/-- Settles O53: the branches of Regular, of which the last stores the tile. -/
theorem rxRegularFragment : Obligations.RxRegularFragment := by
  intro d s f i q tl hparse hconn hstores hst hbody _ _ p
  rw [exec_regular hparse hconn hst hbody]
  split
  · exact if_pos ‹_›
  rename_i hlast
  split
  · exact (if_neg hlast).trans (if_pos ‹_›)
  · rename_i hfits
    intro hnext
    refine ⟨_, tileStored_accept hstores f.rule _ tl, ?_⟩
    exact (rxRegular_stored hlast hfits).trans (if_pos hnext)

/-- Settles O55: the accepted All-1, and the All-0 after it, run FinalEval on the slot they
leave. -/
theorem rxFinalEvaluation : Obligations.RxFinalEvaluation := by
  intro d s f i hparse hconn hstores hst hmode
  have hm : 1 ≤ f.rule.m := one_le_m (parseFrag_some hparse).2.2.1 hmode
  dsimp only
  refine ⟨fun mic hbody => ?_, fun tl hbody hall1 hw hp htl => ?_⟩
  · rw [exec_allOne hparse hconn hst hbody]
    split
    · exact if_pos ⟨hm, ‹_›⟩
    · rename_i hagrees
      rw [rxAllOne_stored (fun h => hagrees h.2), if_neg hmode]
      exact finalEval_verdict _ _ _ _
  · have hpos : tilePos f.rule (rxSlot s i) f.w (f.rule.ws - 1) =
        f.w * f.rule.ws + (f.rule.ws - 1) := if_neg fun h => hmode h.1
    have hlast : ¬ (1 ≤ f.rule.m ∧ (rxSlot s i).all1 = true ∧ (rxSlot s i).wl.toNat < f.w) :=
      fun h => Nat.not_lt.2 hw h.2.2
    have hfits : ¬ beyondStorage s (tilePos f.rule (rxSlot s i) f.w (f.rule.ws - 1)) tl :=
      hpos ▸ not_or.2 ⟨Nat.not_le.2 hp, Nat.not_lt.2 htl⟩
    obtain ⟨t, ht, hverdict⟩ := finalEval_verdict f.rule i (armRxEvents s i (rxSlot s i))
      (setRx s i ((rxSlot s i).accept f.rule (f.w * f.rule.ws + (f.rule.ws - 1)) tl).arm)
    refine ⟨_, t, tileStored_accept hstores f.rule _ tl, ?_, hverdict⟩
    calc exec (.rxFragInput d) s
        = rxRegular f.rule f.w (f.rule.ws - 1) tl i [] s := exec_regular hparse hconn hst hbody
      _ = finalEval f.rule i _ _ := by
          rw [rxRegular_stored hlast hfits, hpos]
          exact (if_neg (not_or.2 ⟨hmode, not_not.2 rfl⟩)).trans (if_pos hall1)
      _ = .next t := ht

/-- Settles O56: the accepted All-1 runs NoAckFinal on the slot it leaves. -/
theorem rxNoAckFinal : Obligations.RxNoAckFinal := by
  intro d s f i mic hparse hconn hst hmode hbody
  dsimp only
  rw [exec_allOne hparse hconn hst hbody]
  split
  · exact if_pos ‹_›
  · rename_i hagrees
    rw [rxAllOne_stored hagrees, if_pos hmode]
    exact noAckFinal_verdict _ _ _ _

end Sys2Proof.Machine
end

section
/-!
Proofs of the family 60_exceptions (spec/60_exceptions.md R280 to R299): how a command can end. Each
command is walked once: it raises an error of its row of R285 in the state before it, or ends with an
outcome below 0x80.
-/

namespace Sys2Proof.Machine

open Sys2Proof.Safety

/-! ### How a command that may report an error ends -/

/-- The result of a next state is an outcome, a status below 0x80 (R280). -/
def HasOutcome (t : State) : Prop := ∃ u r, t = withResult u r ∧ ¬ r.status.isError

theorem hasOutcome_withResult {u : State} {r : CmdResult}
    (h : ¬ r.status.isError := by simp [Status.isError, Status.code]) :
    HasOutcome (withResult u r) := ⟨u, r, rfl, h⟩

/-- A next state answered in `s` is `s` with an error of `errs` recorded, or has an outcome (R281). -/
def RaisesOnly (errs : List Status) (s : State) (a : Answer) : Prop :=
  ∀ t, a = .next t → (∃ st ∈ errs, t = withResult s (CmdResult.plain st)) ∨ HasOutcome t

namespace RaisesOnly

variable {errs : List Status} {s : State} {a : Answer}

theorem raised {st : Status} (h : st ∈ errs := by simp [errorsOf]) :
    RaisesOnly errs s (raise s st) :=
  fun _ ht => .inl ⟨st, h, (raise_next.1 ht).symm⟩

theorem replied {u : State} {r : CmdResult}
    (h : ¬ r.status.isError := by simp [Status.isError, Status.code]) :
    RaisesOnly errs s (reply u r) :=
  fun _ ht => .inr (reply_next.1 ht ▸ hasOutcome_withResult h)

/-- A check of the command (R283): an error where it fails, else what follows it. -/
theorem check {p : Prop} [Decidable p] {st : Status} (h : RaisesOnly errs s a)
    (hst : st ∈ errs := by simp [errorsOf]) :
    RaisesOnly errs s (if p then raise s st else a) := by
  split
  · exact raised hst
  · exact h

/-- An outcome of the command under a condition, else what follows it. -/
theorem outcome {p : Prop} [Decidable p] {u : State} {r : CmdResult} (h : RaisesOnly errs s a)
    (hr : ¬ r.status.isError := by simp [Status.isError, Status.code]) :
    RaisesOnly errs s (if p then reply u r else a) := by
  split
  · exact replied hr
  · exact h

/-- The pre-check of a descriptor (R123) fails with one of three errors. -/
theorem raised_of_fdCheck {x y : Byte} {st : Status} (h : fdCheck s x y = .error st)
    (herrs : [Status.errReserved, .errLookup, .errConfig] ⊆ errs := by simp [errorsOf]) :
    RaisesOnly errs s (raise s st) :=
  raised (herrs (by simpa using fdCheck_error h))

/-- The result of a command that ended with an error (R281, R285). -/
theorem of_isError {t : State} {r : CmdResult} (h : RaisesOnly errs s a) (ha : a = .next t)
    (hr : t.result = some r) (he : r.status.isError) :
    ∃ st ∈ errs, t = withResult s (CmdResult.plain st) ∧ r = CmdResult.plain st := by
  rcases h t ha with ⟨st, hst, rfl⟩ | ⟨u, r', rfl, hne⟩
  · exact ⟨st, hst, rfl, (Option.some.inj hr).symm⟩
  · exact absurd he (Option.some.inj hr ▸ hne)

end RaisesOnly

/-! ### The codec commands -/

theorem execFdMatch_raisesOnly (a b : Byte) (s : State) :
    RaisesOnly (errorsOf (.fdMatch a b)) s (execFdMatch a b s) := by
  unfold execFdMatch
  split
  · exact .raised_of_fdCheck ‹_›
  · exact .outcome (.check .replied)

theorem execFdEncode_raisesOnly (a b : Byte) (s : State) :
    RaisesOnly (errorsOf (.fdEncode a b)) s (execFdEncode a b s) := by
  unfold execFdEncode
  split
  · exact .raised_of_fdCheck ‹_›
  · refine .outcome (.check ?_)
    split
    · rename_i h
      rw [residueOf_error h]
      exact .raised
    · exact .check .replied

theorem execFdDecode_raisesOnly (a b : Byte) (s : State) :
    RaisesOnly (errorsOf (.fdDecode a b)) s (execFdDecode a b s) := by
  unfold execFdDecode
  split
  · exact .raised_of_fdCheck ‹_›
  · exact .outcome (.outcome (.check (.check .replied)))

theorem execRidWrite_raisesOnly (a b : Byte) (s : State) :
    RaisesOnly (errorsOf (.ridWrite a b)) s (execRidWrite a b s) := by
  refine .check ?_
  split
  · exact .raised
  · exact .check .replied

theorem execRidLookup_raisesOnly (b : Byte) (s : State) :
    RaisesOnly (errorsOf (.ridLookup b)) s (execRidLookup b s) := by
  refine .check ?_
  split
  · exact .raised
  · exact .replied

/-! ### The TX commands -/

theorem execTxOutput_raisesOnly (a : Byte) (d : List Byte) (s : State) :
    RaisesOnly (errorsOf (.txOutput a d)) s (execTxOutput a d s) := by
  refine .outcome (.check ?_)
  split
  · exact .raised
  · rename_i r _
    obtain ⟨u, res, h, hres⟩ := txLaunch_replies r (txLoad s a r d)
    rw [h]
    exact .check (.check (.check (.check (.replied (by simp [hres, Status.isError, Status.code])))))

theorem nonFinalAck_hasOutcome {s t : State} {r : FragRule} {m : AckMsg}
    (h : nonFinalAck s r m = .next t) : HasOutcome t := by
  rcases nonFinalAck_cases h with ⟨_, rfl, -⟩ | ⟨-, rfl⟩ | ⟨-, rfl⟩
  · exact hasOutcome_withResult
  · exact hasOutcome_withResult
  · exact hasOutcome_withResult

theorem micRound_hasOutcome {s t : State} {r : FragRule} (h : micRound s r = .next t) :
    HasOutcome t := by
  rcases micRound_cases h with ⟨-, -, rfl⟩ | ⟨-, -, rfl⟩ | ⟨-, rfl⟩
  · exact hasOutcome_withResult
  · exact hasOutcome_withResult
  · exact hasOutcome_withResult

theorem finalAck_hasOutcome {s t : State} {r : FragRule} {m : AckMsg}
    (h : finalAck s r m = .next t) : HasOutcome t := by
  rcases finalAck_cases h with ⟨-, rfl⟩ | ⟨_, rfl, -⟩ | h
  · exact hasOutcome_withResult
  · exact hasOutcome_withResult
  · exact micRound_hasOutcome h

theorem execTxAckInput_raisesOnly (d : List Byte) (s : State) :
    RaisesOnly (errorsOf (.txAckInput d)) s (execTxAckInput d s) := by
  intro t h
  rcases execTxAckInput_cases h with ⟨-, rfl⟩ | ⟨-, rfl⟩ | ⟨r, -, -, -, ⟨-, h⟩ | ⟨-, h⟩⟩
  · exact .inl ⟨_, by simp [errorsOf], rfl⟩
  · exact .inr hasOutcome_withResult
  · exact .inr (nonFinalAck_hasOutcome h)
  · exact .inr (finalAck_hasOutcome h)

theorem execTxTimerFire_raisesOnly (g : Word) (s : State) :
    RaisesOnly (errorsOf (.txTimerFire g)) s (execTxTimerFire g s) := by
  intro t h
  rcases execTxTimerFire_cases h with
    ⟨-, rfl⟩ | ⟨-, -, -, rfl⟩ | ⟨_, -, -, -, -, -, rfl⟩ | ⟨-, -, -, -, rfl⟩ <;>
    exact .inr hasOutcome_withResult

/-! ### The RX commands -/

theorem Evaluated.raisesOnly {errs : List Status} {s : State} {a : Answer} (h : Evaluated a) :
    RaisesOnly errs s a := by
  obtain ⟨u, r, rfl, hr⟩ := h
  have hne : ∀ st ∈ [Status.ongoing, .completed, .micIncorrect, .rxResourceFail],
      ¬ st.isError := by decide
  exact .replied (hne _ hr)

theorem rxDeliver_raisesOnly {errs : List Status} {s u : State} (f : Frag) (i : Nat)
    (evs : List Event) : RaisesOnly errs s (rxDeliver f i evs u) := by
  rcases rxDeliver_evaluated f i evs u with ⟨-, h⟩ | h
  · rw [h]
    exact .replied
  · exact h.raisesOnly

/-- A released slot is FREE, so Create finds one (R214, R215). -/
theorem findFree_releaseRx_ne_none {s : State} {i : Nat} (h : i < s.rx.length) :
    findFree (releaseRx s i) ≠ none := by
  rw [Ne, findFree_none]
  intro hall
  exact hall _ (rxSlot_mem (s := releaseRx s i) (i := i) (by simpa using h))
    (by rw [releaseRx, rxSlot_setRx_self _ h, RxSlot.released_state])

/-- With a FREE slot at hand Create raises no error (R214): raised after the release of R215, it would
leave the slot released. -/
theorem rxOpen_raisesOnly {errs : List Status} {s u : State} (f : Frag) (evs : List Event)
    (h : findFree u ≠ none) : RaisesOnly errs s (rxOpen f evs u) := by
  unfold rxOpen
  split
  · exact absurd ‹_› h
  · exact rxDeliver_raisesOnly _ _ _

theorem execRxFragInput_raisesOnly (d : List Byte) (s : State) :
    RaisesOnly (errorsOf (.rxFragInput d)) s (execRxFragInput d s) := by
  unfold execRxFragInput
  split
  · rename_i h
    rcases parseFrag_error h with rfl | rfl <;> exact .raised
  · exact .replied
  rename_i f _
  unfold rxAccept
  split
  · unfold rxCreate
    split
    · exact .raised
    · exact .check (rxOpen_raisesOnly _ _ ‹_›)
  rename_i i hi
  split
  · exact .outcome (.check
      (rxOpen_raisesOnly _ _ (findFree_releaseRx_ne_none (findConn_some hi).1)))
  · exact rxDeliver_raisesOnly _ _ _

theorem execRxTimerFire_raisesOnly (a : Byte) (g : Word) (s : State) :
    RaisesOnly (errorsOf (.rxTimerFire a g)) s (execRxTimerFire a g s) :=
  .check (.outcome (.replied (by
    rw [plain_status]
    split <;> simp [Status.isError, Status.code])))

/-! ### Every command -/

/-- R281, R285: a command raises an error of its row in the state before it, or ends with an outcome
below 0x80. -/
theorem exec_raisesOnly (i : Instr) (s : State) : RaisesOnly (errorsOf i) s (exec i s) := by
  cases i with
  | nop => exact .replied
  | txOutput a d => exact execTxOutput_raisesOnly a d s
  | txAckInput d => exact execTxAckInput_raisesOnly d s
  | txTimerFire g => exact execTxTimerFire_raisesOnly g s
  | txAbort => exact .replied
  | txQuery => exact .replied
  | rxFragInput d => exact execRxFragInput_raisesOnly d s
  | rxTimerFire a g => exact execRxTimerFire_raisesOnly a g s
  | rxAbort a => exact .check .replied
  | rxQuery a => exact .check .replied
  | cbLoad d => exact .check .replied
  | cbClear => exact .replied
  | cbSeek p => exact .check .replied
  | cbWrite a v => exact .check (.check .replied)
  | cbRead a => exact .check (.check .replied)
  | cbUnload => exact .replied
  | cbAppend d => exact .check .replied
  | cbTail => exact .replied
  | fvLoad d => exact .check .replied
  | fvStore a => exact .check .replied
  | fdMatch a b => exact execFdMatch_raisesOnly a b s
  | fdEncode a b => exact execFdEncode_raisesOnly a b s
  | fdDecode a b => exact execFdDecode_raisesOnly a b s
  | ridWrite a b => exact execRidWrite_raisesOnly a b s
  | ridLookup b => exact execRidLookup_raisesOnly b s

/-- A triple that ends with an error, at dispatch or after it, leaves the state as it was (R281). -/
theorem runCommand_of_isError {c : Command} {s t : State} {r : CmdResult}
    (h : runCommand c s = .next t) (hr : t.result = some r) (he : r.status.isError) :
    ∃ st, t = withResult s (CmdResult.plain st) ∧ r = CmdResult.plain st := by
  rcases runCommand_cases h with ⟨i, -, hi⟩ | ⟨e, -, rfl⟩
  · obtain ⟨st, -, ht⟩ := (exec_raisesOnly i s).of_isError hi hr he
    exact ⟨st, ht⟩
  · exact ⟨decodeStatus e, rfl, (Option.some.inj hr).symm⟩

/-! ### The obligations -/

/-- Settles O9: an error, at dispatch or after it, is raised in the state before the command. -/
theorem errorChangesNothing : Obligations.ErrorChangesNothing := by
  intro c s t r h hr he
  obtain ⟨st, rfl, rfl⟩ := runCommand_of_isError h hr he
  exact ⟨rfl, rfl, rfl, rfl, rfl⟩

/-- Settles O10: a waiting exchange that is legal has its rule, so no command lacks an answer. -/
theorem everyCommandAnswers : Obligations.EveryCommandAnswers := by
  intro i s hs
  obtain ⟨u, r, h⟩ := exec_answers i (txRuled_of_txExchangeOk hs)
  exact ⟨withResult u r, r, h, rfl⟩

/-- Settles O11: each command was walked with its row of R285 as the errors it may raise. -/
theorem errorsEachCommandCanReport : Obligations.ErrorsEachCommandCanReport := by
  intro i s t r h hr he
  obtain ⟨st, hst, -, rfl⟩ := (exec_raisesOnly i s).of_isError h hr he
  exact hst

end Sys2Proof.Machine
end

section
/-!
Proofs of the family 70_reset_and_hazards (spec/70_reset_and_hazards.md R310, R311): what the reset
input leaves.
-/

namespace Sys2Proof.Machine

open Sys2Proof.Safety

theorem step_of_port_reset {s : State} {rest : List PortInput} (h : CfgOk s)
    (hp : s.port = .reset :: rest) : step s = .next (resetInput s rest) := by
  rw [step_of_ok h.1 h.2, hp]

theorem isReset_resetInput (s : State) (rest : List PortInput) : IsReset (resetInput s rest) :=
  ⟨rfl, rfl, rfl, rfl⟩

/-- Every slot of a reset state reads as a slot at reset (R37). -/
theorem rxSlot_of_isReset {s : State} (h : IsReset s) (i : Nat) : rxSlot s i = RxSlot.reset := by
  obtain ⟨-, -, -, hrx⟩ := h
  rcases lt_or_ge i s.rx.length with hi | hi
  · exact List.eq_of_mem_replicate (hrx ▸ rxSlot_mem hi)
  · exact rxSlot_of_le hi

/-- Every bit of CBUF is 0 in a reset state (R24). -/
theorem bit_cbuf_of_isReset {s : State} (h : IsReset s) (p : Nat) :
    Memory.bit s.cod.cbuf p = false := by
  obtain ⟨hcod, -, -, -⟩ := h
  rw [hcod]
  exact Memory.bit_nil p

/-- The TX connection of a reset state is INIT with no message (R28, R33). -/
theorem tx_init_of_isReset {s : State} (h : IsReset s) : s.tx.state = .init ∧ txLen s = 0 := by
  obtain ⟨-, htx, -, -⟩ := h
  rw [txLen, htx]
  exact ⟨rfl, rfl⟩

/-! ### The obligation -/

/-- Settles O6: the reset input answers `resetInput`, which is a reset state with no result. -/
theorem resetInputResetsEverything : Obligations.ResetInputResetsEverything := by
  intro s rest hcfg hport
  have hreset : IsReset (resetInput s rest) := isReset_resetInput s rest
  obtain ⟨hinit, hlen⟩ := tx_init_of_isReset hreset
  refine ⟨resetInput s rest, step_of_port_reset hcfg hport, hreset, resetInput_cfg s rest,
    resetInput_port s rest, bit_cbuf_of_isReset hreset, hinit, hlen,
    fun i _ => rxSlot_of_isReset hreset i, ?_⟩
  intro r hr
  rw [resetInput_result] at hr
  cases hr

end Sys2Proof.Machine
end
